-- ==== Sys2Proof/Word.lean ====
section
/-! DEFINITION. The word types of the block: a byte, a 16-bit register field and a 32-bit word (00_scope.md R10). -/

namespace Sys2Proof

/-- 8 bits (R10). -/
abbrev Byte := BitVec 8

/-- A 16-bit register field (PCOUNT, PLIMIT, the T_ registers). -/
abbrev Half := BitVec 16

/-- 32 bits (R10): a register, a command word, the host's data bus. -/
abbrev Word := BitVec 32

/-- A point of the logical or native frame: the coordinates are exact integers (R11). -/
abbrev Point := Int × Int

end Sys2Proof
end

