-- ==== Sys2Proof/Syntax.lean ====
section
/-! DEFINITION. The commands of the block, one constructor per row of the opcode table (30_encoding.md R92), and the
statements of its assembler (30_encoding.md R105, R106). -/

namespace Sys2Proof

/-- A command of the block. The one field of a command word beside the opcode is COLOR (`white = true` is COLOR = 1,
30_encoding.md R91); FILL selects the constructor. The operands are not in the word (R90). -/
inductive Instr where
  | nop
  | openBus
  | closeBus
  | rawReset
  | rawCmd
  | rawData
  | rawWaitIdle
  | initFull
  | initFast
  | commitBase
  | displayFull
  | displayFast
  | displayPartial
  | sleep
  | clear (white : Bool)
  | pixel (white : Bool)
  | getPixel
  | line (white : Bool)
  | rect (white : Bool)
  | rectf (white : Bool)
  | circle (white : Bool)
  | circlef (white : Bool)
  | blit (white : Bool)
  deriving DecidableEq, Repr

/-- A command statement of the assembler with its operands, as written (30_encoding.md R105). -/
inductive CmdStmt where
  | nop
  | openBus
  | closeBus
  | rawReset
  | rawCmd (b : Int)
  | rawData (bytes : List Int)
  | rawWaitIdle (t : Int)
  | initFull
  | initFast
  | commitBase
  | displayFull
  | displayFast
  | displayPartial (x y w h : Int)
  | sleep
  | clear (white : Bool)
  | pixel (white : Bool) (x y : Int)
  | getPixel (x y : Int)
  | line (white : Bool) (x0 y0 x1 y1 : Int)
  | rect (white : Bool) (x0 y0 x1 y1 : Int)
  | rectf (white : Bool) (x0 y0 x1 y1 : Int)
  | circle (white : Bool) (cx cy r : Int)
  | circlef (white : Bool) (cx cy r : Int)
  | blit (white : Bool) (x y w h asc : Int)
  deriving DecidableEq, Repr

/-- A statement of a host program: a command, a host-level access or a pseudo-instruction (30_encoding.md R105, R106). -/
inductive Stmt where
  | cmd (c : CmdStmt)
  | w32 (off v : Int)
  | r32 (off : Int)
  | w8 (off v : Int)
  | wait
  | hline (white : Bool) (x0 x1 y : Int)
  | vline (white : Bool) (x y0 y1 : Int)
  | fillW
  | fillB
  | ack
  /-- `DO cmd`. The spec does not say whether `cmd` may be a pseudo-instruction that expands to a command. DESIGN CHOICE: it is
  a command statement, log entry 21. -/
  | doCmd (c : CmdStmt)
  deriving DecidableEq, Repr

end Sys2Proof
end

