-- ==== Sys2Proof/WellFormed.lean ====
section
/-! DEFINITION. What the assembler accepts (30_encoding.md R105). A command word has no ill-formed term: its only field
is the COLOR bit, and both values of it are encodings (30_encoding.md R93). -/

namespace Sys2Proof

/-- Every term of `Instr` has a command word: the type admits only what R93 encodes. -/
def Instr.wf (_ : Instr) : Bool := true

/-- A signed field: "a signed field outside −32768..32767" is refused (R105). -/
def inSigned (v : Int) : Bool := decide (-32768 ≤ v ∧ v ≤ 32767)

/-- An unsigned field: "an unsigned field outside 0..65535" is refused (R105). -/
def inUnsigned (v : Int) : Bool := decide (0 ≤ v ∧ v ≤ 65535)

/-- A byte operand: "a byte outside 0..255" is refused (R105). -/
def inByte (v : Int) : Bool := decide (0 ≤ v ∧ v ≤ 255)

/-- A 32-bit value of a host write. -/
def inWord (v : Int) : Bool := decide (0 ≤ v ∧ v ≤ 4294967295)

/-- An offset of the aperture: 14 bits (20_memory.md R60). -/
def inAperture (v : Int) : Bool := decide (0 ≤ v ∧ v ≤ 16383)

/-- The operand checks of a command statement (R105). RAW_DATA takes one to four bytes. -/
def CmdStmt.wf : CmdStmt → Bool
  | .nop | .openBus | .closeBus | .rawReset | .initFull | .initFast | .commitBase | .displayFull | .displayFast
  | .sleep | .clear _ => true
  | .rawCmd b => inByte b
  | .rawData bs => decide (1 ≤ bs.length ∧ bs.length ≤ 4) && bs.all inByte
  | .rawWaitIdle t => inUnsigned t
  | .displayPartial x y w h => inSigned x && inSigned y && inUnsigned w && inUnsigned h
  | .pixel _ x y => inSigned x && inSigned y
  | .getPixel x y => inSigned x && inSigned y
  | .line _ x0 y0 x1 y1 => inSigned x0 && inSigned y0 && inSigned x1 && inSigned y1
  | .rect _ x0 y0 x1 y1 => inSigned x0 && inSigned y0 && inSigned x1 && inSigned y1
  | .rectf _ x0 y0 x1 y1 => inSigned x0 && inSigned y0 && inSigned x1 && inSigned y1
  | .circle _ cx cy r => inSigned cx && inSigned cy && inUnsigned r
  | .circlef _ cx cy r => inSigned cx && inSigned cy && inUnsigned r
  | .blit _ x y w h asc => inSigned x && inSigned y && inUnsigned w && inUnsigned h && inUnsigned asc

/-- The checks of a statement (R105, R106). -/
def Stmt.wf : Stmt → Bool
  | .cmd c | .doCmd c => c.wf
  | .w32 off v => inAperture off && inWord v
  | .r32 off => inAperture off
  | .w8 off v => inAperture off && inByte v
  | .hline _ x0 x1 y => inSigned x0 && inSigned x1 && inSigned y
  | .vline _ x y0 y1 => inSigned x && inSigned y0 && inSigned y1
  | .wait | .fillW | .fillB | .ack => true

end Sys2Proof
end

