-- ==== Sys2Proof/Decode.lean ====
section
/-! DEFINITION. The decoder and the encoder of the command word (30_encoding.md R90 to R94). The decoder is the opcode
table read with its masks (R93); the encoder is the field layout of R91 with the opcode map of R92. -/

namespace Sys2Proof

/-- Why a word decodes to no instruction (R94). -/
inductive DecodeError where
  /-- OP is not in the map of R92. -/
  | reservedOpcode
  /-- RSV, bits 31:10, is not 0. -/
  | reservedBits
  /-- FILL is set where the instruction does not take it. -/
  | fillNotTaken
  /-- COLOR is set where the instruction does not take it. -/
  | colorNotTaken
  deriving DecidableEq, Repr

/-- One row of opcode_table.json: `(w & mask) = pattern` selects it, and `build` takes the word's COLOR bit. -/
structure Row where
  mnemonic : String
  pattern : Word
  mask : Word
  build : Bool → Instr

/-- The mask of a row without COLOR (R93). -/
def maskAll : Word := 0xFFFFFFFF#32

/-- The mask of a row with COLOR: bit 8 cleared (R93). -/
def maskColor : Word := 0xFFFFFEFF#32

/-- The transport rows of opcode_table.json. -/
def transportRows : List Row :=
  [ ⟨"NOP", 0x00000000#32, maskAll, fun _ => .nop⟩,
    ⟨"OPEN", 0x00000001#32, maskAll, fun _ => .openBus⟩,
    ⟨"CLOSE", 0x00000002#32, maskAll, fun _ => .closeBus⟩,
    ⟨"RAW_RESET", 0x00000003#32, maskAll, fun _ => .rawReset⟩,
    ⟨"RAW_CMD", 0x00000004#32, maskAll, fun _ => .rawCmd⟩,
    ⟨"RAW_DATA", 0x00000005#32, maskAll, fun _ => .rawData⟩,
    ⟨"RAW_WAIT_IDLE", 0x00000006#32, maskAll, fun _ => .rawWaitIdle⟩ ]

/-- The refresh rows of opcode_table.json. -/
def refreshRows : List Row :=
  [ ⟨"INIT_FULL", 0x00000010#32, maskAll, fun _ => .initFull⟩,
    ⟨"INIT_FAST", 0x00000011#32, maskAll, fun _ => .initFast⟩,
    ⟨"COMMIT_BASE", 0x00000012#32, maskAll, fun _ => .commitBase⟩,
    ⟨"DISPLAY_FULL", 0x00000013#32, maskAll, fun _ => .displayFull⟩,
    ⟨"DISPLAY_FAST", 0x00000014#32, maskAll, fun _ => .displayFast⟩,
    ⟨"DISPLAY_PARTIAL", 0x00000015#32, maskAll, fun _ => .displayPartial⟩,
    ⟨"SLEEP", 0x00000016#32, maskAll, fun _ => .sleep⟩ ]

/-- The drawing rows of opcode_table.json. -/
def drawingRows : List Row :=
  [ ⟨"CLEAR", 0x00000020#32, maskColor, .clear⟩,
    ⟨"PIXEL", 0x00000021#32, maskColor, .pixel⟩,
    ⟨"GET_PIXEL", 0x00000022#32, maskAll, fun _ => .getPixel⟩,
    ⟨"LINE", 0x00000023#32, maskColor, .line⟩,
    ⟨"RECT", 0x00000024#32, maskColor, .rect⟩,
    ⟨"RECTF", 0x00000224#32, maskColor, .rectf⟩,
    ⟨"CIRCLE", 0x00000025#32, maskColor, .circle⟩,
    ⟨"CIRCLEF", 0x00000225#32, maskColor, .circlef⟩,
    ⟨"BLIT", 0x00000026#32, maskColor, .blit⟩ ]

/-- opcode_table.json, row by row. -/
def opcodeTable : List Row := transportRows ++ refreshRows ++ drawingRows

/-- Does the row take this word (R93)? -/
def Row.takes (r : Row) (w : Word) : Bool := w &&& r.mask == r.pattern

/-- The reason a word that no row takes is refused (R94). -/
def refusal (w : Word) : DecodeError :=
  if !(opcodeTable.any fun r => r.pattern.extractLsb' 0 8 == w.extractLsb' 0 8) then .reservedOpcode
  else if w.extractLsb' 10 22 != 0#22 then .reservedBits
  else if w.getLsbD 9 && !(opcodeTable.any fun r => r.pattern.extractLsb' 0 8 == w.extractLsb' 0 8 && r.pattern.getLsbD 9)
    then .fillNotTaken
  else .colorNotTaken

/-- The instruction a command word decodes to, or why it decodes to none (R93, R94). -/
def decode (w : Word) : Except DecodeError Instr :=
  match opcodeTable.find? (·.takes w) with
  | some r => .ok (r.build (w.getLsbD 8))
  | none => .error (refusal w)

/-- The opcode map (R92). -/
def Instr.op : Instr → Byte
  | .nop => 0x00#8
  | .openBus => 0x01#8
  | .closeBus => 0x02#8
  | .rawReset => 0x03#8
  | .rawCmd => 0x04#8
  | .rawData => 0x05#8
  | .rawWaitIdle => 0x06#8
  | .initFull => 0x10#8
  | .initFast => 0x11#8
  | .commitBase => 0x12#8
  | .displayFull => 0x13#8
  | .displayFast => 0x14#8
  | .displayPartial => 0x15#8
  | .sleep => 0x16#8
  | .clear _ => 0x20#8
  | .pixel _ => 0x21#8
  | .getPixel => 0x22#8
  | .line _ => 0x23#8
  | .rect _ | .rectf _ => 0x24#8
  | .circle _ | .circlef _ => 0x25#8
  | .blit _ => 0x26#8

/-- The COLOR bit (R91): 0 in an instruction that does not use it (R93). -/
def Instr.color : Instr → Bool
  | .clear c | .pixel c | .line c | .rect c | .rectf c | .circle c | .circlef c | .blit c => c
  | .nop | .openBus | .closeBus | .rawReset | .rawCmd | .rawData | .rawWaitIdle | .initFull | .initFast | .commitBase
  | .displayFull | .displayFast | .displayPartial | .sleep | .getPixel => false

/-- The FILL bit (R91): 1 in the filled forms of RECT and CIRCLE. -/
def Instr.fill : Instr → Bool
  | .rectf _ | .circlef _ => true
  | .nop | .openBus | .closeBus | .rawReset | .rawCmd | .rawData | .rawWaitIdle | .initFull | .initFast | .commitBase
  | .displayFull | .displayFast | .displayPartial | .sleep | .clear _ | .pixel _ | .getPixel | .line _ | .rect _
  | .circle _ | .blit _ => false

/-- The command word of an instruction: `{RSV, FILL, COLOR, OP}` (R91). -/
def encode (i : Instr) : Word :=
  0#22 ++ BitVec.ofBool i.fill ++ BitVec.ofBool i.color ++ i.op

/-- The decoder on a word given as a number of `nbits` bits, every higher bit 0. A command is one 32-bit word written
whole, so there is no byte order to undo (R90, R104). -/
def decodeTableWord (nbits w : Nat) : Option Instr :=
  (decode (BitVec.ofNat 32 (w % 2 ^ nbits))).toOption

end Sys2Proof
end

