-- ==== Sys2Proof/Config.lean ====
section
/-! DEFINITION. What is fixed for one block: the geometry, the parameters the spec leaves OPEN (constants without a
value) and the free values of the environment (constants without a value that the machine applies to a counter). -/

namespace Sys2Proof.Config

/-! ### Geometry (00_scope.md R7, R8, R9) -/

def nativeW : Nat := 122
def nativeH : Nat := 250

/-- `ROW_BYTES = ceil(122 / 8)` (R8). -/
def rowBytes : Nat := 16

/-- `FB_BYTES = ROW_BYTES * NATIVE_H` (R8). -/
def fbBytes : Nat := 4000

/-- `GLYPH_BYTES` (R9, decision D15). -/
def glyphBytes : Nat := 512

/-! ### Parameters the spec leaves OPEN (00_scope.md R9, 92_eei_decisions.md) -/

/-- The number of the 16 KiB page that holds the aperture: EPD_BASE is 16 KiB aligned (20_memory.md R60). OPEN, log entry 11. -/
opaque epdBasePage : Nat

/-- `EPD_BASE` (20_memory.md R60). -/
def epdBase : Nat := epdBasePage * 0x4000

/-- MS_DIV less one: MS_DIV is at least 1 (00_scope.md R9). OPEN, log entry 11. -/
opaque msDivPred : Nat

/-- `MS_DIV`, the block clock cycles to the millisecond (60_exceptions.md R222). -/
def msDiv : Nat := msDivPred + 1

/-- `BUSY_ACTIVE`, the level of the busy input that means busy (10_state.md R26). OPEN, log entry 11. -/
opaque busyActive : Bool

/-- The two landscape rotations (20_memory.md R80). -/
inductive RotSense where
  | cw
  | ccw
  deriving DecidableEq, Repr

/-- `ROT_SENSE`: the spec fixes CW (20_memory.md R80, decision D17). Log entry 12. -/
def rotSense : RotSense := .cw

/-- The roles of panel commands (41_refresh_fsm.md R152). -/
inductive Role where
  | doc | dem | rxw | ryw | rxc | ryc | bwf | duc | lut | wro | wrn | upd | act | dsl
  deriving DecidableEq, Repr

/-- The roles that have fixed parameter bytes (41_refresh_fsm.md R152). -/
inductive DataRole where
  | doc | dem | bwf | duc | updFull | updFast | updPartial | dsl
  deriving DecidableEq, Repr

/-- `PCMD.ρ.cmd` (41_refresh_fsm.md R152). OPEN, log entry 11. -/
opaque pcmd : Role → Byte

/-- `PCMD.ρ.data` (41_refresh_fsm.md R152). OPEN, log entry 11. -/
opaque pcmdData : DataRole → List Byte

/-- `LUT_FULL` (41_refresh_fsm.md R152). OPEN, log entry 11. -/
opaque lutFull : List Byte

/-- `LUT_FAST` (41_refresh_fsm.md R152). OPEN, log entry 11. -/
opaque lutFast : List Byte

/-! ### Free values (93_implementation_defined.md S1 to S4) -/

/-- The panel's answer to the `n`-th wait that no listed answer covers: the first cycle of the wait whose sample reads
not busy, or none (40_transport.md R129: a draw under no law). Log entry 2. -/
opaque panelAnswer : Nat → Option Nat

/-- Whether the `n`-th free choice between an old and a new byte falls on the new one (20_memory.md R70). Log entry 4. -/
opaque readsNew : Nat → Bool

/-- The byte that the RAM holds at an address since its `n`-th block reset (10_state.md R49, decision D29: any byte
values). Log entry 3. -/
opaque ramByte : Nat → Nat → Byte

end Sys2Proof.Config
end

