-- ==== Sys2Proof/Machine/State.lean ====
section
/-! DEFINITION. The state of the block, as plain data (10_state.md), with the queue of the outside world's inputs, and the
state after block reset (10_state.md R49). -/

namespace Sys2Proof.Machine

/-- The refresh FSM (10_state.md R22). Its values 6 and 7 are never held, so they have no constructor. -/
inductive Fsm where
  | cold
  | readyFull
  | readyFast
  | partialActive
  | asleep
  | fault
  deriving DecidableEq, Repr

/-- The completion codes (60_exceptions.md R210). Codes 8 to 15 are never produced, so they have no constructor. -/
inductive Code where
  | ok
  | resourceUnavailable
  | invalidTransition
  | hardwareTimeout
  | invalidArgument
  | notOpen
  | invalidCommand
  | partialLimit
  deriving DecidableEq, Repr

/-- The state of one output line (10_state.md R25). -/
inductive Level where
  | low
  | high
  | released
  deriving DecidableEq, Repr

/-- The five output lines (10_state.md R21, R25). -/
structure Lines where
  sclk : Level
  mosi : Level
  csN : Level
  dc : Level
  rstN : Level
  deriving DecidableEq, Repr

/-- The outcome of a bounded busy wait (40_transport.md R129). -/
inductive WaitOutcome where
  | idle
  | timeout
  deriving DecidableEq, Repr

/-- An event of the bus trace (40_transport.md R120). `dc = true` is data, `dc = false` is command. -/
inductive Event where
  | drive
  | release
  | xact (dc : Bool) (bytes : List Byte)
  | pulse (lo st : Nat)
  | wait (t : Nat) (r : WaitOutcome)
  | cut (dc : Bool) (sent : List Byte)
  deriving DecidableEq, Repr

/-- The output side of the transport: the line levels (10_state.md R25) and the bus trace (40_transport.md R120), which
block reset empties (10_state.md R49); `State.earlier` keeps what it held before.
While a command runs, both are as they were at its issue; `State.linesNow` and `State.traceNow` (Machine/Wire.lean) add
what the command has done since. -/
structure Bus where
  lines : Lines
  trace : List Event
  deriving DecidableEq, Repr

/-- The refresh FSM, the transport's ownership bit and the refresh session (10_state.md R22, R24, R27, R40). -/
structure Session where
  fsm : Fsm
  xportOpen : Bool
  baseValid : Bool
  pcount : Half
  deriving DecidableEq, Repr

/-- The registers that hold a value of their own (10_state.md R31 to R44). ID is a constant; STATUS and PCOUNT are views
of `Flags`, `Session` and `Panel`. -/
structure Regs where
  orient : Bool
  irqEn : Bool
  cmd : Word
  arg0 : Word
  arg1 : Word
  arg2 : Word
  result : Word
  plimit : Half
  tRstLow : Half
  tRstSettle : Half
  tInit : Half
  tFull : Half
  tFast : Half
  tPartial : Half
  spiDiv : Byte
  deriving DecidableEq, Repr

/-- The operand snapshot SNAP (10_state.md R46). Its `cmd` is also the latched command `op` of `Running(op)` (R45). -/
structure Snap where
  cmd : Word
  arg0 : Word
  arg1 : Word
  arg2 : Word
  orient : Bool
  plimit : Half
  tRstLow : Half
  tRstSettle : Half
  tInit : Half
  tFull : Half
  tFast : Half
  tPartial : Half
  spiDiv : Byte
  deriving DecidableEq, Repr

/-- The bits of STATUS that nothing else holds (10_state.md R35). -/
structure Flags where
  done : Bool
  err : Bool
  overrun : Bool
  dropped : Bool
  lastCode : Code
  auxCode : Code
  auxValid : Bool
  firstErr : Code
  deriving DecidableEq, Repr

/-- The controller phase SEQ (10_state.md R45); the latched command of `Running(op)` is `Snap.cmd`. -/
inductive Seq where
  | idle
  | running
  deriving DecidableEq, Repr

/-- The controller's place inside the running command (10_state.md R45): how many of the command's bus events are over,
and how many clock cycles of the next one have passed. No host read shows it. Log entry 9. -/
structure Pos where
  events : Nat
  cycle : Nat
  deriving DecidableEq, Repr

/-- The panel's side: the level on EPD_BUSY with the two synchronizer stages (10_state.md R26), the answers the panel
gives to the coming waits, oldest first (40_transport.md R129; `some c`: the first sample that reads not busy is that of
cycle `c` of the wait; `none`: no sample ever does), and the model's own counter of free answers (log entry 2). -/
structure Panel where
  pin : Bool
  sync1 : Bool
  sync2 : Bool
  answers : List (Option Nat)
  draws : Nat
  deriving DecidableEq, Repr

/-- The byte arrays FB, BASE and GLYPH (10_state.md R28 to R30), keyed by aperture offset (20_memory.md R61). An address
that is not listed holds the free byte `Config.ramByte` (R49, log entry 3). `Memory.wf` is its canonical form. -/
abbrev Memory := List Host.Cell

/-- One access of the host to the aperture: an offset of 14 bits and a width in bytes (10_state.md R21, 20_memory.md
R60, R68). A width the bus does not know is a bus error, so the width is any number. -/
inductive Access where
  | read (off : BitVec 14) (width : Nat)
  | write (off : BitVec 14) (width : Nat) (v : Word)
  deriving DecidableEq, Repr

/-- What the outside world does to the block, one input a step. -/
inductive Input where
  /-- A host access (20_memory.md R73). -/
  | access (a : Access)
  /-- The host's WAIT loop: STATUS is read until BUSY is 0 (30_encoding.md R106). -/
  | wait
  /-- The controller moves on inside the running command, by whole events and then cycles (10_state.md R45). -/
  | advance (events cycles : Nat)
  /-- The controller runs on to the command's completion before the next input. -/
  | complete
  /-- A clock edge that samples EPD_BUSY at this level (10_state.md R26). -/
  | clk (pin : Bool)
  /-- `rst_n` falls (70_reset_and_hazards.md R240). -/
  | resetAssert
  /-- `rst_n` returns to 1 (70_reset_and_hazards.md R240). -/
  | resetRelease
  deriving DecidableEq, Repr

/-- The block's answer on the host bus to the last access (20_memory.md R63, R68). -/
inductive Resp where
  | none
  | data (v : Word)
  | done
  | busError
  deriving DecidableEq, Repr

/-- The whole state. -/
structure State where
  session : Session
  bus : Bus
  mem : Memory
  regs : Regs
  snap : Snap
  flags : Flags
  seq : Seq
  pos : Pos
  panel : Panel
  inReset : Bool
  inputs : List Input
  resp : Resp
  /-- The model's own: the events before the last block reset, which emptied the trace (log entry 8). -/
  earlier : List Event
  /-- The model's own: the block resets so far; it selects the free bytes of the RAM (log entry 3). -/
  ramEpoch : Nat
  /-- The model's own: the free old-or-new choices used so far (log entry 4). -/
  readDraws : Nat
  deriving DecidableEq, Repr

/-- The reasons a step can stop with a fault: none. "The block has no trap. An error is a completion code" (60_exceptions.md
R213); a bus error is an answer on the host bus, after which the block goes on (20_memory.md R68, log entry 6). -/
inductive Fault where
  deriving DecidableEq, Repr

/-- The reasons a command is refused. -/
inductive Refusal where
  /-- Raised by an arm of `exec` whose command has no meaning yet; no arm does. Safe: the machine stops. -/
  | notModelled (mnemonic : String)
  deriving DecidableEq, Repr

/-- All five lines `Released` (10_state.md R25). -/
def Lines.allReleased : Lines := ⟨.released, .released, .released, .released, .released⟩

/-- The reset values of the registers (10_state.md R49). -/
def Regs.reset : Regs :=
  { orient := false, irqEn := false, cmd := 0#32, arg0 := 0#32, arg1 := 0#32, arg2 := 0#32, result := 0#32,
    plimit := 0#16, tRstLow := 10#16, tRstSettle := 10#16, tInit := 2000#16, tFull := 2000#16, tFast := 1500#16,
    tPartial := 2000#16, spiDiv := 4#8 }

/-- SNAP after reset: the spec gives no value, and no rule reads SNAP before an issue writes it. DESIGN CHOICE: a copy
of the registers' reset values, log entry 10. -/
def Snap.reset : Snap :=
  { cmd := 0#32, arg0 := 0#32, arg1 := 0#32, arg2 := 0#32, orient := false, plimit := 0#16, tRstLow := 10#16,
    tRstSettle := 10#16, tInit := 2000#16, tFull := 2000#16, tFast := 1500#16, tPartial := 2000#16, spiDiv := 4#8 }

/-- STATUS after reset (10_state.md R49). -/
def Flags.reset : Flags :=
  { done := false, err := false, overrun := false, dropped := false, lastCode := .ok, auxCode := .ok,
    auxValid := false, firstErr := .ok }

/-- The state after block reset, `rst_n` being 1 again and nothing pending (10_state.md R49, 70_reset_and_hazards.md
R242). The fields the spec gives no value: `snap` (log entry 10), `panel` (log entries 2 and 5), `resp` (log entry 16), `earlier` (log entry 8)
and the model's own counters (log entries 3 and 4). -/
def State.reset : State :=
  { session := { fsm := .cold, xportOpen := false, baseValid := false, pcount := 0#16 }
    bus := { lines := Lines.allReleased, trace := [] }
    mem := []
    regs := Regs.reset
    snap := Snap.reset
    flags := Flags.reset
    seq := .idle
    pos := ⟨0, 0⟩
    panel := { pin := false, sync1 := false, sync2 := false, answers := [], draws := 0 }
    inReset := false
    inputs := []
    resp := .none
    earlier := []
    ramEpoch := 0
    readDraws := 0 }

end Sys2Proof.Machine
end

