-- ==== Sys2Proof/Machine/Flags.lean ====
section
/-! DEFINITION. The status bits: the numbers of the FSM states and completion codes, what a completion, an issue and a
host write do to the STATUS bits, the STATUS word and the interrupt line (10_state.md R22, R35, R36; 60_exceptions.md R210,
R211, R216). -/

namespace Sys2Proof.Machine

/-- The FSM encoding (10_state.md R22). -/
def Fsm.code : Fsm → BitVec 3
  | .cold => 0#3
  | .readyFull => 1#3
  | .readyFast => 2#3
  | .partialActive => 3#3
  | .asleep => 4#3
  | .fault => 5#3

/-- The completion code numbers (60_exceptions.md R210). -/
def Code.num : Code → BitVec 4
  | .ok => 0#4
  | .resourceUnavailable => 1#4
  | .invalidTransition => 2#4
  | .hardwareTimeout => 3#4
  | .invalidArgument => 4#4
  | .notOpen => 5#4
  | .invalidCommand => 6#4
  | .partialLimit => 7#4

/-- What a completion with `code` writes (60_exceptions.md R211). -/
def Flags.complete (code : Code) (f : Flags) : Flags :=
  { f with
    lastCode := code
    firstErr := if code ≠ .ok ∧ f.err = false then code else f.firstErr
    err := if code ≠ .ok then true else f.err
    done := true }

/-- What an issue writes: DONE is cleared (30_encoding.md R101). -/
def Flags.issue (f : Flags) : Flags := { f with done := false }

/-- What a host write of `w` to STATUS clears (10_state.md R36). -/
def Flags.writeOneToClear (w : Word) (f : Flags) : Flags :=
  { f with
    done := if w.getLsbD 1 then false else f.done
    err := if w.getLsbD 2 then false else f.err
    firstErr := if w.getLsbD 2 then .ok else f.firstErr
    overrun := if w.getLsbD 3 then false else f.overrun
    dropped := if w.getLsbD 4 then false else f.dropped }

/-- `panel_busy = (busy_sync = BUSY_ACTIVE)` (10_state.md R26). -/
def State.panelBusy (s : State) : Bool := s.panel.sync2 == Config.busyActive

/-- STATUS.BUSY: "1 exactly when SEQ = Running" (10_state.md R45). -/
def State.busy (s : State) : Bool := s.seq == .running

/-- The FIRST_ERR field: "Reads 0 while ERR = 0" (10_state.md R35). -/
def Flags.firstErrField (f : Flags) : BitVec 4 := if f.err then f.firstErr.num else 0#4

/-- The STATUS word, from bit 31 down to bit 0 (10_state.md R35). -/
def State.statusWord (s : State) : Word :=
  0#4 ++ s.flags.firstErrField ++ 0#1 ++ BitVec.ofBool s.flags.auxValid ++ s.flags.auxCode.num
    ++ BitVec.ofBool s.panelBusy ++ BitVec.ofBool s.session.baseValid ++ BitVec.ofBool s.session.xportOpen
    ++ s.session.fsm.code ++ s.flags.lastCode.num ++ 0#3 ++ BitVec.ofBool s.flags.dropped
    ++ BitVec.ofBool s.flags.overrun ++ BitVec.ofBool s.flags.err ++ BitVec.ofBool s.flags.done
    ++ BitVec.ofBool s.busy

/-- `irq = CTRL.IRQ_EN & STATUS.DONE` (60_exceptions.md R216). -/
def State.irq (s : State) : Bool := s.regs.irqEn && s.flags.done

/-- One count of a successful DISPLAY_PARTIAL: it saturates at 0xFFFF (10_state.md R40). -/
def countPartial (n : Half) : Half := if n = 0xFFFF#16 then n else n + 1#16

end Sys2Proof.Machine
end

