-- ==== Sys2Proof/Machine/Operands.lean ====
section
/-! DEFINITION. The operand fields of the snapshot (30_encoding.md R96 to R99), the logical frame and the place of a pixel
(20_memory.md R76, R79, R80). -/

namespace Sys2Proof.Machine

/-- The low half of a word. -/
def lo16 (w : Word) : Half := w.extractLsb' 0 16

/-- The high half of a word. -/
def hi16 (w : Word) : Half := w.extractLsb' 16 16

/-- `X = sext_16(ARG0[15:0])` (R96). -/
def Snap.x (p : Snap) : Int := (lo16 p.arg0).toInt

/-- `Y = sext_16(ARG0[31:16])` (R96). -/
def Snap.y (p : Snap) : Int := (hi16 p.arg0).toInt

/-- `X1 = sext_16(ARG1[15:0])` (R97). -/
def Snap.x1 (p : Snap) : Int := (lo16 p.arg1).toInt

/-- `Y1 = sext_16(ARG1[31:16])` (R97). -/
def Snap.y1 (p : Snap) : Int := (hi16 p.arg1).toInt

/-- `Wd = zext_16(ARG1[15:0])` (R97). -/
def Snap.wd (p : Snap) : Nat := (lo16 p.arg1).toNat

/-- `Ht = zext_16(ARG1[31:16])` (R97). -/
def Snap.ht (p : Snap) : Nat := (hi16 p.arg1).toNat

/-- `R = zext_16(ARG1[15:0])` (R97). -/
def Snap.radius (p : Snap) : Nat := (lo16 p.arg1).toNat

/-- `N = zext_16(ARG1[15:0])` (R97). -/
def Snap.count (p : Snap) : Nat := (lo16 p.arg1).toNat

/-- `ASC = zext_16(ARG2[15:0])` (R98). -/
def Snap.asc (p : Snap) : Nat := (lo16 p.arg2).toNat

/-- `T = zext_16(ARG0[15:0])` (R96). -/
def Snap.timeout (p : Snap) : Nat := (lo16 p.arg0).toNat

/-- `B0 = ARG0[7:0]` (R96). -/
def Snap.b0 (p : Snap) : Byte := p.arg0.extractLsb' 0 8

/-- `B0` to `B3` of ARG0 (R96). -/
def Snap.argBytes (p : Snap) : List Byte :=
  [p.arg0.extractLsb' 0 8, p.arg0.extractLsb' 8 8, p.arg0.extractLsb' 16 8, p.arg0.extractLsb' 24 8]

/-- `W` of the logical frame (20_memory.md R79): 122 in portrait, 250 in landscape. -/
def frameW (landscape : Bool) : Nat := if landscape then Config.nativeH else Config.nativeW

/-- `H` of the logical frame (20_memory.md R79): 250 in portrait, 122 in landscape. -/
def frameH (landscape : Bool) : Nat := if landscape then Config.nativeW else Config.nativeH

/-- "A point (x, y) is in the frame when 0 ≤ x < W and 0 ≤ y < H" (20_memory.md R79). -/
def inFrame (landscape : Bool) (p : Point) : Bool :=
  decide (0 ≤ p.1 ∧ p.1 < frameW landscape ∧ 0 ≤ p.2 ∧ p.2 < frameH landscape)

/-- The native pixel of a point of the frame (20_memory.md R79, R80), for either sense of rotation. -/
def nativeOf (rot : Config.RotSense) (landscape : Bool) (p : Point) : Nat × Nat :=
  if landscape then
    match rot with
    | .cw => (Config.nativeW - 1 - p.2.toNat, p.1.toNat)
    | .ccw => (p.2.toNat, Config.nativeH - 1 - p.1.toNat)
  else (p.1.toNat, p.2.toNat)

/-- The index in FB of a native pixel's byte: `yn * ROW_BYTES + (xn div 8)` (20_memory.md R76). -/
def pixelIndex (n : Nat × Nat) : Nat := n.2 * Config.rowBytes + n.1 / 8

/-- The mask of a native pixel in its byte: `0x80 >> (xn mod 8)` (20_memory.md R76). -/
def pixelMask (n : Nat × Nat) : Byte := 0x80#8 >>> (n.1 % 8)

/-- The byte with the masked bit set or cleared (20_memory.md R81). -/
def setPixelBit (white : Bool) (m b : Byte) : Byte := if white then b ||| m else b &&& ~~~m

end Sys2Proof.Machine
end

