-- ==== Sys2Proof/Machine/Ops.lean ====
section
/-! DEFINITION. The shared operations: the byte arrays, pixels, the bus events, the bounded wait, the issue of a command
and its completion. "The block has no trap" (60_exceptions.md R213): what stands for taking an exception is `finish` with a
completion code (R211) and `enterFault` (R214); there is no return (R218). -/

namespace Sys2Proof.Machine

/-! ### The byte arrays (10_state.md R28 to R30, 20_memory.md R61) -/

/-- The aperture offset of FB[0], BASE[0] and GLYPH[0] (20_memory.md R61). -/
def fbStart : Nat := 0x1000
def baseStart : Nat := 0x2000
def glyphStart : Nat := 0x3000

/-- Is this the offset of a byte of FB? (20_memory.md R61: 0x1000 to 0x1F9F.) -/
def isFb (a : Nat) : Bool := decide (fbStart ≤ a ∧ a < fbStart + Config.fbBytes)

/-- Is this the offset of a byte of BASE? (20_memory.md R61: 0x2000 to 0x2F9F.) -/
def isBase (a : Nat) : Bool := decide (baseStart ≤ a ∧ a < baseStart + Config.fbBytes)

/-- Is this the offset of a byte of GLYPH? (20_memory.md R61: 0x3000 to 0x31FF.) -/
def isGlyph (a : Nat) : Bool := decide (glyphStart ≤ a ∧ a < glyphStart + Config.glyphBytes)

/-- Is there a byte of an array at this offset? -/
def isArray (a : Nat) : Bool := isFb a || isBase a || isGlyph a

/-- The canonical form: addresses strictly rising, each that of an array byte. What an unlisted address holds is a free
value (`Config.ramByte`), so no listed value is the one it would read as (log entry 3). -/
abbrev Memory.wf (m : Memory) : Prop :=
  m.Pairwise (fun c d => c.1 < d.1) ∧ ∀ c ∈ m, isArray c.1 = true

/-- The byte listed at an address. -/
def Memory.get? : Memory → Nat → Option Byte
  | [], _ => none
  | (k, v) :: m, a => if k = a then some v else Memory.get? m a

/-- One byte stored. -/
def Memory.put : Memory → Nat → Byte → Memory
  | [], a, v => [(a, v)]
  | (k, b) :: m, a, v =>
    if a < k then (a, v) :: (k, b) :: m
    else if a = k then (a, v) :: m
    else (k, b) :: Memory.put m a v

/-- Consecutive cells from address `a`. -/
def cellsFrom : Nat → List Byte → Memory
  | _, [] => []
  | a, b :: bs => (a, b) :: cellsFrom (a + 1) bs

/-- Consecutive bytes stored from address `a`. -/
def Memory.putRange (m : Memory) (a : Nat) (bs : List Byte) : Memory :=
  m.filter (fun c => decide (c.1 < a)) ++ cellsFrom a bs ++ m.filter (fun c => decide (a + bs.length ≤ c.1))

/-- The byte an array holds at an offset: the listed one, or the free byte of the RAM (10_state.md R49, log entry 3). -/
def State.byteAt (s : State) (a : Nat) : Byte := (s.mem.get? a).getD (Config.ramByte s.ramEpoch a)

/-- `FB[i]`, `BASE[i]` and `GLYPH[i]` (00_scope.md R12). -/
def State.fb (s : State) (i : Nat) : Byte := s.byteAt (fbStart + i)
def State.base (s : State) (i : Nat) : Byte := s.byteAt (baseStart + i)
def State.glyph (s : State) (i : Nat) : Byte := s.byteAt (glyphStart + i)

/-- One array byte stored. -/
def State.setByte (s : State) (a : Nat) (v : Byte) : State := { s with mem := s.mem.put a v }

/-- Consecutive array bytes stored. -/
def State.setBytes (s : State) (a : Nat) (bs : List Byte) : State := { s with mem := s.mem.putRange a bs }

/-! ### Pixels (20_memory.md R81, R82) -/

/-- The logical frame of the running command is the snapshot's (20_memory.md R79). -/
def State.sees (s : State) (p : Point) : Bool := inFrame s.snap.orient p

/-- The native pixel of a point under the snapshot's orientation (20_memory.md R79, R80). -/
def State.native (s : State) (p : Point) : Nat × Nat := nativeOf Config.rotSense s.snap.orient p

/-- `plot(x, y, c)` (20_memory.md R81): a point outside the frame has no effect. -/
def State.plot (s : State) (white : Bool) (p : Point) : State :=
  if s.sees p then
    let a := fbStart + pixelIndex (s.native p)
    s.setByte a (setPixelBit white (pixelMask (s.native p)) (s.byteAt a))
  else s

/-- `plot` for each point of a list (42_framebuffer.md R182). -/
def State.plotAll (s : State) (white : Bool) (ps : List Point) : State := ps.foldl (fun t p => t.plot white p) s

/-- The stored bit of a point of the frame: `(FB[...] >> (7 − (xn mod 8))) & 1` (20_memory.md R82). -/
def State.pixelBit (s : State) (p : Point) : Bool :=
  (s.fb (pixelIndex (s.native p))).getLsbD (7 - (s.native p).1 % 8)

/-- `get(x, y)` (20_memory.md R82): none is OOB. -/
def State.getPixel? (s : State) (p : Point) : Option Bool := if s.sees p then some (s.pixelBit p) else none

/-! ### Bus events (40_transport.md R120, R125 to R128) -/

/-- The idle levels of the driven lines, right after OPEN (10_state.md R25). -/
def Lines.atIdle : Lines := { sclk := .low, mosi := .low, csN := .high, dc := .low, rstN := .high }

/-- The level of a data/command line: 0 is command, 1 is data (10_state.md R21). -/
def dcLevel (dc : Bool) : Level := if dc then .high else .low

/-- The rest levels of the lines after an event: "EPD_DC keeps the level of the last transaction" (10_state.md R25). -/
def Event.rest (e : Event) (l : Lines) : Lines :=
  match e with
  | .drive => Lines.atIdle
  | .release => Lines.allReleased
  | .xact dc _ => { l with dc := dcLevel dc }
  | .cut dc _ => { l with dc := dcLevel dc }
  | .pulse _ _ => l
  | .wait _ _ => l

/-- The rest levels after a list of events. -/
def restAfter (l : Lines) (es : List Event) : Lines := es.foldl (fun l e => e.rest l) l

/-- Events appended to the bus trace, with the lines at rest after them (00_scope.md R12 `emit`). -/
def State.emit (es : List Event) (s : State) : State :=
  { s with bus := { lines := restAfter s.bus.lines es, trace := s.bus.trace ++ es } }

/-- `WriteCommand(b)` (40_transport.md R126). -/
def writeCommand (b : Byte) : List Event := [.xact false [b]]

/-- `WriteData(bs)`: nothing for no bytes, else one transaction (40_transport.md R126). -/
def writeData (bs : List Byte) : List Event := if bs.isEmpty then [] else [.xact true bs]

/-- `Issue(c, d)` (40_transport.md R127). -/
def issuePanel (c : Byte) (d : List Byte) : List Event := writeCommand c ++ writeData d

/-- `ResetPulse()` (40_transport.md R128). -/
def resetPulse (p : Snap) : List Event := [.pulse p.tRstLow.toNat p.tRstSettle.toNat]

/-! ### The bounded wait (40_transport.md R129) -/

/-- The outcome of a wait of `t` ms: the cycles 0 to `t * MS_DIV` are sampled, and the first sample that reads not busy
ends the wait with Idle (R129). -/
def waitOutcome (t : Nat) (firstIdle : Option Nat) : WaitOutcome :=
  match firstIdle with
  | none => .timeout
  | some c => if t * Config.msDiv < c then .timeout else .idle

/-- The panel's answer to the next wait: the next listed one, else a free value (log entry 2). -/
def Panel.next (p : Panel) : Option Nat :=
  match p.answers with
  | a :: _ => a
  | [] => Config.panelAnswer p.draws

/-- The panel with that answer used up. -/
def Panel.afterWait (p : Panel) : Panel :=
  match p.answers with
  | _ :: as => { p with answers := as }
  | [] => { p with draws := p.draws + 1 }

/-- The panel with the answers to `n` waits used up. -/
def Panel.afterWaits : Nat → Panel → Panel
  | 0, p => p
  | n + 1, p => Panel.afterWaits n p.afterWait

/-- The outcome of a wait of `t` ms in this state. -/
def State.waitResult (s : State) (t : Nat) : WaitOutcome := waitOutcome t s.panel.next

/-- `WaitIdle(t)`: the wait is over and on the trace (40_transport.md R129). -/
def State.waitIdle (t : Nat) (s : State) : State :=
  { s.emit [.wait t (s.waitResult t)] with panel := s.panel.afterWait }

/-! ### Issue and completion -/

/-- SNAP as an issue of `w` takes it (30_encoding.md R101, 10_state.md R46). -/
def Regs.snapshot (r : Regs) (w : Word) : Snap :=
  { cmd := w, arg0 := r.arg0, arg1 := r.arg1, arg2 := r.arg2, orient := r.orient, plimit := r.plimit,
    tRstLow := r.tRstLow, tRstSettle := r.tRstSettle, tInit := r.tInit, tFull := r.tFull, tFast := r.tFast,
    tPartial := r.tPartial, spiDiv := r.spiDiv }

/-- The issue of the command word `w` (30_encoding.md R101). -/
def State.issue (w : Word) (s : State) : State :=
  { s with
    regs := { s.regs with cmd := w }
    snap := s.regs.snapshot w
    flags := s.flags.issue
    seq := .running
    pos := ⟨0, 0⟩ }

/-- `finish(code)`: the completion of the running command (60_exceptions.md R211). -/
def State.finish (code : Code) (s : State) : State :=
  { s with flags := s.flags.complete code, seq := .idle, pos := ⟨0, 0⟩ }

/-- The FSM, the transport bit and the refresh session written whole. -/
def State.setSession (x : Session) (s : State) : State := { s with session := x }

/-- The FSM moves to a state other than PARTIAL_ACTIVE: BASE_VALID and PCOUNT are cleared (10_state.md R27, R40). -/
def State.enter (f : Fsm) (s : State) : State :=
  { s with session := { s.session with fsm := f, baseValid := false, pcount := 0#16 } }

/-- `enter_fault()` (60_exceptions.md R214). -/
def State.enterFault (s : State) : State := s.enter .fault

/-- A wait and what follows it: a timeout enters FAULT and completes HARDWARE_TIMEOUT at once (60_exceptions.md R214,
41_refresh_fsm.md R167); else the command goes on. -/
def State.waitThen (t : Nat) (s : State) (go : State → State) : State :=
  match s.waitResult t with
  | .timeout => (s.waitIdle t).enterFault.finish .hardwareTimeout
  | .idle => go (s.waitIdle t)

end Sys2Proof.Machine
end

