-- ==== Sys2Proof/Machine/Transport.lean ====
section
/-! DEFINITION. The transport commands (40_transport.md R131 to R137). A meaning is a state transformer that ends in one
`finish` on every path; its `exec` form answers the next state. -/

namespace Sys2Proof.Machine

/-- A meaning's answer: every path ends in `finish`, so there is always a next state (30_encoding.md R103). -/
abbrev Answer := Host.Outcome State Fault Refusal

/-- The deep-sleep sequence, `Issue(PCMD.DSL.cmd, PCMD.DSL.data)` (41_refresh_fsm.md R166, 40_transport.md R133). -/
def deepSleep : List Event := issuePanel (Config.pcmd .dsl) (Config.pcmdData .dsl)

/-- NOP (R131): `finish(OK)`. -/
def execNop (s : State) : Answer := .next (s.finish .ok)

/-- OPEN (R132). -/
def execOpen (s : State) : Answer :=
  if s.session.xportOpen then .next (s.finish .resourceUnavailable)
  else
    .next (((s.setSession { s.session with xportOpen := true }).emit [.drive]).finish .ok)

/-- The best-effort sleep of CLOSE: the state it leaves and the result it reports (R133). -/
def closeSleep (s : State) : State × Code :=
  match s.session.fsm with
  | .readyFull | .readyFast | .partialActive => ((s.emit deepSleep).enter .asleep, .ok)
  | .asleep => (s, .ok)
  | .cold | .fault => (s, .invalidTransition)

/-- The lines released and the transport given up, with the sleep's result in the AUX fields (R133). -/
def State.release (aux : Code) (s : State) : State :=
  let s := s.emit [.release]
  { s with
    session := { s.session with xportOpen := false }
    flags := { s.flags with auxCode := aux, auxValid := true } }

/-- CLOSE (R133). -/
def execClose (s : State) : Answer :=
  if s.session.xportOpen then .next (((closeSleep s).1.release (closeSleep s).2).finish .ok)
  else .next (s.finish .ok)

/-- RAW_RESET (R134): FAULT stays FAULT. -/
def execRawReset (s : State) : Answer :=
  if s.session.xportOpen then
    let s := s.emit (resetPulse s.snap)
    .next ((if s.session.fsm = .fault then s else s.enter .cold).finish .ok)
  else .next (s.finish .notOpen)

/-- RAW_CMD (R135). -/
def execRawCmd (s : State) : Answer :=
  if s.session.fsm ≠ .cold then .next (s.finish .invalidTransition)
  else if s.session.xportOpen = false then .next (s.finish .notOpen)
  else .next ((s.emit (writeCommand s.snap.b0)).finish .ok)

/-- RAW_DATA (R136). -/
def execRawData (s : State) : Answer :=
  if s.session.fsm ≠ .cold then .next (s.finish .invalidTransition)
  else if s.session.xportOpen = false then .next (s.finish .notOpen)
  else if s.snap.count < 1 ∨ 4 < s.snap.count then .next (s.finish .invalidArgument)
  else .next ((s.emit (writeData (s.snap.argBytes.take s.snap.count))).finish .ok)

/-- RAW_WAIT_IDLE (R137): legal in every FSM state. -/
def execRawWaitIdle (s : State) : Answer :=
  if s.session.xportOpen then .next (s.waitThen s.snap.timeout (·.finish .ok))
  else .next (s.finish .notOpen)

end Sys2Proof.Machine
end

