-- ==== Sys2Proof/Machine/Draw.lean ====
section
/-! DEFINITION. The drawing commands (42_framebuffer.md R183 to R191). A shape is the list of its points `P` (R182); the
lists of RECT, RECTF and CIRCLEF are cut to the frame first, which `plot` would do anyway (log entry 23). -/

namespace Sys2Proof.Machine

/-! ### Point sets -/

/-- The integers of `lo..hi` that are at least 0 and below `n`, in rising order. -/
def clipRange (lo hi : Int) (n : Nat) : List Int :=
  (List.range' (max lo 0).toNat ((min hi (n - 1) + 1 - max lo 0).toNat)).map Int.ofNat

/-- The state of a line walk (R186): the current point and the error term. -/
structure LineStep where
  x : Int
  y : Int
  err : Int
  deriving DecidableEq, Repr

/-- What a line walk keeps fixed (R186): the last point, `dx`, `dy` (at most 0) and the step directions. -/
structure LineCtx where
  x1 : Int
  y1 : Int
  dx : Int
  dy : Int
  sx : Int
  sy : Int
  deriving DecidableEq, Repr

/-- One turn of the loop of R186, after its `plot` and `break`. -/
def LineCtx.next (c : LineCtx) (p : LineStep) : LineStep :=
  let e2 := 2 * p.err
  let goX := c.dy ≤ e2
  let goY := e2 ≤ c.dx
  { x := if goX then p.x + c.sx else p.x
    y := if goY then p.y + c.sy else p.y
    err := p.err + (if goX then c.dy else 0) + (if goY then c.dx else 0) }

/-- The points the loop of R186 plots, `fuel` bounding its turns. -/
def LineCtx.walk (c : LineCtx) : Nat → LineStep → List Point
  | 0, _ => []
  | fuel + 1, p => (p.x, p.y) :: if p.x = c.x1 ∧ p.y = c.y1 then [] else c.walk fuel (c.next p)

/-- The endpoints of R186 in order: the first has the smaller x, or the same x and the smaller y. -/
def orderEnds (a b : Point) : Point × Point :=
  if b.1 < a.1 ∨ (a.1 = b.1 ∧ b.2 < a.2) then (b, a) else (a, b)

/-- The walk of R186 from `a` to `b` taken in that order. "The walk has exactly max(dx, −dy) + 1 points": that is its
fuel. -/
def walkLine (a b : Point) : List Point :=
  let c : LineCtx :=
    { x1 := b.1, y1 := b.2, dx := |b.1 - a.1|, dy := -|b.2 - a.2|,
      sx := if a.1 < b.1 then 1 else -1, sy := if a.2 < b.2 then 1 else -1 }
  c.walk ((max c.dx (-c.dy)).toNat + 1) ⟨a.1, a.2, c.dx + c.dy⟩

/-- The points of LINE (R186). -/
def linePoints (a b : Point) : List Point := walkLine (orderEnds a b).1 (orderEnds a b).2

/-- The points of RECTF inside a `w` by `h` frame (R188); `a` and `b` are opposite corners, in either order. -/
def rectfPoints (w h : Nat) (a b : Point) : List Point :=
  (clipRange (min a.2 b.2) (max a.2 b.2) h).flatMap fun y =>
    (clipRange (min a.1 b.1) (max a.1 b.1) w).map fun x => (x, y)

/-- Is a point of the rectangle on its border (R187)? -/
def onBorder (a b p : Point) : Bool :=
  decide (p.1 = min a.1 b.1 ∨ p.1 = max a.1 b.1 ∨ p.2 = min a.2 b.2 ∨ p.2 = max a.2 b.2)

/-- The points of RECT inside a `w` by `h` frame (R187). -/
def rectPoints (w h : Nat) (a b : Point) : List Point := (rectfPoints w h a b).filter (onBorder a b)

/-- The state of a circle walk (R189): `x`, `y` and the decision term `d`. -/
structure CircleStep where
  x : Int
  y : Int
  d : Int
  deriving DecidableEq, Repr

/-- One turn of the loop of R189, after its plots. -/
def CircleStep.next (p : CircleStep) : CircleStep :=
  let y := p.y + 1
  if p.d < 0 then { x := p.x, y := y, d := p.d + 2 * y + 1 }
  else { x := p.x - 1, y := y, d := p.d + 2 * (y - (p.x - 1)) + 1 }

/-- The turns the loop `while x >= y` makes, `fuel` bounding them. -/
def circleWalk : Nat → CircleStep → List CircleStep
  | 0, _ => []
  | fuel + 1, p => if p.y ≤ p.x then p :: circleWalk fuel p.next else []

/-- The turns of a circle of radius `r`: `y` rises from 0 and stays at most `r`, so there are at most `r + 1`. -/
def circleSteps (r : Nat) : List CircleStep := circleWalk (r + 1) ⟨r, 0, 1 - r⟩

/-- The eight points of one turn (R189). -/
def octants (c : Point) (p : CircleStep) : List Point :=
  [ (c.1 + p.x, c.2 + p.y), (c.1 - p.x, c.2 + p.y), (c.1 + p.x, c.2 - p.y), (c.1 - p.x, c.2 - p.y),
    (c.1 + p.y, c.2 + p.x), (c.1 - p.y, c.2 + p.x), (c.1 + p.y, c.2 - p.x), (c.1 - p.y, c.2 - p.x) ]

/-- The points of CIRCLE (R189). -/
def circlePoints (c : Point) (r : Nat) : List Point := (circleSteps r).flatMap (octants c)

/-- A horizontal span `xl..xr` of row `y` inside a `w` by `h` frame. -/
def spanPoints (w h : Nat) (xl xr y : Int) : List Point :=
  if 0 ≤ y ∧ y < h then (clipRange xl xr w).map fun x => (x, y) else []

/-- The four spans of one turn (R190), inside a `w` by `h` frame. -/
def quadSpans (w h : Nat) (c : Point) (p : CircleStep) : List Point :=
  spanPoints w h (c.1 - p.x) (c.1 + p.x) (c.2 + p.y) ++ spanPoints w h (c.1 - p.x) (c.1 + p.x) (c.2 - p.y)
    ++ spanPoints w h (c.1 - p.y) (c.1 + p.y) (c.2 + p.x) ++ spanPoints w h (c.1 - p.y) (c.1 + p.y) (c.2 - p.x)

/-- The points of CIRCLEF inside a `w` by `h` frame (R190). -/
def circlefPoints (w h : Nat) (c : Point) (r : Nat) : List Point := (circleSteps r).flatMap (quadSpans w h c)

/-- `gwb = ceil(Wd / 8)`, the bytes of one glyph row (R191). -/
def glyphRowBytes (wd : Nat) : Nat := (wd + 7) / 8

/-- Column `i` of glyph row `j` is ink (R191). -/
def State.ink (s : State) (wd j i : Nat) : Bool := (s.glyph (j * glyphRowBytes wd + i / 8)).getLsbD (7 - i % 8)

/-- The points BLIT plots (R191): the ink of the glyph, its left column at `x` and its first row at `top`. -/
def State.blitPoints (s : State) (x top : Int) (wd ht : Nat) : List Point :=
  (List.range ht).flatMap fun j : Nat =>
    ((List.range wd).filter (s.ink wd j)).map fun i : Nat => (x + (i : Int), top + (j : Int))

/-! ### Commands. The colour operand is the word's COLOR bit, which decoding hands to the meaning (R181). -/

/-- CLEAR (R183): every byte of FB, padding included, whatever the orientation. -/
def execClear (white : Bool) (s : State) : Answer :=
  .next ((s.setBytes fbStart (List.replicate Config.fbBytes (if white then 0xFF#8 else 0x00#8))).finish .ok)

/-- A shape command: its points are plotted, and it completes OK (R182). -/
def drawShape (white : Bool) (ps : List Point) (s : State) : State := (s.plotAll white ps).finish .ok

/-- The first operand point of the snapshot (R96) and the second (R97). -/
def Snap.p0 (p : Snap) : Point := (p.x, p.y)
def Snap.p1 (p : Snap) : Point := (p.x1, p.y1)

/-- The logical frame of the snapshot (20_memory.md R79). -/
def Snap.w (p : Snap) : Nat := frameW p.orient
def Snap.h (p : Snap) : Nat := frameH p.orient

/-- PIXEL (R184). -/
def execPixel (white : Bool) (s : State) : Answer := .next (drawShape white [s.snap.p0] s)

/-- The RESULT word of GET_PIXEL (10_state.md R39): OOB in bit 31, the pixel in bit 0. -/
def resultWord : Option Bool → Word
  | none => 0x80000000#32
  | some b => (BitVec.ofBool b).setWidth 32

/-- GET_PIXEL (R185). -/
def execGetPixel (s : State) : Answer :=
  .next (({ s with regs := { s.regs with result := resultWord (s.getPixel? s.snap.p0) } } : State).finish .ok)

/-- LINE (R186). -/
def execLine (white : Bool) (s : State) : Answer := .next (drawShape white (linePoints s.snap.p0 s.snap.p1) s)

/-- RECT (R187). -/
def execRect (white : Bool) (s : State) : Answer :=
  .next (drawShape white (rectPoints s.snap.w s.snap.h s.snap.p0 s.snap.p1) s)

/-- RECTF (R188). -/
def execRectf (white : Bool) (s : State) : Answer :=
  .next (drawShape white (rectfPoints s.snap.w s.snap.h s.snap.p0 s.snap.p1) s)

/-- CIRCLE (R189). -/
def execCircle (white : Bool) (s : State) : Answer := .next (drawShape white (circlePoints s.snap.p0 s.snap.radius) s)

/-- CIRCLEF (R190). -/
def execCirclef (white : Bool) (s : State) : Answer :=
  .next (drawShape white (circlefPoints s.snap.w s.snap.h s.snap.p0 s.snap.radius) s)

/-- BLIT (R191): the glyph must fit in the GLYPH buffer. -/
def execBlit (white : Bool) (s : State) : Answer :=
  if Config.glyphBytes < glyphRowBytes s.snap.wd * s.snap.ht then .next (s.finish .invalidArgument)
  else .next (drawShape white (s.blitPoints s.snap.x (s.snap.y - s.snap.asc) s.snap.wd s.snap.ht) s)

end Sys2Proof.Machine
end

