-- ==== Sys2Proof/Machine/Refresh.lean ====
section
/-! DEFINITION. The panel command sequences (41_refresh_fsm.md R153 to R157) and the refresh commands (R158 to R166). -/

namespace Sys2Proof.Machine

/-! ### Sequences -/

/-- A number below 256 as a byte of a panel parameter. -/
def byteOf (n : Nat) : Byte := BitVec.ofNat 8 n

/-- `enc_RXW`, `enc_RYW`, `enc_RXC` and `enc_RYC` (R153). -/
def encRxw (xs xe : Nat) : List Byte := [byteOf xs, byteOf xe]
def encRyw (ys ye : Nat) : List Byte :=
  [byteOf (ys % 256), byteOf (ys / 256), byteOf (ye % 256), byteOf (ye / 256)]
def encRxc (xs : Nat) : List Byte := [byteOf xs]
def encRyc (ys : Nat) : List Byte := [byteOf (ys % 256), byteOf (ys / 256)]

/-- A window of the panel's RAM: byte columns `xs..xe` and rows `ys..ye`, all inclusive (R153, R163). -/
structure Window where
  xs : Nat
  xe : Nat
  ys : Nat
  ye : Nat
  deriving DecidableEq, Repr

/-- The full frame: byte columns 0 to 15 and rows 0 to 249. -/
def Window.full : Window := ⟨0, 15, 0, 249⟩

/-- `SetWindow` (R154). -/
def setWindow (w : Window) : List Event :=
  issuePanel (Config.pcmd .rxw) (encRxw w.xs w.xe) ++ issuePanel (Config.pcmd .ryw) (encRyw w.ys w.ye)
    ++ issuePanel (Config.pcmd .rxc) (encRxc w.xs) ++ issuePanel (Config.pcmd .ryc) (encRyc w.ys)

/-- The indices of the bytes of row `y` inside a window. -/
def Window.row (w : Window) (y : Nat) : List Nat :=
  (List.range' w.xs (w.xe + 1 - w.xs)).map fun c => Config.rowBytes * y + c

/-- The rows of a window. -/
def Window.rows (w : Window) : List Nat := List.range' w.ys (w.ye + 1 - w.ys)

/-- The indices of a window's bytes in transmission order: rows outer, byte columns inner (R155). -/
def Window.indices (w : Window) : List Nat := w.rows.flatMap w.row

/-- `WriteBank` for the bank whose write command is `c` (R155). Only FB is read. -/
def writeBank (c : Byte) (w : Window) (s : State) : List Event :=
  setWindow w ++ writeCommand c ++ writeData (w.indices.map s.fb)

/-- `Trigger(m)`, `m` given by its update-select data (R156). -/
def trigger (m : Config.DataRole) : List Event :=
  issuePanel (Config.pcmd .upd) (Config.pcmdData m) ++ issuePanel (Config.pcmd .act) []

/-- `InitSeq(lut)` (R157). -/
def initSeq (lut : List Byte) : List Event :=
  issuePanel (Config.pcmd .doc) (Config.pcmdData .doc) ++ issuePanel (Config.pcmd .dem) (Config.pcmdData .dem)
    ++ issuePanel (Config.pcmd .rxw) (encRxw 0 15) ++ issuePanel (Config.pcmd .ryw) (encRyw 0 249)
    ++ issuePanel (Config.pcmd .bwf) (Config.pcmdData .bwf) ++ issuePanel (Config.pcmd .duc) (Config.pcmdData .duc)
    ++ issuePanel (Config.pcmd .lut) lut

/-- The bytes of a window copied from FB to BASE, row by row (R160, R164). The bytes copied are those of `src`. -/
def commitWindow (w : Window) (src : State) (s : State) : State :=
  w.rows.foldl
    (fun t y => t.setBytes (baseStart + (Config.rowBytes * y + w.xs)) ((w.row y).map src.fb)) s

/-! ### Commands -/

/-- INIT_FULL and INIT_FAST: the same checks and path, with the LUT and the READY state of each (R158, R159). -/
def initWith (ready : Fsm) (lut : List Byte) (s : State) : State :=
  if s.session.fsm = .cold ∨ s.session.fsm = .asleep ∨ s.session.fsm = .fault then
    if s.session.xportOpen then
      (s.emit (resetPulse s.snap)).waitThen s.snap.tInit.toNat fun s =>
        ((s.emit (initSeq lut)).enter ready).finish .ok
    else s.finish .notOpen
  else s.finish .invalidTransition

/-- INIT_FULL (R158). -/
def execInitFull (s : State) : Answer := .next (initWith .readyFull Config.lutFull s)

/-- INIT_FAST (R159). -/
def execInitFast (s : State) : Answer := .next (initWith .readyFast Config.lutFast s)

/-- COMMIT_BASE (R160): both banks are written, old data first, and BASE becomes FB. -/
def execCommitBase (s : State) : Answer :=
  if s.session.fsm ≠ .readyFull then .next (s.finish .invalidTransition)
  else if s.session.xportOpen = false then .next (s.finish .notOpen)
  else
    let t := s.emit (writeBank (Config.pcmd .wro) .full s ++ writeBank (Config.pcmd .wrn) .full s)
    let t := t.setBytes baseStart ((List.range Config.fbBytes).map s.fb)
    .next ((t.setSession { s.session with fsm := .partialActive, baseValid := true, pcount := 0#16 }).finish .ok)

/-- DISPLAY_FULL and DISPLAY_FAST: the same path, with the READY state, the update data and the timeout of each (R161,
R162). -/
def displayWith (ready : Fsm) (m : Config.DataRole) (t : Nat) (s : State) : State :=
  if s.session.fsm ≠ ready then s.finish .invalidTransition
  else if s.session.xportOpen = false then s.finish .notOpen
  else (s.emit (writeBank (Config.pcmd .wrn) .full s ++ trigger m)).waitThen t (·.finish .ok)

/-- DISPLAY_FULL (R161). -/
def execDisplayFull (s : State) : Answer := .next (displayWith .readyFull .updFull s.snap.tFull.toNat s)

/-- DISPLAY_FAST (R162). -/
def execDisplayFast (s : State) : Answer := .next (displayWith .readyFast .updFast s.snap.tFast.toNat s)

/-- `valid_window(X, Y, Wd, Ht)`, in native coordinates whatever the orientation (R163). -/
def validWindow (x y : Int) (wd ht : Nat) : Bool :=
  decide (0 ≤ x ∧ 0 ≤ y ∧ x % 8 = 0 ∧ 1 ≤ wd ∧ 1 ≤ ht ∧ x + wd ≤ 122 ∧ y + ht ≤ 250 ∧ (wd % 8 = 0 ∨ x + wd = 122))

/-- The byte columns and rows of a valid window (R163). -/
def windowOf (x y : Int) (wd ht : Nat) : Window :=
  { xs := x.toNat / 8, xe := (x.toNat + wd - 1) / 8, ys := y.toNat, ye := y.toNat + ht - 1 }

/-- The window of the running DISPLAY_PARTIAL (R164). -/
def Snap.window (p : Snap) : Window := windowOf p.x p.y p.wd p.ht

/-- The partial-refresh limit is reached (R165). -/
def State.limitReached (s : State) : Bool := decide (s.snap.plimit ≠ 0#16 ∧ s.snap.plimit ≤ s.session.pcount)

/-- DISPLAY_PARTIAL (R164). -/
def execDisplayPartial (s : State) : Answer :=
  if s.session.fsm ≠ .partialActive then .next (s.finish .invalidTransition)
  else if s.session.xportOpen = false then .next (s.finish .notOpen)
  else if validWindow s.snap.x s.snap.y s.snap.wd s.snap.ht = false then .next (s.finish .invalidArgument)
  else if s.limitReached then .next (s.finish .partialLimit)
  else
    let w := s.snap.window
    .next ((s.emit (writeBank (Config.pcmd .wrn) w s ++ trigger .updPartial)).waitThen s.snap.tPartial.toNat fun t =>
      let t := commitWindow w s t
      (t.setSession { t.session with pcount := countPartial t.session.pcount }).finish .ok)

/-- SLEEP (R166): it does not wait on the busy line. -/
def execSleep (s : State) : Answer :=
  if s.session.fsm = .readyFull ∨ s.session.fsm = .readyFast ∨ s.session.fsm = .partialActive then
    if s.session.xportOpen then .next (((s.emit deepSleep).enter .asleep).finish .ok)
    else .next (s.finish .notOpen)
  else .next (s.finish .invalidTransition)

end Sys2Proof.Machine
end

