-- ==== Sys2Proof/Machine/Dispatch.lean ====
section
/-! DEFINITION. The dispatch of a decoded command to its meaning (30_encoding.md R103). -/

namespace Sys2Proof.Machine

def exec (i : Instr) (s : State) : Host.Outcome State Fault Refusal :=
  match i with
  | .nop => Sys2Proof.Machine.execNop s
  | .openBus => Sys2Proof.Machine.execOpen s
  | .closeBus => Sys2Proof.Machine.execClose s
  | .rawReset => Sys2Proof.Machine.execRawReset s
  | .rawCmd => Sys2Proof.Machine.execRawCmd s
  | .rawData => Sys2Proof.Machine.execRawData s
  | .rawWaitIdle => Sys2Proof.Machine.execRawWaitIdle s
  | .initFull => Sys2Proof.Machine.execInitFull s
  | .initFast => Sys2Proof.Machine.execInitFast s
  | .commitBase => Sys2Proof.Machine.execCommitBase s
  | .displayFull => Sys2Proof.Machine.execDisplayFull s
  | .displayFast => Sys2Proof.Machine.execDisplayFast s
  | .displayPartial => Sys2Proof.Machine.execDisplayPartial s
  | .sleep => Sys2Proof.Machine.execSleep s
  | .clear white => Sys2Proof.Machine.execClear white s
  | .pixel white => Sys2Proof.Machine.execPixel white s
  | .getPixel => Sys2Proof.Machine.execGetPixel s
  | .line white => Sys2Proof.Machine.execLine white s
  | .rect white => Sys2Proof.Machine.execRect white s
  | .rectf white => Sys2Proof.Machine.execRectf white s
  | .circle white => Sys2Proof.Machine.execCircle white s
  | .circlef white => Sys2Proof.Machine.execCirclef white s
  | .blit white => Sys2Proof.Machine.execBlit white s

end Sys2Proof.Machine
end

