-- ==== Sys2Proof/Machine/Wire.lean ====
section
/-! DEFINITION. The pin level: the line levels cycle by cycle during a transaction and a reset pulse (40_transport.md R121,
R122, R125, R128), the sampling of a wait (R129), what the panel receives, and the cycle counts (70_reset_and_hazards.md R252 to
R254). -/

namespace Sys2Proof.Machine

/-- The level of a driven line. -/
def levelOf (b : Bool) : Level := if b then .high else .low

/-- One bit of a byte: `h` cycles with the bit on EPD_MOSI and EPD_SCLK low, then `h` cycles with EPD_SCLK high (R125). -/
def bitWave (h : Nat) (l : Lines) (b : Bool) : List Lines :=
  List.replicate h { l with mosi := levelOf b, sclk := .low } ++ List.replicate h { l with mosi := levelOf b, sclk := .high }

/-- The bits of a byte in wire order, most significant first (R121). -/
def wireBits (b : Byte) : List Bool := [7, 6, 5, 4, 3, 2, 1, 0].map b.getLsbD

/-- One byte on the wire (R125). -/
def byteWave (h : Nat) (l : Lines) (b : Byte) : List Lines := (wireBits b).flatMap (bitWave h l)

/-- The level EPD_MOSI keeps after the last bit until chip-select is released (R125). -/
def lastBit (bs : List Byte) : Level := levelOf ((bs.getLast?.getD 0#8).getLsbD 0)

/-- `Xact(dc, bytes)`, cycle by cycle, from lines at rest (R125): EPD_DC first, then chip-select, then the bytes, then
chip-select released. -/
def xactWave (h : Nat) (l : Lines) (dc : Bool) (bs : List Byte) : List Lines :=
  let off := { l with dc := dcLevel dc }
  let on := { off with csN := .low }
  List.replicate h off ++ bs.flatMap (byteWave h on)
    ++ List.replicate h { on with mosi := lastBit bs, sclk := .low } ++ List.replicate h { off with csN := .high, mosi := .low }

/-- `ResetPulse()`, cycle by cycle (R128). -/
def pulseWave (l : Lines) (lo st : Nat) : List Lines :=
  List.replicate (lo * Config.msDiv) { l with rstN := .low } ++ List.replicate (st * Config.msDiv) { l with rstN := .high }

/-- The lines during an event, cycle by cycle. A wait leaves the lines at rest (R123); its cycles are its bound (R129). -/
def Event.wave (h : Nat) (l : Lines) (e : Event) : List Lines :=
  match e with
  | .xact dc bs => xactWave h l dc bs
  | .pulse lo st => pulseWave l lo st
  | .wait t _ => List.replicate (t * Config.msDiv + 1) l
  | .drive => []
  | .release => []
  | .cut _ _ => []

/-- The cycles the controller spends in an event, or at most spends for a wait, whose samples are those of the cycles 0 to
`t * MS_DIV` (40_transport.md R125, R128, R129). -/
def Event.span (h : Nat) (e : Event) : Nat :=
  match e with
  | .xact _ bs => h * (16 * bs.length + 3)
  | .pulse lo st => (lo + st) * Config.msDiv
  | .wait t _ => t * Config.msDiv + 1
  | .drive => 0
  | .release => 0
  | .cut _ _ => 0

/-- The cycles by which `panel_busy` is behind EPD_BUSY: one to each stage of the synchronizer (10_state.md R26). -/
def syncCycles : Nat := 2

/-- The cycles an event takes, or at most takes for a wait: a wait has the delay of the synchronizer beside its samples
(70_reset_and_hazards.md R252, R253; log entry 24). -/
def Event.cycles (h : Nat) (e : Event) : Nat :=
  match e with
  | .wait _ _ => e.span h + syncCycles
  | .drive | .release | .xact _ _ | .pulse _ _ | .cut _ _ => e.span h

/-- The bound on a command's bus time: the sum over its bus actions (70_reset_and_hazards.md R254). -/
def busCycles (h : Nat) (es : List Event) : Nat := (es.map (Event.cycles h)).sum

/-- The panel samples EPD_MOSI on each rising edge of EPD_SCLK while it is selected (R121, R122): the bits it takes from a
wave, the EPD_SCLK level before the wave being `clk`. -/
def sampledBits : Level → List Lines → List Bool
  | _, [] => []
  | clk, l :: ls =>
    if clk = .low ∧ l.sclk = .high ∧ l.csN = .low then (l.mosi == .high) :: sampledBits l.sclk ls
    else sampledBits l.sclk ls

/-- The samples of `panel_busy` at the cycles of a wait, from cycle 0, as the answer a wait needs: the first cycle that
reads not busy (R129). -/
def firstIdle (samples : List Bool) : Option Nat := samples.findIdx? (· == false)

/-- One clock edge of the two-stage synchronizer (10_state.md R26). -/
def Panel.clk (pin : Bool) (p : Panel) : Panel := { p with pin := pin, sync1 := pin, sync2 := p.sync1 }

/-- The samples of `panel_busy` from cycle 0 of a wait that begins with the synchronizer as in `p`, one clock edge between
two samples, each at the next level of the list (10_state.md R26, 40_transport.md R129). -/
def busySamples (p : Panel) : List Bool → List Bool
  | [] => [p.sync2 == Config.busyActive]
  | pin :: pins => (p.sync2 == Config.busyActive) :: busySamples (p.clk pin) pins

/-- The serial shift register and its bit and byte counters (10_state.md R47). -/
structure Serial where
  /-- The bits of the current byte that are still to go, the next one on top. -/
  shift : Byte
  bits : Nat
  bytes : Nat
  deriving DecidableEq, Repr

/-- The serial registers while no byte is being clocked out: after reset, with no transaction, and in the parts of a
transaction before its first bit and after its last. The spec gives them no value there. DESIGN CHOICE: all zero, log entry
15. -/
def Serial.rest : Serial := { shift := 0#8, bits := 0, bytes := 0 }

/-- The shift register and the bit and byte counters `c` cycles into an event (10_state.md R47). The spec does not say which
way the counters count. DESIGN CHOICE: from 0 up, the bits of the current byte and the bytes already sent, log entry 15. -/
def Event.serial (h c : Nat) (e : Event) : Serial :=
  match e with
  | .xact _ bs =>
    if h ≤ c ∧ (c - h) / (16 * h) < bs.length then
      let k := (c - h) / (16 * h)
      let j := (c - h) % (16 * h) / (2 * h)
      { shift := bs.getD k 0#8 <<< j, bits := j, bytes := k }
    else Serial.rest
  | .drive | .release | .pulse _ _ | .wait _ _ | .cut _ _ => Serial.rest

/-- The wait counter `c` cycles into an event: the cycles of the current wait or pulse phase (10_state.md R47). In an event
that is neither, the spec gives it no value. DESIGN CHOICE: 0, log entry 15. -/
def Event.phase (c : Nat) (e : Event) : Nat :=
  match e with
  | .wait _ _ => c
  | .pulse lo _ => if c < lo * Config.msDiv then c else c - lo * Config.msDiv
  | .drive | .release | .xact _ _ | .cut _ _ => 0

end Sys2Proof.Machine
end

