-- ==== Sys2Proof/Machine/Controller.lean ====
section
/-! DEFINITION. The controller: it runs the latched command to its completion (30_encoding.md R103), and what a running
command has done so far (10_state.md R45, 60_exceptions.md R211). -/

namespace Sys2Proof.Machine

/-- The running command executed: a word that decodes to no instruction completes INVALID_COMMAND (30_encoding.md R94,
R103). -/
def runCommand (s : State) : Answer :=
  match decode s.snap.cmd with
  | .ok i => exec i s
  | .error _ => .next (s.finish .invalidCommand)

/-- The controller's turn: it completes the running command; without one it waits for a CMD write (70_reset_and_hazards.md
R242). -/
def controllerTurn (s : State) : Answer := if s.busy then runCommand s else .next s

/-- The state the running command will leave. -/
def State.completed (s : State) : State :=
  match runCommand s with
  | .next t => t
  | .fault _ => s
  | .refused _ => s

/-- The bus events of the running command, from its issue to its completion. -/
def State.runEvents (s : State) : List Event :=
  if s.busy then s.completed.bus.trace.drop s.bus.trace.length else []

/-- The half-period of the serial clock in cycles: `SNAP.SPI_DIV + 1` (40_transport.md R125). -/
def State.half (s : State) : Nat := s.snap.spiDiv.toNat + 1

/-- The bus event under way, if one is. -/
def State.eventNow (s : State) : Option Event := s.runEvents[s.pos.events]?

/-- The bus trace at this moment: "the output lines and the bus trace change as the pseudocode runs" (60_exceptions.md
R211). -/
def State.traceNow (s : State) : List Event := s.bus.trace ++ s.runEvents.take s.pos.events

/-- The lines at rest before the event under way. -/
def State.restNow (s : State) : Lines := restAfter s.bus.lines (s.runEvents.take s.pos.events)

/-- The levels on the output lines at this moment (10_state.md R25, 60_exceptions.md R211). -/
def State.linesNow (s : State) : Lines :=
  match s.eventNow with
  | some e => ((e.wave s.half s.restNow)[s.pos.cycle]?).getD s.restNow
  | none => s.restNow

/-- The wait counter at this moment (10_state.md R47). With no event under way (no command runs, as after reset, or none of
its events is left) the spec gives it no value. DESIGN CHOICE: 0, log entry 15. -/
def State.phaseCycles (s : State) : Nat := (s.eventNow.map (Event.phase s.pos.cycle)).getD 0

/-- The shift register and its counters at this moment (10_state.md R47). With no event under way they are at rest, by log
entry 15. -/
def State.serial (s : State) : Serial := (s.eventNow.map (Event.serial s.half s.pos.cycle)).getD Serial.rest

/-- Is this place inside the running command? An event takes at most its span (log entry 9). -/
def State.holds (s : State) (p : Pos) : Bool :=
  s.busy && decide (p.events ≤ s.runEvents.length) &&
    (p.cycle == 0 || (s.runEvents[p.events]?).any fun e => decide (p.cycle < e.span s.half))

/-- The controller moves on by whole events and then by cycles; a place outside the command is not reached. -/
def State.advance (events cycles : Nat) (s : State) : State :=
  let p : Pos :=
    if events = 0 then { events := s.pos.events, cycle := s.pos.cycle + cycles }
    else { events := s.pos.events + events, cycle := cycles }
  if s.holds p then { s with pos := p } else s

end Sys2Proof.Machine
end

