-- ==== Sys2Proof/Machine/HostBus.lean ====
section
/-! DEFINITION. The host's side: the register map and the aperture (10_state.md R31 to R44, 20_memory.md R60 to R73). -/

namespace Sys2Proof.Machine

/-! ### The aperture in the host's address space (20_memory.md R60) -/

/-- The host address of an aperture offset: `EPD_BASE + offset`. -/
def hostAddress (off : BitVec 14) : Nat := Config.epdBase + off.toNat

/-- The aperture offset of a host address, if the block answers it. -/
def apertureOffset (addr : Nat) : Option (BitVec 14) :=
  if Config.epdBase ≤ addr ∧ addr < Config.epdBase + 0x4000 then some (BitVec.ofNat 14 (addr - Config.epdBase)) else none

/-! ### The register map (10_state.md R31) -/

/-- The defined registers. -/
inductive Reg where
  | id | ctrl | status | cmd | arg0 | arg1 | arg2 | result | pcount | plimit
  | tRstLow | tRstSettle | tInit | tFull | tFast | tPartial | spiDiv
  deriving DecidableEq, Repr

/-- The offset of a register (10_state.md R31). -/
def Reg.offset : Reg → Nat
  | .id => 0x000
  | .ctrl => 0x004
  | .status => 0x008
  | .cmd => 0x00C
  | .arg0 => 0x010
  | .arg1 => 0x014
  | .arg2 => 0x018
  | .result => 0x01C
  | .pcount => 0x020
  | .plimit => 0x024
  | .tRstLow => 0x028
  | .tRstSettle => 0x02C
  | .tInit => 0x030
  | .tFull => 0x034
  | .tFast => 0x038
  | .tPartial => 0x03C
  | .spiDiv => 0x040

/-- Every defined register. -/
def Reg.all : List Reg :=
  [.id, .ctrl, .status, .cmd, .arg0, .arg1, .arg2, .result, .pcount, .plimit, .tRstLow, .tRstSettle, .tInit, .tFull,
   .tFast, .tPartial, .spiDiv]

/-- The register at an offset, if one is defined there (10_state.md R31, R32). -/
def regAt (off : Nat) : Option Reg := Reg.all.find? fun r => r.offset == off

/-- A 16-bit field read as a register: the reserved bits read 0. -/
def wide (h : Half) : Word := h.setWidth 32

/-- The value a read of a register returns (10_state.md R33 to R44). -/
def State.readReg (s : State) : Reg → Word
  | .id => 0x45504430#32
  | .ctrl => 0#30 ++ BitVec.ofBool s.regs.irqEn ++ BitVec.ofBool s.regs.orient
  | .status => s.statusWord
  | .cmd => s.regs.cmd
  | .arg0 => s.regs.arg0
  | .arg1 => s.regs.arg1
  | .arg2 => s.regs.arg2
  | .result => s.regs.result
  | .pcount => wide s.session.pcount
  | .plimit => wide s.regs.plimit
  | .tRstLow => wide s.regs.tRstLow
  | .tRstSettle => wide s.regs.tRstSettle
  | .tInit => wide s.regs.tInit
  | .tFull => wide s.regs.tFull
  | .tFast => wide s.regs.tFast
  | .tPartial => wide s.regs.tPartial
  | .spiDiv => s.regs.spiDiv.setWidth 32

/-- A hold time as it is stored: `max(w[15:0], 10)` (10_state.md R42). -/
def holdTime (w : Word) : Half := if lo16 w < 10#16 then 10#16 else lo16 w

/-- A host write to CMD: an issue, or OVERRUN while a command runs (30_encoding.md R101, R102). -/
def State.writeCmd (w : Word) (s : State) : State :=
  if s.busy then { s with flags := { s.flags with overrun := true } } else s.issue w

/-- A host write of `w` to a register (10_state.md R32 to R44). -/
def State.writeReg (w : Word) (s : State) : Reg → State
  | .id => s
  | .ctrl => { s with regs := { s.regs with orient := w.getLsbD 0, irqEn := w.getLsbD 1 } }
  | .status => { s with flags := s.flags.writeOneToClear w }
  | .cmd => s.writeCmd w
  | .arg0 => { s with regs := { s.regs with arg0 := w } }
  | .arg1 => { s with regs := { s.regs with arg1 := w } }
  | .arg2 => { s with regs := { s.regs with arg2 := w } }
  | .result => s
  | .pcount => s
  | .plimit => { s with regs := { s.regs with plimit := lo16 w } }
  | .tRstLow => { s with regs := { s.regs with tRstLow := holdTime w } }
  | .tRstSettle => { s with regs := { s.regs with tRstSettle := holdTime w } }
  | .tInit => { s with regs := { s.regs with tInit := lo16 w } }
  | .tFull => { s with regs := { s.regs with tFull := lo16 w } }
  | .tFast => { s with regs := { s.regs with tFast := lo16 w } }
  | .tPartial => { s with regs := { s.regs with tPartial := lo16 w } }
  | .spiDiv => { s with regs := { s.regs with spiDiv := w.extractLsb' 0 8 } }

/-- A read in the register region: an undefined offset reads 0 (10_state.md R32). -/
def State.readRegister (s : State) (off : Nat) : Word :=
  match regAt off with
  | some r => s.readReg r
  | none => 0#32

/-- A write in the register region: an undefined offset ignores it (10_state.md R32). -/
def State.writeRegister (off : Nat) (w : Word) (s : State) : State :=
  match regAt off with
  | some r => s.writeReg w r
  | none => s

/-! ### The memory regions (20_memory.md R61 to R70) -/

/-- The byte at an offset of the memory regions: tails and unmapped offsets read 0 (R64, R65, R67). -/
def State.regionByte (s : State) (a : Nat) : Byte := if isArray a then s.byteAt a else 0#8

/-- Does this instruction write FB (R70)? -/
def writesFb : Instr → Bool
  | .clear _ | .pixel _ | .line _ | .rect _ | .rectf _ | .circle _ | .circlef _ | .blit _ => true
  | .nop | .openBus | .closeBus | .rawReset | .rawCmd | .rawData | .rawWaitIdle | .initFull | .initFast | .commitBase
  | .displayFull | .displayFast | .displayPartial | .sleep | .getPixel => false

/-- Does this instruction write BASE (R70)? -/
def writesBase : Instr → Bool
  | .commitBase | .displayPartial => true
  | .nop | .openBus | .closeBus | .rawReset | .rawCmd | .rawData | .rawWaitIdle | .initFull | .initFast
  | .displayFull | .displayFast | .sleep | .clear _ | .pixel _ | .getPixel | .line _ | .rect _ | .rectf _ | .circle _
  | .circlef _ | .blit _ => false

/-- Does the running command write the array this offset lies in (R70)? -/
def State.racing (s : State) (a : Nat) : Bool :=
  s.busy &&
    match decode s.snap.cmd with
    | .ok i => (isFb a && writesFb i) || (isBase a && writesBase i)
    | .error _ => false

/-- The byte a host read sees: while the running command writes the array, the value at issue or the value at completion,
by the free choice number `d` (R70, log entry 4). -/
def State.seenByte (s : State) (d a : Nat) : Byte :=
  if s.racing a && Config.readsNew d then s.completed.regionByte a else s.regionByte a

/-- Bytes on the data lanes: byte `k` is data bits `8k+7:8k` (R63). -/
def joinBytes : List Byte → Word
  | [] => 0#32
  | b :: bs => (joinBytes bs <<< 8) ||| b.setWidth 32

/-- Byte `k` of a value on the data lanes (R63). -/
def laneByte (v : Word) (k : Nat) : Byte := v.extractLsb' (8 * k) 8

/-- The value a read of `n` bytes of the memory regions returns (R63). The spec names only the data bits `8n-1:0`. DESIGN
CHOICE: the bits above are 0, log entry 25. -/
def State.readBytes (s : State) (off n : Nat) : Word :=
  joinBytes ((List.range n).map fun k => s.seenByte (s.readDraws + k) (off + k))

/-- Would this byte of a write be stored: does it lie in FB or GLYPH (R63, R66)? BASE and the tails ignore writes (R64, R65,
R67). -/
def isStored (a : Nat) : Bool := isFb a || isGlyph a

/-- The bytes of a write of `n` bytes stored where its region stores them (R63 to R67). -/
def State.storeBytes (off n : Nat) (v : Word) (s : State) : State :=
  (List.range n).foldl (fun t k => if isStored (off + k) then t.setByte (off + k) (laneByte v k) else t) s

/-- A write of `n` bytes to the memory regions: while a command runs, one that would store into FB or GLYPH is dropped
whole (R69). -/
def State.writeBytes (off n : Nat) (v : Word) (s : State) : State :=
  if s.busy && (List.range n).any (fun k => isStored (off + k)) then
    { s with flags := { s.flags with dropped := true } }
  else s.storeBytes off n v

/-! ### One host access -/

/-- Is an access legal: 32-bit and aligned in the register region (R62); 1, 2 or 4 bytes and aligned in the memory regions
(R63, R67)? -/
def legalAccess (off width : Nat) : Bool :=
  if off < 0x1000 then width == 4 && off % 4 == 0
  else (width == 1 || width == 2 || width == 4) && off % width == 0

/-- A host read. While `rst_n` is 0 it returns 0 (70_reset_and_hazards.md R240). A bus error changes nothing (R68). -/
def State.hostRead (off width : Nat) (s : State) : State :=
  if s.inReset then { s with resp := .data 0#32 }
  else if legalAccess off width then
    if off < 0x1000 then { s with resp := .data (s.readRegister off) }
    else { s with resp := .data (s.readBytes off width), readDraws := s.readDraws + width }
  else { s with resp := .busError }

/-- A host write. While `rst_n` is 0 it is ignored (70_reset_and_hazards.md R240). A bus error changes nothing (R68). -/
def State.hostWrite (off width : Nat) (v : Word) (s : State) : State :=
  if s.inReset then { s with resp := .done }
  else if legalAccess off width then
    if off < 0x1000 then { s.writeRegister off v with resp := .done }
    else { s.writeBytes off width v with resp := .done }
  else { s with resp := .busError }

/-- A host access (20_memory.md R73). -/
def State.hostAccess (a : Access) (s : State) : State :=
  match a with
  | .read off width => s.hostRead off.toNat width
  | .write off width v => s.hostWrite off.toNat width v

end Sys2Proof.Machine
end

