-- ==== Sys2Proof/Machine/Reset.lean ====
section
/-! DEFINITION. Block reset (70_reset_and_hazards.md R240 to R242) and the service of one input of the outside world. -/

namespace Sys2Proof.Machine

/-- What the trace shows of a transaction that block reset cuts `c` cycles after it began: nothing before chip-select was
asserted, else `Cut(dc, prefix)` with the bytes whose eight bits were all out (R241). The chip-select high time at the end of
a transaction, with the bytes out and the `Xact` not yet emitted, counts as cut too, with all its bytes: the spec leaves that
phase open, DESIGN CHOICE, log entry 9. -/
def cutOf (h c : Nat) (e : Event) : List Event :=
  match e with
  | .xact dc bs => if h ≤ c then [.cut dc (bs.take ((c - h) / (16 * h)))] else []
  | .drive | .release | .pulse _ _ | .wait _ _ | .cut _ _ => []

/-- What the trace shows of the event that block reset cuts (R241): a cut pulse and a cut wait leave nothing. -/
def State.cutNow (s : State) : List Event := (s.eventNow.map (cutOf s.half s.pos.cycle)).getD []

/-- Are the lines driven after these events (10_state.md R49: "if the lines were driven")? -/
def drivenAfter (driven : Bool) (es : List Event) : Bool :=
  es.foldl (fun d e => match e with | .drive => true | .release => false | .xact _ _ | .pulse _ _ | .wait _ _ | .cut _ _ => d)
    driven

/-- Are the lines driven at this moment? -/
def State.drivenNow (s : State) : Bool := drivenAfter s.session.xportOpen (s.runEvents.take s.pos.events)

/-- The waits the running command has begun: each has had its draw (40_transport.md R129), so block reset leaves none of
their answers for a later wait. -/
def State.waitsBegun (s : State) : Nat :=
  (s.runEvents.take (s.pos.events + 1)).countP fun e =>
    match e with | .wait _ _ => true | .drive | .release | .xact _ _ | .pulse _ _ | .cut _ _ => false

/-- Block reset, `rst_n` now 0 (R240, R241): every piece of state takes its reset value. The trace is emptied (10_state.md
R49) and then shows the cut and `Release`; what it held goes to `earlier` (log entry 8). The RAM holds new free bytes (log
entry 3); both stages of the synchronizer take the level of the pin (DESIGN CHOICE, log entry 5). The pending inputs and the host's last answer belong to the outside
world, and so do the panel's answers to the waits not yet begun. -/
def State.blockReset (s : State) : State :=
  { State.reset with
    bus :=
      { lines := Lines.allReleased
        trace := s.cutNow ++ if s.drivenNow then [.release] else [] }
    panel := { s.panel.afterWaits s.waitsBegun with sync1 := s.panel.pin, sync2 := s.panel.pin }
    inReset := true
    inputs := s.inputs
    resp := s.resp
    earlier := s.earlier ++ s.traceNow
    ramEpoch := s.ramEpoch + 1
    readDraws := s.readDraws }

/-- The host's WAIT loop (30_encoding.md R106): while BUSY is 1 the loop goes on and the controller completes the command;
then STATUS is read with BUSY = 0. -/
def State.waitLoop (s : State) : Answer :=
  if s.busy then runCommand { s with inputs := .wait :: s.inputs } else .next (s.hostRead 0x008 4)

/-- One input of the outside world, taken from the queue. The spec does not say whether the busy synchronizer (10_state.md R26)
is clocked while `rst_n` is 0. DESIGN CHOICE: a `clk` input shifts its stages then too, log entry 5. -/
def serve (i : Input) (s : State) : Answer :=
  match i with
  | .access a => .next (s.hostAccess a)
  | .wait => s.waitLoop
  | .advance events cycles => .next (s.advance events cycles)
  | .complete => controllerTurn s
  | .clk pin => .next { s with panel := s.panel.clk pin }
  | .resetAssert => .next s.blockReset
  | .resetRelease => .next { s with inReset := false }

end Sys2Proof.Machine
end

