-- ==== Sys2Proof/Machine/Step.lean ====
section
/-! DEFINITION. One step: the oldest pending input is served; with none pending, the controller has its turn. -/

namespace Sys2Proof.Machine

/-- One step of the block with its surroundings (00_scope.md R6; log entries 1 and 14). -/
def step (s : State) : Host.Outcome State Fault Refusal :=
  match s.inputs with
  | [] => controllerTurn s
  | i :: rest => serve i { s with inputs := rest }

/-- The block fetches nothing (20_memory.md R75): a command comes by the host's write to CMD. This is the state right after
an accepted write of the word (30_encoding.md R101), with no input pending, so that the next step runs it (log entry 13). -/
def State.withFetchWord (s : State) (nbits w : Nat) : State :=
  { s.issue (BitVec.ofNat 32 (w % 2 ^ nbits)) with inputs := [], inReset := false }

end Sys2Proof.Machine
end

