-- ==== Sys2Proof/Machine/Assembler.lean ====
section
/-! DEFINITION. The assembler: the host accesses a statement of a host program stands for (30_encoding.md R105 to R107). -/

namespace Sys2Proof

open Sys2Proof.Machine

/-- `ARGk = {y[15:0], x[15:0]}` (R105). -/
def packPair (x y : Int) : Word := BitVec.ofInt 16 y ++ BitVec.ofInt 16 x

/-- The instruction of a command statement. -/
def CmdStmt.instr : CmdStmt → Instr
  | .nop => .nop
  | .openBus => .openBus
  | .closeBus => .closeBus
  | .rawReset => .rawReset
  | .rawCmd _ => .rawCmd
  | .rawData _ => .rawData
  | .rawWaitIdle _ => .rawWaitIdle
  | .initFull => .initFull
  | .initFast => .initFast
  | .commitBase => .commitBase
  | .displayFull => .displayFull
  | .displayFast => .displayFast
  | .displayPartial _ _ _ _ => .displayPartial
  | .sleep => .sleep
  | .clear c => .clear c
  | .pixel c _ _ => .pixel c
  | .getPixel _ _ => .getPixel
  | .line c _ _ _ _ => .line c
  | .rect c _ _ _ _ => .rect c
  | .rectf c _ _ _ _ => .rectf c
  | .circle c _ _ _ => .circle c
  | .circlef c _ _ _ => .circlef c
  | .blit c _ _ _ _ _ => .blit c

/-- The ARG words a command statement writes, from ARG0 on: those the instruction reads (R105). -/
def CmdStmt.args : CmdStmt → List Word
  | .nop | .openBus | .closeBus | .rawReset | .initFull | .initFast | .commitBase | .displayFull | .displayFast
  | .sleep | .clear _ => []
  | .rawCmd b => [BitVec.ofInt 32 b]
  | .rawData bs => [joinBytes (bs.map (BitVec.ofInt 8)), BitVec.ofNat 32 bs.length]
  | .rawWaitIdle t => [BitVec.ofInt 32 t]
  | .displayPartial x y w h => [packPair x y, packPair w h]
  | .pixel _ x y => [packPair x y]
  | .getPixel x y => [packPair x y]
  | .line _ x0 y0 x1 y1 => [packPair x0 y0, packPair x1 y1]
  | .rect _ x0 y0 x1 y1 => [packPair x0 y0, packPair x1 y1]
  | .rectf _ x0 y0 x1 y1 => [packPair x0 y0, packPair x1 y1]
  | .circle _ cx cy r => [packPair cx cy, BitVec.ofInt 32 r]
  | .circlef _ cx cy r => [packPair cx cy, BitVec.ofInt 32 r]
  | .blit _ x y w h asc => [packPair x y, packPair w h, BitVec.ofInt 32 asc]

/-- A 32-bit host write. -/
def write32 (off : BitVec 14) (v : Word) : Input := .access (.write off 4 v)

/-- The host writes of a command statement: ARG0, ARG1, ARG2 as far as they are read, then CMD (R105). -/
def CmdStmt.writes (c : CmdStmt) : List Input :=
  List.zipWith write32 [0x010#14, 0x014#14, 0x018#14] c.args ++ [write32 0x00C#14 (encode c.instr)]

/-- The inputs a statement stands for (R105, R106). -/
def Stmt.inputs : Stmt → List Input
  | .cmd c => c.writes
  | .w32 off v => [write32 (BitVec.ofInt 14 off) (BitVec.ofInt 32 v)]
  | .r32 off => [.access (.read (BitVec.ofInt 14 off) 4)]
  | .w8 off v => [.access (.write (BitVec.ofInt 14 off) 1 (BitVec.ofInt 32 v))]
  | .wait => [.wait]
  | .hline c x0 x1 y => CmdStmt.writes (.line c x0 y x1 y)
  | .vline c x y0 y1 => CmdStmt.writes (.line c x y0 x y1)
  | .fillW => CmdStmt.writes (.clear true)
  | .fillB => CmdStmt.writes (.clear false)
  | .ack => [write32 0x008#14 0x0000001E#32]
  | .doCmd c => c.writes ++ [.wait]

/-- A statement assembled, or refused by its checks (R105, log entry 21). -/
def assemble (st : Stmt) : Option (List Input) := if st.wf then some st.inputs else none

end Sys2Proof
end

