-- ==== Sys2Proof/Safety.lean ====
section
/-! DEFINITION. What claims speak of: what a completion leaves (60_exceptions.md R211), the legal states of the block
(10_state.md R23, R25, R42) and the host's duties (70_reset_and_hazards.md R244, R246, R247). -/

namespace Sys2Proof.Machine

/-! ### Completion -/

/-- `t` is the state a command completed with `code` leaves after `s` (60_exceptions.md R211), `f` being the flags before
the completion: the completion fields are written, SEQ is Idle, and nothing that no command touches is changed. -/
structure Completes (code : Code) (f : Flags) (s t : State) : Prop where
  flags : t.flags = f.complete code
  seq : t.seq = .idle
  pos : t.pos = ⟨0, 0⟩
  snap : t.snap = s.snap
  inReset : t.inReset = s.inReset
  inputs : t.inputs = s.inputs
  resp : t.resp = s.resp
  ramEpoch : t.ramEpoch = s.ramEpoch
  readDraws : t.readDraws = s.readDraws

/-- Every byte of FB, BASE and GLYPH reads as before. -/
def SameBytes (s t : State) : Prop := ∀ a, t.byteAt a = s.byteAt a

/-- Every byte outside FB reads as before. -/
def SameBytesOutsideFb (s t : State) : Prop := ∀ a, isFb a = false → t.byteAt a = s.byteAt a

/-- The padding bits of FB (20_memory.md R78): bits 5 to 0 of byte 15 of each row read as before. -/
def SamePadding (s t : State) : Prop :=
  ∀ y j, y < 250 → j < 6 → (t.fb (16 * y + 15)).getLsbD j = (s.fb (16 * y + 15)).getLsbD j

/-- `t` is `s` with the points of `inShape` drawn in one colour (42_framebuffer.md R182): a point of the frame in the shape
has the colour, every other point of the frame, every padding bit and every byte outside FB is as before. -/
structure Draws (white : Bool) (inShape : Point → Prop) (s t : State) : Prop where
  inside : ∀ p, s.sees p = true → inShape p → t.pixelBit p = white
  outside : ∀ p, s.sees p = true → ¬ inShape p → t.pixelBit p = s.pixelBit p
  padding : SamePadding s t
  others : SameBytesOutsideFb s t

/-- What a drawing command leaves alone beside the bytes of FB (42_framebuffer.md R180). -/
structure DrawFrame (s t : State) : Prop where
  session : t.session = s.session
  bus : t.bus = s.bus
  regs : t.regs = s.regs
  panel : t.panel = s.panel

/-! ### The point sets of the drawing rules, as the rules write them (42_framebuffer.md R184 to R191) -/

/-- One turn of the loop of R186, assignment by assignment: `q` is `(x0, y0, err)`. -/
def lineTurn (dx dy sx sy : Int) (q : Int × Int × Int) : Int × Int × Int :=
  let e2 := 2 * q.2.2
  let x := if e2 ≥ dy then (q.1 + sx, q.2.2 + dy) else (q.1, q.2.2)
  let y := if e2 ≤ dx then (q.2.1 + sy, x.2 + dx) else (q.2.1, x.2)
  (x.1, y.1, y.2)

/-- The loop variables of R186 after `k` turns from `a` towards `b`. -/
def lineAt (a b : Point) : Nat → Int × Int × Int
  | 0 => (a.1, a.2, |b.1 - a.1| + -|b.2 - a.2|)
  | k + 1 => lineTurn |b.1 - a.1| (-|b.2 - a.2|) (if a.1 < b.1 then 1 else -1) (if a.2 < b.2 then 1 else -1) (lineAt a b k)

/-- `p` is plotted in turn `k` of the loop of R186 from `a` to `b`, no turn before having reached `b`. -/
def InWalk (a b p : Point) : Prop :=
  ∃ k, (∀ j < k, ((lineAt a b j).1, (lineAt a b j).2.1) ≠ b) ∧ p = ((lineAt a b k).1, (lineAt a b k).2.1)

/-- The set P of LINE (R186): the endpoints ordered first. -/
def InLine (a b p : Point) : Prop :=
  if a.1 > b.1 ∨ (a.1 = b.1 ∧ a.2 > b.2) then InWalk b a p else InWalk a b p

/-- The set P of RECTF (R188). -/
def InRectf (a b p : Point) : Prop :=
  min a.1 b.1 ≤ p.1 ∧ p.1 ≤ max a.1 b.1 ∧ min a.2 b.2 ≤ p.2 ∧ p.2 ≤ max a.2 b.2

/-- The set P of RECT (R187). -/
def InRect (a b p : Point) : Prop :=
  InRectf a b p ∧ (p.1 = min a.1 b.1 ∨ p.1 = max a.1 b.1 ∨ p.2 = min a.2 b.2 ∨ p.2 = max a.2 b.2)

/-- One turn of the loop of R189, assignment by assignment: `q` is `(x, y, d)`. -/
def circleTurn (q : Int × Int × Int) : Int × Int × Int :=
  let y := q.2.1 + 1
  if q.2.2 < 0 then (q.1, y, q.2.2 + 2 * y + 1)
  else
    let x := q.1 - 1
    (x, y, q.2.2 + 2 * (y - x) + 1)

/-- The loop variables of R189 after `k` turns. -/
def circleAt (r : Nat) : Nat → Int × Int × Int
  | 0 => (r, 0, 1 - r)
  | k + 1 => circleTurn (circleAt r k)

/-- Turn `k` of the loop `while x >= y` of R189 runs, with these `x` and `y`. -/
def CircleTurn (r : Nat) (x y : Int) : Prop :=
  ∃ k, (∀ j ≤ k, (circleAt r j).1 ≥ (circleAt r j).2.1) ∧ x = (circleAt r k).1 ∧ y = (circleAt r k).2.1

/-- The set P of CIRCLE (R189): the eight points of each turn. -/
def InCircle (c : Point) (r : Nat) (p : Point) : Prop :=
  ∃ x y, CircleTurn r x y ∧ p ∈
    [ (c.1 + x, c.2 + y), (c.1 - x, c.2 + y), (c.1 + x, c.2 - y), (c.1 - x, c.2 - y),
      (c.1 + y, c.2 + x), (c.1 - y, c.2 + x), (c.1 + y, c.2 - x), (c.1 - y, c.2 - x) ]

/-- The set P of CIRCLEF (R190): the four spans of each turn. -/
def InCirclef (c : Point) (r : Nat) (p : Point) : Prop :=
  ∃ x y, CircleTurn r x y ∧ ∃ span ∈
    [ (c.1 - x, c.1 + x, c.2 + y), (c.1 - x, c.1 + x, c.2 - y), (c.1 - y, c.1 + y, c.2 + x), (c.1 - y, c.1 + y, c.2 - x) ],
    span.1 ≤ p.1 ∧ p.1 ≤ span.2.1 ∧ p.2 = span.2.2

/-- The set P of BLIT (R191): the ink bits of the glyph, `x` its left column and `top` its first row. -/
def InBlit (s : State) (x top : Int) (wd ht : Nat) (p : Point) : Prop :=
  ∃ i j : Nat, i < wd ∧ j < ht ∧
    (s.glyph (j * ((wd + 7) / 8) + i / 8) >>> (7 - i % 8)).getLsbD 0 = true ∧ p = (x + (i : Int), top + (j : Int))

/-- The first operand point (30_encoding.md R96), the second one and the unsigned fields (R97, R98), as the rules read
them. -/
def State.pt0 (s : State) : Point := ((s.snap.arg0.extractLsb' 0 16).toInt, (s.snap.arg0.extractLsb' 16 16).toInt)
def State.pt1 (s : State) : Point := ((s.snap.arg1.extractLsb' 0 16).toInt, (s.snap.arg1.extractLsb' 16 16).toInt)
def State.lowArg1 (s : State) : Nat := (s.snap.arg1.extractLsb' 0 16).toNat
def State.highArg1 (s : State) : Nat := (s.snap.arg1.extractLsb' 16 16).toNat
def State.lowArg2 (s : State) : Nat := (s.snap.arg2.extractLsb' 0 16).toNat

/-- The set P of a drawing instruction (R182); for one that has none, nothing. -/
def shapeOf (i : Instr) (s : State) (p : Point) : Prop :=
  match i with
  | .pixel _ => p = s.pt0
  | .line _ => InLine s.pt0 s.pt1 p
  | .rect _ => InRect s.pt0 s.pt1 p
  | .rectf _ => InRectf s.pt0 s.pt1 p
  | .circle _ => InCircle s.pt0 s.lowArg1 p
  | .circlef _ => InCirclef s.pt0 s.lowArg1 p
  | .blit _ => InBlit s s.pt0.1 (s.pt0.2 - s.lowArg2) s.lowArg1 s.highArg1 p
  | .nop | .openBus | .closeBus | .rawReset | .rawCmd | .rawData | .rawWaitIdle | .initFull | .initFast | .commitBase
  | .displayFull | .displayFast | .displayPartial | .sleep | .clear _ | .getPixel => False

/-- The instructions whose effect is a set of plots (R182). -/
def isShape : Instr → Bool
  | .pixel _ | .line _ | .rect _ | .rectf _ | .circle _ | .circlef _ | .blit _ => true
  | .nop | .openBus | .closeBus | .rawReset | .rawCmd | .rawData | .rawWaitIdle | .initFull | .initFast | .commitBase
  | .displayFull | .displayFast | .displayPartial | .sleep | .clear _ | .getPixel => false

/-! ### The tables of the rules -/

/-- The register map (10_state.md R31): at each offset the word the register there holds (R33 to R44), out of the fields of
the state. -/
def State.registerWords (s : State) : List (BitVec 14 × Word) :=
  [(0x000#14, 0x45504430#32), (0x004#14, 0#30 ++ BitVec.ofBool s.regs.irqEn ++ BitVec.ofBool s.regs.orient),
   (0x008#14, s.statusWord), (0x00C#14, s.regs.cmd), (0x010#14, s.regs.arg0), (0x014#14, s.regs.arg1),
   (0x018#14, s.regs.arg2), (0x01C#14, s.regs.result), (0x020#14, s.session.pcount.setWidth 32),
   (0x024#14, s.regs.plimit.setWidth 32), (0x028#14, s.regs.tRstLow.setWidth 32),
   (0x02C#14, s.regs.tRstSettle.setWidth 32), (0x030#14, s.regs.tInit.setWidth 32), (0x034#14, s.regs.tFull.setWidth 32),
   (0x038#14, s.regs.tFast.setWidth 32), (0x03C#14, s.regs.tPartial.setWidth 32), (0x040#14, s.regs.spiDiv.setWidth 32)]

/-- The registers a host write of `w` leaves at each offset where it stores (10_state.md R34, R38, R41 to R44); the writes to
STATUS and CMD have rules of their own (R36, R37). -/
def State.registerStores (s : State) (w : Word) : List (BitVec 14 × Regs) :=
  [(0x004#14, { s.regs with orient := w.getLsbD 0, irqEn := w.getLsbD 1 }),
   (0x010#14, { s.regs with arg0 := w }), (0x014#14, { s.regs with arg1 := w }), (0x018#14, { s.regs with arg2 := w }),
   (0x024#14, { s.regs with plimit := w.extractLsb' 0 16 }),
   (0x028#14, { s.regs with tRstLow := BitVec.ofNat 16 (max (w.extractLsb' 0 16).toNat 10) }),
   (0x02C#14, { s.regs with tRstSettle := BitVec.ofNat 16 (max (w.extractLsb' 0 16).toNat 10) }),
   (0x030#14, { s.regs with tInit := w.extractLsb' 0 16 }), (0x034#14, { s.regs with tFull := w.extractLsb' 0 16 }),
   (0x038#14, { s.regs with tFast := w.extractLsb' 0 16 }), (0x03C#14, { s.regs with tPartial := w.extractLsb' 0 16 }),
   (0x040#14, { s.regs with spiDiv := w.extractLsb' 0 8 })]

/-- The transition table (41_refresh_fsm.md R150): the FSM state an OK completion leaves, none for INVALID_TRANSITION. CLOSE
has its row for an open transport and the row of NOP for a closed one. -/
def fsmTable (i : Instr) (xportOpen : Bool) (f : Fsm) : Option Fsm :=
  match i, f with
  | .initFull, .cold | .initFull, .asleep | .initFull, .fault => some .readyFull
  | .initFull, _ => none
  | .initFast, .cold | .initFast, .asleep | .initFast, .fault => some .readyFast
  | .initFast, _ => none
  | .commitBase, .readyFull => some .partialActive
  | .commitBase, _ => none
  | .displayFull, .readyFull => some .readyFull
  | .displayFull, _ => none
  | .displayFast, .readyFast => some .readyFast
  | .displayFast, _ => none
  | .displayPartial, .partialActive => some .partialActive
  | .displayPartial, _ => none
  | .sleep, .readyFull | .sleep, .readyFast | .sleep, .partialActive => some .asleep
  | .sleep, _ => none
  | .rawReset, .fault => some .fault
  | .rawReset, _ => some .cold
  | .rawCmd, .cold | .rawData, .cold => some .cold
  | .rawCmd, _ | .rawData, _ => none
  | .closeBus, .readyFull | .closeBus, .readyFast | .closeBus, .partialActive => some (if xportOpen then .asleep else f)
  | .closeBus, f | .rawWaitIdle, f | .nop, f | .openBus, f | .clear _, f | .pixel _, f | .getPixel, f | .line _, f
  | .rect _, f | .rectf _, f | .circle _, f | .circlef _, f | .blit _, f => some f

/-- The rows marked (T) in R150: the commands with a wait. -/
def hasWait : Instr → Bool
  | .initFull | .initFast | .displayFull | .displayFast | .displayPartial | .rawWaitIdle => true
  | .nop | .openBus | .closeBus | .rawReset | .rawCmd | .rawData | .commitBase | .sleep | .clear _ | .pixel _ | .getPixel
  | .line _ | .rect _ | .rectf _ | .circle _ | .circlef _ | .blit _ => false

/-- The commands that check XPORT_OPEN (40_transport.md R130). -/
def usesBus : Instr → Bool
  | .rawReset | .rawCmd | .rawData | .rawWaitIdle | .initFull | .initFast | .commitBase | .displayFull | .displayFast
  | .displayPartial | .sleep => true
  | .nop | .openBus | .closeBus | .clear _ | .pixel _ | .getPixel | .line _ | .rect _ | .rectf _ | .circle _ | .circlef _
  | .blit _ => false

/-- Validity of a DISPLAY_PARTIAL window (41_refresh_fsm.md R163). -/
def ValidWindow (x y : Int) (wd ht : Nat) : Prop :=
  x ≥ 0 ∧ y ≥ 0 ∧ x % 8 = 0 ∧ wd ≥ 1 ∧ ht ≥ 1 ∧ x + wd ≤ 122 ∧ y + ht ≤ 250 ∧ (wd % 8 = 0 ∨ x + wd = 122)

/-- Does the operand validation of the command fail (30_encoding.md R100)? -/
def BadArgument (i : Instr) (s : State) : Prop :=
  match i with
  | .rawData => s.lowArg1 < 1 ∨ s.lowArg1 > 4
  | .displayPartial => ¬ ValidWindow s.pt0.1 s.pt0.2 s.lowArg1 s.highArg1
  | .blit _ => (s.lowArg1 + 7) / 8 * s.highArg1 > 512
  | .nop | .openBus | .closeBus | .rawReset | .rawCmd | .rawWaitIdle | .initFull | .initFast | .commitBase
  | .displayFull | .displayFast | .sleep | .clear _ | .pixel _ | .getPixel | .line _ | .rect _ | .rectf _ | .circle _
  | .circlef _ => False

/-- Is the partial-refresh limit reached (41_refresh_fsm.md R165)? -/
def AtLimit (i : Instr) (s : State) : Prop :=
  i = .displayPartial ∧ s.snap.plimit ≠ 0#16 ∧ s.session.pcount.toNat ≥ s.snap.plimit.toNat

/-- The code of the first check that fails, in the order of 60_exceptions.md R212; OK if none does. -/
inductive FirstCheck (i : Instr) (s : State) : Code → Prop where
  | resourceUnavailable : i = .openBus → s.session.xportOpen = true → FirstCheck i s .resourceUnavailable
  | invalidTransition : fsmTable i s.session.xportOpen s.session.fsm = none → FirstCheck i s .invalidTransition
  | notOpen : fsmTable i s.session.xportOpen s.session.fsm ≠ none → usesBus i = true → s.session.xportOpen = false →
      FirstCheck i s .notOpen
  | invalidArgument : fsmTable i s.session.xportOpen s.session.fsm ≠ none →
      (usesBus i = true → s.session.xportOpen = true) → BadArgument i s → FirstCheck i s .invalidArgument
  | partialLimit : fsmTable i s.session.xportOpen s.session.fsm ≠ none →
      (usesBus i = true → s.session.xportOpen = true) → ¬ BadArgument i s → AtLimit i s → FirstCheck i s .partialLimit
  | passed : fsmTable i s.session.xportOpen s.session.fsm ≠ none →
      (usesBus i = true → s.session.xportOpen = true) → ¬ BadArgument i s → ¬ AtLimit i s →
      (i = .openBus → s.session.xportOpen = false) → FirstCheck i s .ok

/-! ### The panel traffic of the refresh commands, as the rules write it (41_refresh_fsm.md R153 to R164) -/

/-- `Issue(c, d)` as the trace shows it (40_transport.md R127). -/
def issued (c : Byte) (d : List Byte) : List Event := [.xact false [c]] ++ if d = [] then [] else [.xact true d]

/-- The events of `InitSeq(lut)` (41_refresh_fsm.md R157) for the full RAM window (R153). -/
def initEvents (lut : List Byte) : List Event :=
  issued (Config.pcmd .doc) (Config.pcmdData .doc) ++ issued (Config.pcmd .dem) (Config.pcmdData .dem) ++
  [.xact false [Config.pcmd .rxw], .xact true [0#8, 15#8], .xact false [Config.pcmd .ryw],
   .xact true [0#8, 0#8, 249#8, 0#8]] ++
  issued (Config.pcmd .bwf) (Config.pcmdData .bwf) ++ issued (Config.pcmd .duc) (Config.pcmdData .duc) ++
  issued (Config.pcmd .lut) lut

/-- The events of `WriteBank` of the full frame (R154, R155): FB[0] to FB[3999] in index order (20_memory.md R85). -/
def fullBankEvents (c : Byte) (s : State) : List Event :=
  [.xact false [Config.pcmd .rxw], .xact true [0#8, 15#8], .xact false [Config.pcmd .ryw],
   .xact true [0#8, 0#8, 249#8, 0#8], .xact false [Config.pcmd .rxc], .xact true [0#8],
   .xact false [Config.pcmd .ryc], .xact true [0#8, 0#8], .xact false [c],
   .xact true ((List.range 4000).map s.fb)]

/-- A native byte index lies in the byte columns and rows of a DISPLAY_PARTIAL window (R163, R169). -/
def inWindow (x y : Int) (wd ht : Nat) (i : Nat) : Prop :=
  x / 8 ≤ (i % 16 : Nat) ∧ (i % 16 : Nat) ≤ (x + wd - 1) / 8 ∧ y ≤ (i / 16 : Nat) ∧ (i / 16 : Nat) ≤ y + ht - 1

/-- The window's bytes of FB, rows outer and byte columns inner (R155). -/
def windowBytes (X Y : Int) (Wd Ht : Nat) (s : State) : List Byte :=
  (List.range Ht).flatMap fun j => (List.range ((Wd + 7) / 8)).map fun k =>
    s.fb (16 * (Y.toNat + j) + (X.toNat / 8 + k))

/-- The low and the high byte of a row number, as the panel takes it (R153). -/
def rowBytes (y : Int) : List Byte := [BitVec.ofInt 8 (y % 256), BitVec.ofInt 8 (y / 256)]

/-- The events DISPLAY_PARTIAL sends before its wait (R153 to R156, R164). -/
def partialEvents (X Y : Int) (Wd Ht : Nat) (s : State) : List Event :=
  [Event.xact false [Config.pcmd .rxw], Event.xact true [BitVec.ofInt 8 (X / 8), BitVec.ofInt 8 ((X + Wd - 1) / 8)],
   Event.xact false [Config.pcmd .ryw], Event.xact true (rowBytes Y ++ rowBytes (Y + Ht - 1)),
   Event.xact false [Config.pcmd .rxc], Event.xact true [BitVec.ofInt 8 (X / 8)],
   Event.xact false [Config.pcmd .ryc], Event.xact true (rowBytes Y),
   Event.xact false [Config.pcmd .wrn], Event.xact true (windowBytes X Y Wd Ht s)] ++
  issued (Config.pcmd .upd) (Config.pcmdData .updPartial) ++ [Event.xact false [Config.pcmd .act]]

/-- The three kinds of event 70_reset_and_hazards.md R255 counts. -/
def Event.isXact : Event → Bool
  | .xact _ _ => true
  | .drive | .release | .pulse _ _ | .wait _ _ | .cut _ _ => false
def Event.isPulse : Event → Bool
  | .pulse _ _ => true
  | .drive | .release | .xact _ _ | .wait _ _ | .cut _ _ => false
def Event.isWait : Event → Bool
  | .wait _ _ => true
  | .drive | .release | .xact _ _ | .pulse _ _ | .cut _ _ => false

/-! ### Drawing a bitmap point by point (42_framebuffer.md R193), and the operands of a statement (30_encoding.md R105) -/

/-- The state with the point `p` in the snapshot's ARG0, `{y[15:0], x[15:0]}`. -/
def State.atPoint (p : Point) (s : State) : State := { s with snap := { s.snap with arg0 := packPair p.1 p.2 } }

/-- One PIXEL a point of the list, with the colour the bitmap gives the point. -/
def drawBitmap (B : Point → Bool) : List Point → State → Answer
  | [], s => .next s
  | p :: ps, s =>
    match exec (.pixel (B p)) (s.atPoint p) with
    | .next t => drawBitmap B ps t
    | .fault f => .fault f
    | .refused r => .refused r

/-- The snapshot of `t` holds the operands of the statement, as the command reads them (R96 to R100). -/
def State.holdsOperands (t : State) (c : CmdStmt) : Prop :=
  match c with
  | .nop | .openBus | .closeBus | .rawReset | .initFull | .initFast | .commitBase | .displayFull | .displayFast
  | .sleep | .clear _ => True
  | .rawCmd b => (t.snap.arg0.extractLsb' 0 8).toNat = b
  | .rawData bs => t.lowArg1 = bs.length ∧ ∀ k < bs.length, some ((t.snap.arg0.extractLsb' (8 * k) 8).toNat : Int) = bs[k]?
  | .rawWaitIdle T => (t.snap.arg0.extractLsb' 0 16).toNat = T
  | .displayPartial x y w h => t.pt0 = (x, y) ∧ t.lowArg1 = w ∧ t.highArg1 = h
  | .pixel _ x y | .getPixel x y => t.pt0 = (x, y)
  | .line _ x0 y0 x1 y1 | .rect _ x0 y0 x1 y1 | .rectf _ x0 y0 x1 y1 => t.pt0 = (x0, y0) ∧ t.pt1 = (x1, y1)
  | .circle _ cx cy r | .circlef _ cx cy r => t.pt0 = (cx, cy) ∧ t.lowArg1 = r
  | .blit _ x y w h asc => t.pt0 = (x, y) ∧ t.lowArg1 = w ∧ t.highArg1 = h ∧ t.lowArg2 = asc

/-! ### Legal states -/

/-- Invariants I-a, I-b and I-c (10_state.md R23). -/
structure Session.legal (x : Session) : Prop where
  baseValid : x.baseValid = true ↔ x.fsm = .partialActive
  closed : x.xportOpen = false → x.fsm = .cold ∨ x.fsm = .asleep ∨ x.fsm = .fault
  pcount : x.fsm ≠ .partialActive → x.pcount = 0#16

/-- The lines between transactions (10_state.md R25): all released while the transport is closed; at their idle levels,
with EPD_DC driven, while it is open. -/
def State.linesLegal (s : State) : Prop :=
  if s.session.xportOpen then
    s.bus.lines = { Lines.atIdle with dc := s.bus.lines.dc } ∧ s.bus.lines.dc ≠ .released
  else s.bus.lines = Lines.allReleased

/-- The hold times of the registers and of the snapshot are never below 10 ms (10_state.md R42). -/
def State.holdsLegal (s : State) : Prop :=
  10#16 ≤ s.regs.tRstLow ∧ 10#16 ≤ s.regs.tRstSettle ∧ 10#16 ≤ s.snap.tRstLow ∧ 10#16 ≤ s.snap.tRstSettle

/-- An event the rules allow on the trace: a transaction carries at least one byte (40_transport.md R120), and a reset
pulse honours the minimum hold times (40_transport.md R128). -/
def Event.legal : Event → Bool
  | .xact _ bs => !bs.isEmpty
  | .pulse lo st => decide (10 ≤ lo ∧ 10 ≤ st)
  | .drive | .release | .wait _ _ | .cut _ _ => true

/-- Every event of the trace is legal, those before the last block reset included. -/
def State.traceLegal (s : State) : Prop := ∀ e ∈ s.earlier ++ s.bus.trace, e.legal = true

/-- FIRST_ERR is OK exactly while ERR is 0 (10_state.md R35, R36). -/
def Flags.legal (f : Flags) : Prop := f.err = false ↔ f.firstErr = .ok

/-- While a command runs DONE is 0 (60_exceptions.md R217: "every issue clears DONE first"), CMD still holds the accepted
word (10_state.md R37) and reset is not asserted; while none runs there is no place inside one. -/
def State.seqLegal (s : State) : Prop :=
  (s.seq = .running → s.flags.done = false ∧ s.regs.cmd = s.snap.cmd ∧ s.inReset = false) ∧
  (s.seq = .idle → s.pos = ⟨0, 0⟩)

/-- RESULT's reserved bits 30:1 are 0 (10_state.md R39). -/
def State.resultLegal (s : State) : Prop := s.regs.result.extractLsb' 1 30 = 0#30

/-! ### Duties of the host -/

/-- The panel still has to be put to sleep (70_reset_and_hazards.md R244). -/
def State.sleepOwed (s : State) : Bool :=
  s.session.fsm == .readyFull || s.session.fsm == .readyFast || s.session.fsm == .partialActive

/-- A 32-bit write to CMD. -/
def Access.isCmdWrite : Access → Bool
  | .write off width _ => off == 0x00C#14 && width == 4
  | .read _ _ => false

/-- A write of a byte of FB or GLYPH. -/
def Access.isStore : Access → Bool
  | .write off width _ => (List.range width).any fun k => isStored (off.toNat + k)
  | .read _ _ => false

/-- The pending inputs keep the issue duty and the framebuffer duty (70_reset_and_hazards.md R246, R247): no write to CMD, FB or
GLYPH comes while a command may still run. `pending`: one may be running now. -/
def paced : Bool → List Input → Bool
  | _, [] => true
  | pending, .access a :: rest =>
    !(pending && (a.isCmdWrite || a.isStore)) && paced (pending || a.isCmdWrite) rest
  | _, .wait :: rest => paced false rest
  | _, .complete :: rest => paced false rest
  | _, .resetAssert :: rest => paced false rest
  | pending, .advance _ _ :: rest => paced pending rest
  | pending, .clk _ :: rest => paced pending rest
  | pending, .resetRelease :: rest => paced pending rest

end Sys2Proof.Machine
end

