-- ==== Sys2Proof/Certificates/Slice0/Obligations.lean ====
section
/-! DEFINITION. The statements for the provers, each with the rule of spec/ it formalises. -/

open Sys2Proof Sys2Proof.Machine

/-! ### Encoding (30_encoding.md) -/

/-- R92, R93 on words written out from the opcode map, one for each family, and on reserved words (vectors E1 to E14). -/
def Obligations.WrittenWordsDecode : Prop :=
  decode 0x00000000#32 = .ok .nop ∧ decode 0x00000006#32 = .ok .rawWaitIdle ∧
  decode 0x00000010#32 = .ok .initFull ∧ decode 0x00000015#32 = .ok .displayPartial ∧
  decode 0x00000120#32 = .ok (.clear true) ∧ decode 0x00000024#32 = .ok (.rect false) ∧
  decode 0x00000324#32 = .ok (.rectf true) ∧ decode 0x00000225#32 = .ok (.circlef false) ∧
  decode 0x00000126#32 = .ok (.blit true) ∧
  decode 0x00000007#32 = .error .reservedOpcode ∧ decode 0x00000400#32 = .error .reservedBits ∧
  decode 0x00000210#32 = .error .fillNotTaken ∧ decode 0x00000122#32 = .error .colorNotTaken

/-- Decoder and encoder agree on every word and every instruction: no bit of a word is dropped (R91 to R93). -/
def Obligations.DecodeInvertsEncodeOnEveryWord : Prop :=
  ∀ (w : Word) (i : Instr), decode w = .ok i ↔ encode i = w

/-- R93 against the rows of opcode_table.json, for every word: a row takes the word exactly when the word decodes to the
row's instruction with the word's COLOR bit, no two rows take one word, and a row's mask leaves out bit 8 exactly where the
instruction takes COLOR. -/
def Obligations.WordDecodesExactlyWhenRowMatches : Prop :=
  ∀ (w : Word) (r : Row), r ∈ opcodeTable →
    (w &&& r.mask = r.pattern ↔ decode w = .ok (r.build (w.getLsbD 8))) ∧
    r.pattern = encode (r.build false) ∧ r.mask = (if (r.build true).color then 0xFFFFFEFF#32 else 0xFFFFFFFF#32) ∧
    ∀ r' ∈ opcodeTable, w &&& r.mask = r.pattern → w &&& r'.mask = r'.pattern → r'.mnemonic = r.mnemonic

/-- R94: which words decode to no instruction, and what such a word does when it runs. -/
def Obligations.UndecodableWordCompletesInvalidCommand : Prop :=
  (∀ w : Word,
    (w.extractLsb' 10 22 ≠ 0#22 → ∃ e, decode w = .error e) ∧
    ((∀ i : Instr, i.op ≠ w.extractLsb' 0 8) → ∃ e, decode w = .error e) ∧
    (w.getLsbD 8 = true → (∀ i : Instr, i.op = w.extractLsb' 0 8 → i.color = false) → ∃ e, decode w = .error e) ∧
    (w.getLsbD 9 = true → (∀ i : Instr, i.op = w.extractLsb' 0 8 → i.fill = false) → ∃ e, decode w = .error e)) ∧
  ∀ (s : State) (e : DecodeError), s.inputs = [] → s.seq = .running → decode s.snap.cmd = .error e →
    step s = .next { s with
      flags := { s.flags with
        lastCode := .invalidCommand, done := true, err := true,
        firstErr := if s.flags.err then s.flags.firstErr else .invalidCommand }
      seq := .idle
      pos := ⟨0, 0⟩ }

/-! ### Steps and the issue of a command (30_encoding.md R101 to R104) -/

/-- A step runs the decoded instruction (R103): with no input pending, or with the controller's completion or the host's
WAIT loop at the head of the inputs, a running command is executed; WAIT stays for its last read. -/
def Obligations.StepRunsTheDecodedInstruction : Prop :=
  ∀ (s : State) (i : Instr) (rest : List Input), s.seq = .running → decode s.snap.cmd = .ok i →
    (s.inputs = [] → step s = exec i s) ∧
    (s.inputs = .complete :: rest → step s = exec i { s with inputs := rest }) ∧
    (s.inputs = .wait :: rest → step s = exec i s)

/-- The block never stops: every state has a next state (60_exceptions.md R213: "The block has no trap"). -/
def Obligations.EveryStepAnswersNext : Prop := ∀ s : State, ∃ t, step s = .next t

/-- R101 and R102: a host write to CMD while SEQ = Idle issues the command; while SEQ = Running it sets OVERRUN and changes
nothing else. -/
def Obligations.CmdWriteIssuesOrOverruns : Prop :=
  ∀ (s : State) (w : Word) (rest : List Input),
    s.inputs = .access (.write 0x00C#14 4 w) :: rest → s.inReset = false →
    (s.seq = .idle → step s = .next { s with
      regs := { s.regs with cmd := w }
      snap :=
        { cmd := w, arg0 := s.regs.arg0, arg1 := s.regs.arg1, arg2 := s.regs.arg2, orient := s.regs.orient,
          plimit := s.regs.plimit, tRstLow := s.regs.tRstLow, tRstSettle := s.regs.tRstSettle, tInit := s.regs.tInit,
          tFull := s.regs.tFull, tFast := s.regs.tFast, tPartial := s.regs.tPartial, spiDiv := s.regs.spiDiv }
      flags := { s.flags with done := false }
      seq := .running
      pos := ⟨0, 0⟩
      inputs := rest
      resp := .done }) ∧
    (s.seq = .running →
      step s = .next { s with flags := { s.flags with overrun := true }, inputs := rest, resp := .done })

/-- A running command reads only its snapshot and what no host access can change meanwhile: whatever access the host
makes, the command completes with the same bytes, events, lines, session, RESULT, panel and completion code (10_state.md R46,
20_memory.md R69, R75). -/
def Obligations.HostAccessNeverReachesARunningCommand : Prop :=
  ∀ (s t : State) (a : Access), s.seq = .running → runCommand s = .next t →
    ∃ t', runCommand (s.hostAccess a) = .next t' ∧ t'.mem = t.mem ∧ t'.bus = t.bus ∧ t'.session = t.session ∧
      t'.panel = t.panel ∧ t'.regs.result = t.regs.result ∧ t'.flags.lastCode = t.flags.lastCode ∧
      t'.flags.auxCode = t.flags.auxCode ∧ t'.flags.auxValid = t.flags.auxValid

/-- A host that keeps the issue duty and the framebuffer duty (70_reset_and_hazards.md R246, R247) never loses a command or
a write: from any state whose pending inputs keep them, a step keeps them and sets neither OVERRUN nor DROPPED. -/
def Obligations.PacedHostLosesNothing : Prop :=
  ∀ s t : State, paced s.busy s.inputs = true → step s = .next t →
    paced t.busy t.inputs = true ∧
    (t.flags.overrun = true → s.flags.overrun = true) ∧ (t.flags.dropped = true → s.flags.dropped = true)

/-! ### The host bus (10_state.md R31 to R44, 20_memory.md R60 to R73) -/

/-- R62 and R68, and R67's misaligned and wrong-width accesses: the answer is a bus error, and nothing else happens. -/
def Obligations.IllegalAccessIsABusErrorWithoutEffect : Prop :=
  ∀ (s : State) (off : BitVec 14) (n : Nat) (v : Word), s.inReset = false →
    ((off.toNat < 0x1000 ∧ (n ≠ 4 ∨ off.toNat % 4 ≠ 0)) ∨
      (0x1000 ≤ off.toNat ∧ ((n ≠ 1 ∧ n ≠ 2 ∧ n ≠ 4) ∨ off.toNat % n ≠ 0))) →
    s.hostAccess (.read off n) = { s with resp := .busError } ∧
    s.hostAccess (.write off n v) = { s with resp := .busError }

/-- R32: undefined offsets and read-only registers ignore writes and are no error; undefined offsets and reserved bits
read 0. R33: ID always reads 0x45504430. -/
def Obligations.ReservedRegistersReadZeroAndIgnoreWrites : Prop :=
  ∀ (s : State) (off : BitVec 14) (v : Word), s.inReset = false → off.toNat < 0x1000 → off.toNat % 4 = 0 →
    (0x044 ≤ off.toNat →
      s.hostAccess (.read off 4) = { s with resp := .data 0#32 } ∧
      s.hostAccess (.write off 4 v) = { s with resp := .done }) ∧
    (off = 0x000#14 ∨ off = 0x01C#14 ∨ off = 0x020#14 → s.hostAccess (.write off 4 v) = { s with resp := .done }) ∧
    (off = 0x000#14 → s.hostAccess (.read off 4) = { s with resp := .data 0x45504430#32 }) ∧
    (s.readReg .ctrl &&& 0xFFFFFFFC#32 = 0#32 ∧ s.readReg .status &&& 0xF08000E0#32 = 0#32 ∧
      s.readReg .pcount &&& 0xFFFF0000#32 = 0#32 ∧ s.readReg .plimit &&& 0xFFFF0000#32 = 0#32 ∧
      s.readReg .tRstLow &&& 0xFFFF0000#32 = 0#32 ∧ s.readReg .tRstSettle &&& 0xFFFF0000#32 = 0#32 ∧
      s.readReg .tInit &&& 0xFFFF0000#32 = 0#32 ∧ s.readReg .tFull &&& 0xFFFF0000#32 = 0#32 ∧
      s.readReg .tFast &&& 0xFFFF0000#32 = 0#32 ∧ s.readReg .tPartial &&& 0xFFFF0000#32 = 0#32 ∧
      s.readReg .spiDiv &&& 0xFFFFFF00#32 = 0#32)

/-- The register map of R31 on the host bus. A 32-bit read at a register's offset returns the register's word, written out of
the state's fields (R33 to R44), live, and changes nothing but the answer. A 32-bit write to CTRL, ARG0 to ARG2, PLIMIT, a T_
register (the hold times with their floor of 10) or SPI_DIV stores the register's own field, written out (R34, R38, R41 to
R44), and changes nothing else beside the answer; the next read at that offset returns the value shown, and a read at any
other offset what it would have before. -/
def Obligations.RegisterWritesReadBack : Prop :=
  ∀ (s : State) (w : Word), s.inReset = false →
    (∀ p ∈ s.registerWords, s.hostAccess (.read p.1 4) = { s with resp := .data p.2 }) ∧
    (∀ p ∈ s.registerStores w, s.hostAccess (.write p.1 4 w) = { s with regs := p.2, resp := .done }) ∧
    ∀ p ∈ [(0x004#14, w &&& 0x3#32), (0x010#14, w), (0x014#14, w), (0x018#14, w), (0x024#14, w &&& 0xFFFF#32),
        (0x028#14, if (w &&& 0xFFFF#32).toNat < 10 then 10#32 else w &&& 0xFFFF#32),
        (0x02C#14, if (w &&& 0xFFFF#32).toNat < 10 then 10#32 else w &&& 0xFFFF#32),
        (0x030#14, w &&& 0xFFFF#32), (0x034#14, w &&& 0xFFFF#32), (0x038#14, w &&& 0xFFFF#32),
        (0x03C#14, w &&& 0xFFFF#32), (0x040#14, w &&& 0xFF#32)],
      ∃ t, s.hostAccess (.write p.1 4 w) = t ∧ t = { s with regs := t.regs, resp := .done } ∧
        (t.hostAccess (.read p.1 4)).resp = .data p.2 ∧
        ∀ q ∈ s.registerWords, q.1 ≠ p.1 → (t.hostAccess (.read q.1 4)).resp = .data q.2

/-- R36, for a host write to STATUS between completions: the named bits are cleared, FIRST_ERR with ERR, and no other bit
of STATUS and no other state changes. -/
def Obligations.StatusWriteClearsTheNamedBits : Prop :=
  ∀ (s : State) (w : Word), s.inReset = false →
    ∃ t, s.hostAccess (.write 0x008#14 4 w) = t ∧
      t = { s with flags := t.flags, resp := .done } ∧
      t.flags.done = (s.flags.done && !w.getLsbD 1) ∧ t.flags.err = (s.flags.err && !w.getLsbD 2) ∧
      t.flags.overrun = (s.flags.overrun && !w.getLsbD 3) ∧ t.flags.dropped = (s.flags.dropped && !w.getLsbD 4) ∧
      (w.getLsbD 2 = true → t.flags.firstErr = .ok) ∧ (w.getLsbD 2 = false → t.flags.firstErr = s.flags.firstErr) ∧
      t.flags.lastCode = s.flags.lastCode ∧ t.flags.auxCode = s.flags.auxCode ∧ t.flags.auxValid = s.flags.auxValid

/-- R35: where each field stands in the word a read of STATUS returns, with the numbers of the completion codes (60_exceptions.md
R210) in LAST_CODE, AUX_CODE and FIRST_ERR and of the FSM states (R22) in FSM. -/
def Obligations.StatusWordHoldsTheFields : Prop :=
  ∀ s : State,
    (∀ p ∈ [(Code.ok, 0#4), (Code.resourceUnavailable, 1#4), (Code.invalidTransition, 2#4), (Code.hardwareTimeout, 3#4),
        (Code.invalidArgument, 4#4), (Code.notOpen, 5#4), (Code.invalidCommand, 6#4), (Code.partialLimit, 7#4)],
      (s.flags.lastCode = p.1 ↔ s.statusWord.extractLsb' 8 4 = p.2) ∧
      (s.flags.auxCode = p.1 ↔ s.statusWord.extractLsb' 18 4 = p.2) ∧
      (s.flags.err = true → (s.flags.firstErr = p.1 ↔ s.statusWord.extractLsb' 24 4 = p.2))) ∧
    (s.flags.err = false → s.statusWord.extractLsb' 24 4 = 0#4) ∧
    (∀ p ∈ [(Fsm.cold, 0#3), (Fsm.readyFull, 1#3), (Fsm.readyFast, 2#3), (Fsm.partialActive, 3#3), (Fsm.asleep, 4#3),
        (Fsm.fault, 5#3)],
      (s.session.fsm = p.1 ↔ s.statusWord.extractLsb' 12 3 = p.2)) ∧
    s.statusWord.getLsbD 0 = (s.seq == .running) ∧ s.statusWord.getLsbD 1 = s.flags.done ∧
    s.statusWord.getLsbD 2 = s.flags.err ∧ s.statusWord.getLsbD 3 = s.flags.overrun ∧
    s.statusWord.getLsbD 4 = s.flags.dropped ∧ s.statusWord.extractLsb' 5 3 = 0#3 ∧
    s.statusWord.getLsbD 15 = s.session.xportOpen ∧ s.statusWord.getLsbD 16 = s.session.baseValid ∧
    s.statusWord.getLsbD 17 = (s.panel.sync2 == Config.busyActive) ∧
    s.statusWord.getLsbD 22 = s.flags.auxValid ∧ s.statusWord.getLsbD 23 = false ∧ s.statusWord.extractLsb' 28 4 = 0#4

/-- R63, R66: a legal write of 1, 2 or 4 bytes into FB or GLYPH while no command runs stores byte `k` of the data lanes
at offset + k, little-endian, changes no other byte and nothing else; a read of as many bytes there then returns them on
the same lanes. That the lanes above are 0 in the answer is the model's choice (log entry 25). -/
def Obligations.MemoryWriteThenRead : Prop :=
  ∀ (s : State) (off : BitVec 14) (n : Nat) (v : Word), s.inReset = false → s.seq = .idle →
    (n = 1 ∨ n = 2 ∨ n = 4) → off.toNat % n = 0 →
    (∀ k < n, isFb (off.toNat + k) = true) ∨ (∀ k < n, isGlyph (off.toNat + k) = true) →
    ∃ t, s.hostAccess (.write off n v) = t ∧ t = { s with mem := t.mem, resp := .done } ∧
      (∀ k < n, t.byteAt (off.toNat + k) = v.extractLsb' (8 * k) 8) ∧
      (∀ a, a < off.toNat ∨ off.toNat + n ≤ a → t.byteAt a = s.byteAt a) ∧
      ∃ d, (t.hostAccess (.read off n)).resp = .data d ∧
        (∀ k < n, d.extractLsb' (8 * k) 8 = v.extractLsb' (8 * k) 8) ∧ (∀ k, 8 * n ≤ k → d.getLsbD k = false)

/-- R69: a host write that would store into FB or GLYPH while a command runs is dropped whole and sets DROPPED. -/
def Obligations.StoresWhileRunningAreDropped : Prop :=
  ∀ (s : State) (off : BitVec 14) (n : Nat) (v : Word), s.inReset = false → s.seq = .running →
    (n = 1 ∨ n = 2 ∨ n = 4) → off.toNat % n = 0 →
    (∃ k < n, isFb (off.toNat + k) = true ∨ isGlyph (off.toNat + k) = true) →
    s.hostAccess (.write off n v) = { s with flags := { s.flags with dropped := true }, resp := .done }

/-- R64, R65, R67: the tails and the unmapped offsets read 0 and ignore writes, and the BASE window ignores writes,
whether a command runs or not, without an error and without a STATUS bit. That the answer to a narrow read of a tail is 0 also above
its lanes is the model's choice (log entry 25). -/
def Obligations.TailsAndBaseIgnoreWrites : Prop :=
  ∀ (s : State) (off : BitVec 14) (n : Nat) (v : Word), s.inReset = false → (n = 1 ∨ n = 2 ∨ n = 4) →
    off.toNat % n = 0 →
    ((0x1FA0 ≤ off.toNat ∧ off.toNat < 0x3000) ∨ 0x3200 ≤ off.toNat →
      s.hostAccess (.write off n v) = { s with resp := .done }) ∧
    ((0x1FA0 ≤ off.toNat ∧ off.toNat < 0x2000) ∨ (0x2FA0 ≤ off.toNat ∧ off.toNat < 0x3000) ∨ 0x3200 ≤ off.toNat →
      (s.hostAccess (.read off n)).resp = .data 0#32)

/-- R71: a host read changes nothing but the answer on the bus (and the model's own counter of free choices). -/
def Obligations.ReadsHaveNoSideEffect : Prop :=
  ∀ (s : State) (off : BitVec 14) (n : Nat), ∃ t, s.hostAccess (.read off n) = t ∧
    t = { s with resp := t.resp, readDraws := t.readDraws }

/-- What a legal read of the memory regions returns (R63, R65, R70), the lanes above its width being 0 (the model's choice, log
entry 25). While no command runs,
and while a word runs that decodes to no instruction, each byte is exactly the current one: the array's, or 0 where there is
no array. While a command runs, it is the byte at issue or the byte the command leaves; and it is the exact current byte
outside FB and BASE, in FB while the command is no drawing command that writes FB, and in BASE while it is neither COMMIT_BASE
nor DISPLAY_PARTIAL. Which of the two it is in a run is a free value (log entry 4). -/
def Obligations.ReadWhileRunningIsOldOrNew : Prop :=
  ∀ (s : State) (off : BitVec 14) (n : Nat), s.inReset = false → 0x1000 ≤ off.toNat → (n = 1 ∨ n = 2 ∨ n = 4) →
    off.toNat % n = 0 →
    ∃ d, (s.hostAccess (.read off n)).resp = .data d ∧ (∀ k, 8 * n ≤ k → d.getLsbD k = false) ∧
      ∀ k < n,
        (s.seq = .idle ∨ (∃ e, decode s.snap.cmd = .error e) →
          d.extractLsb' (8 * k) 8 =
            if isFb (off.toNat + k) || isBase (off.toNat + k) || isGlyph (off.toNat + k) then s.byteAt (off.toNat + k)
            else 0#8) ∧
        ∀ i, s.seq = .running → decode s.snap.cmd = .ok i →
          (d.extractLsb' (8 * k) 8 = s.regionByte (off.toNat + k) ∨
            d.extractLsb' (8 * k) 8 = s.completed.regionByte (off.toNat + k)) ∧
          ((isFb (off.toNat + k) = true → writesFb i = false) → (isBase (off.toNat + k) = true → writesBase i = false) →
            d.extractLsb' (8 * k) 8 = s.regionByte (off.toNat + k))

/-- R216, R217: `irq` is CTRL.IRQ_EN and STATUS.DONE. A completion raises it when enabled, an issue and a write of 1 to
DONE lower it, and while DONE is 1 a write to CTRL sets it to the IRQ_EN written. -/
def Obligations.InterruptFollowsDoneAndEnable : Prop :=
  ∀ (s : State) (c : Code) (w : Word),
    (s.irq = true ↔ s.regs.irqEn = true ∧ s.flags.done = true) ∧
    (s.finish c).irq = s.regs.irqEn ∧ (s.issue w).irq = false ∧
    (w.getLsbD 1 = true → (s.writeReg w .status).irq = false) ∧
    (s.flags.done = true → (s.writeReg w .ctrl).irq = w.getLsbD 1)

/-! ### Reset (10_state.md R49, 70_reset_and_hazards.md R240 to R242) -/

/-- R49: the values the spec gives for reset. FB, BASE and GLYPH have none: nothing is listed. -/
def Obligations.ResetHoldsTheSpecValues : Prop :=
  State.reset.session = ⟨.cold, false, false, 0#16⟩ ∧ State.reset.bus = ⟨Lines.allReleased, []⟩ ∧
  State.reset.seq = .idle ∧ State.reset.mem = [] ∧ State.reset.irq = false ∧
  State.reset.statusWord &&& 0xFFFDFFFF#32 = 0#32 ∧
  State.reset.readReg .id = 0x45504430#32 ∧ State.reset.readReg .ctrl = 0#32 ∧ State.reset.readReg .cmd = 0#32 ∧
  State.reset.readReg .arg0 = 0#32 ∧ State.reset.readReg .arg1 = 0#32 ∧ State.reset.readReg .arg2 = 0#32 ∧
  State.reset.readReg .result = 0#32 ∧ State.reset.readReg .pcount = 0#32 ∧ State.reset.readReg .plimit = 0#32 ∧
  State.reset.readReg .tRstLow = 0x0000000A#32 ∧ State.reset.readReg .tRstSettle = 0x0000000A#32 ∧
  State.reset.readReg .tInit = 0x000007D0#32 ∧ State.reset.readReg .tFull = 0x000007D0#32 ∧
  State.reset.readReg .tFast = 0x000005DC#32 ∧ State.reset.readReg .tPartial = 0x000007D0#32 ∧
  State.reset.readReg .spiDiv = 0x00000004#32

/-- R240, R241: block reset in any state, with whatever the running command has on the bus, the lines being legal (R25, kept
by every step). The running command is abandoned and every register and flag takes its reset value. The trace is emptied; what
it held, with the events of the run already complete, is the history `earlier` (log entry 8); the trace then shows a `Cut` with
the bytes fully out if a transaction had asserted chip-select, nothing of a transaction before that, of a pulse, of a wait or
between events, and then `Release` exactly if the lines were driven. While `rst_n` is 0 a read returns 0 and a write changes
nothing. The model's choices here: no listed byte (log entry 3), the history (8), the bytes of a `Cut` (9), the answer to an
illegal access in reset (17). -/
def Obligations.BlockResetAbandonsAndReleases : Prop :=
  ∀ (s : State) (rest : List Input), s.inputs = .resetAssert :: rest → s.linesLegal →
    ∃ t, step s = .next t ∧ t.session = State.reset.session ∧ t.regs = State.reset.regs ∧
      t.flags = State.reset.flags ∧ t.seq = .idle ∧ t.mem = [] ∧ t.bus.lines = Lines.allReleased ∧ t.inReset = true ∧
      t.inputs = rest ∧ t.earlier = s.earlier ++ s.bus.trace ++ s.runEvents.take s.pos.events ∧
      (∃ cut, t.bus.trace = cut ++ (if s.restNow = Lines.allReleased then [] else [.release]) ∧
        (∀ dc bs, s.eventNow = some (.xact dc bs) → s.half ≤ s.pos.cycle →
          cut = [.cut dc (bs.take ((s.pos.cycle - s.half) / (16 * s.half)))]) ∧
        ((∀ dc bs, s.eventNow = some (.xact dc bs) → s.pos.cycle < s.half) → cut = [])) ∧
      (s.seq = .idle → s.restNow = s.bus.lines ∧ s.eventNow = none ∧ t.earlier = s.earlier ++ s.bus.trace) ∧
      (∀ off n v, t.hostAccess (.read off n) = { t with resp := .data 0#32 } ∧
        t.hostAccess (.write off n v) = { t with resp := .done })

/-! ### Transport commands (40_transport.md R131 to R137) -/

/-- R131. -/
def Obligations.NopOnlyCompletes : Prop :=
  encode .nop = 0x00000000#32 ∧
  (∀ s : State, exec .nop s = .next { s with
    flags := { s.flags with lastCode := .ok, done := true }
    seq := .idle
    pos := ⟨0, 0⟩ }) ∧
  ∀ s : State, s.snap.cmd.extractLsb' 0 8 = 0#8 → s.snap.cmd ≠ 0#32 → runCommand s = .next (s.finish .invalidCommand)

/-- R132. -/
def Obligations.OpenDrivesTheLines : Prop :=
  encode .openBus = 0x00000001#32 ∧
  ∀ s : State,
    (s.session.xportOpen = true → exec .openBus s = .next (s.finish .resourceUnavailable)) ∧
    (s.session.xportOpen = false → ∃ t, exec .openBus s = .next t ∧ Completes .ok s.flags s t ∧
      t.session = { s.session with xportOpen := true } ∧
      t.bus = ⟨{ sclk := .low, mosi := .low, csN := .high, dc := .low, rstN := .high }, s.bus.trace ++ [.drive]⟩ ∧
      SameBytes s t ∧ t.regs = s.regs ∧ t.panel = s.panel)

/-- R133, with the sleep duty of 70_reset_and_hazards.md R244. -/
def Obligations.CloseSleepsAndReleases : Prop :=
  encode .closeBus = 0x00000002#32 ∧
  ∀ s : State,
    (s.session.xportOpen = false → exec .closeBus s = .next (s.finish .ok)) ∧
    (s.session.xportOpen = true → ∃ t aux, exec .closeBus s = .next t ∧
      Completes .ok { s.flags with auxCode := aux, auxValid := true } s t ∧
      t.bus.lines = Lines.allReleased ∧ t.session.xportOpen = false ∧ t.sleepOwed = false ∧
      (s.sleepOwed = true → aux = .ok ∧ t.session = ⟨.asleep, false, false, 0#16⟩ ∧
        t.bus.trace = s.bus.trace ++ [.xact false [Config.pcmd .dsl]] ++
          (if Config.pcmdData .dsl = [] then [] else [.xact true (Config.pcmdData .dsl)]) ++ [.release]) ∧
      (s.session.fsm = .asleep → aux = .ok) ∧
      (s.session.fsm = .cold ∨ s.session.fsm = .fault → aux = .invalidTransition) ∧
      (s.sleepOwed = false → t.session = { s.session with xportOpen := false } ∧
        t.bus.trace = s.bus.trace ++ [.release]) ∧
      SameBytes s t ∧ t.regs = s.regs ∧ t.panel = s.panel)

/-- R134. -/
def Obligations.RawResetPulsesAndReturnsToCold : Prop :=
  encode .rawReset = 0x00000003#32 ∧
  ∀ s : State,
    (s.session.xportOpen = false → exec .rawReset s = .next (s.finish .notOpen)) ∧
    (s.session.xportOpen = true → ∃ t, exec .rawReset s = .next t ∧ Completes .ok s.flags s t ∧
      t.bus = ⟨s.bus.lines, s.bus.trace ++ [.pulse s.snap.tRstLow.toNat s.snap.tRstSettle.toNat]⟩ ∧
      (s.session.fsm = .fault → t.session = s.session) ∧
      (s.session.fsm ≠ .fault → t.session = ⟨.cold, true, false, 0#16⟩) ∧
      SameBytes s t ∧ t.regs = s.regs ∧ t.panel = s.panel)

/-- R135, R136. -/
def Obligations.RawTrafficOnlyInCold : Prop :=
  encode .rawCmd = 0x00000004#32 ∧ encode .rawData = 0x00000005#32 ∧
  ∀ s : State,
    (s.session.fsm ≠ .cold → exec .rawCmd s = .next (s.finish .invalidTransition) ∧
      exec .rawData s = .next (s.finish .invalidTransition)) ∧
    (s.session.fsm = .cold → s.session.xportOpen = false →
      exec .rawCmd s = .next (s.finish .notOpen) ∧ exec .rawData s = .next (s.finish .notOpen)) ∧
    (s.session.fsm = .cold → s.session.xportOpen = true →
      (∃ t, exec .rawCmd s = .next t ∧ Completes .ok s.flags s t ∧ t.session = s.session ∧
        t.bus = ⟨{ s.bus.lines with dc := .low }, s.bus.trace ++ [.xact false [s.snap.arg0.extractLsb' 0 8]]⟩ ∧
        SameBytes s t ∧ t.regs = s.regs ∧ t.panel = s.panel) ∧
      (s.lowArg1 < 1 ∨ 4 < s.lowArg1 →
        exec .rawData s = .next (s.finish .invalidArgument)) ∧
      (1 ≤ s.lowArg1 → s.lowArg1 ≤ 4 →
        ∃ t, exec .rawData s = .next t ∧ Completes .ok s.flags s t ∧ t.session = s.session ∧
          t.bus = ⟨{ s.bus.lines with dc := .high }, s.bus.trace ++ [.xact true
            ((List.range s.lowArg1).map fun k => s.snap.arg0.extractLsb' (8 * k) 8)]⟩ ∧
          SameBytes s t ∧ t.regs = s.regs ∧ t.panel = s.panel))

/-- R137. The outcome is the panel's answer, whatever it is. -/
def Obligations.RawWaitIdleWaitsOnce : Prop :=
  encode .rawWaitIdle = 0x00000006#32 ∧
  ∀ s : State, ∀ T : Nat, T = (s.snap.arg0.extractLsb' 0 16).toNat →
    (s.session.xportOpen = false → exec .rawWaitIdle s = .next (s.finish .notOpen)) ∧
    (s.session.xportOpen = true → s.waitResult T = .idle →
      ∃ t, exec .rawWaitIdle s = .next t ∧ Completes .ok s.flags s t ∧ t.session = s.session ∧
        t.bus = ⟨s.bus.lines, s.bus.trace ++ [.wait T .idle]⟩ ∧ SameBytes s t ∧ t.regs = s.regs ∧
        t.panel = s.panel.afterWait) ∧
    (s.session.xportOpen = true → s.waitResult T = .timeout →
      ∃ t, exec .rawWaitIdle s = .next t ∧ Completes .hardwareTimeout s.flags s t ∧
        t.session = ⟨.fault, true, false, 0#16⟩ ∧ t.bus = ⟨s.bus.lines, s.bus.trace ++ [.wait T .timeout]⟩ ∧
        SameBytes s t ∧ t.regs = s.regs ∧ t.panel = s.panel.afterWait)

/-! ### Refresh commands (41_refresh_fsm.md) -/

/-- R158, R159: the checks in order, and the two ends of the command by the panel's answer. On the lines EPD_DC keeps the level
of the last transaction (10_state.md R25): data for a LUT that has bytes, else command; the pulse and the wait leave it. -/
def Obligations.InitLoadsTheLut : Prop :=
  encode .initFull = 0x00000010#32 ∧ encode .initFast = 0x00000011#32 ∧
  ∀ (s : State) (i : Instr) (ready : Fsm) (lut : List Byte),
    (i = .initFull ∧ ready = .readyFull ∧ lut = Config.lutFull) ∨
      (i = .initFast ∧ ready = .readyFast ∧ lut = Config.lutFast) →
    (s.session.fsm = .readyFull ∨ s.session.fsm = .readyFast ∨ s.session.fsm = .partialActive →
      exec i s = .next (s.finish .invalidTransition)) ∧
    (s.session.fsm = .cold ∨ s.session.fsm = .asleep ∨ s.session.fsm = .fault →
      (s.session.xportOpen = false → exec i s = .next (s.finish .notOpen)) ∧
      (s.session.xportOpen = true → s.waitResult s.snap.tInit.toNat = .idle →
        ∃ t, exec i s = .next t ∧ Completes .ok s.flags s t ∧ t.session = ⟨ready, true, false, 0#16⟩ ∧
          t.bus = ⟨{ s.bus.lines with dc := if lut = [] then .low else .high },
            s.bus.trace ++ [.pulse s.snap.tRstLow.toNat s.snap.tRstSettle.toNat,
              .wait s.snap.tInit.toNat .idle] ++ initEvents lut⟩ ∧
          SameBytes s t ∧ t.regs = s.regs ∧ t.panel = s.panel.afterWait) ∧
      (s.session.xportOpen = true → s.waitResult s.snap.tInit.toNat = .timeout →
        ∃ t, exec i s = .next t ∧ Completes .hardwareTimeout s.flags s t ∧ t.session = ⟨.fault, true, false, 0#16⟩ ∧
          t.bus = ⟨s.bus.lines, s.bus.trace ++ [.pulse s.snap.tRstLow.toNat s.snap.tRstSettle.toNat,
            .wait s.snap.tInit.toNat .timeout]⟩ ∧
          SameBytes s t ∧ t.regs = s.regs ∧ t.panel = s.panel.afterWait))

/-- R160. The last transaction is data, and EPD_DC keeps its level (10_state.md R25). -/
def Obligations.CommitBaseCopiesFbToBase : Prop :=
  encode .commitBase = 0x00000012#32 ∧
  ∀ s : State,
    (s.session.fsm ≠ .readyFull → exec .commitBase s = .next (s.finish .invalidTransition)) ∧
    (s.session.fsm = .readyFull → s.session.xportOpen = false → exec .commitBase s = .next (s.finish .notOpen)) ∧
    (s.session.fsm = .readyFull → s.session.xportOpen = true →
      ∃ t, exec .commitBase s = .next t ∧ Completes .ok s.flags s t ∧
        t.session = ⟨.partialActive, true, true, 0#16⟩ ∧
        t.bus = ⟨{ s.bus.lines with dc := .high },
          s.bus.trace ++ fullBankEvents (Config.pcmd .wro) s ++ fullBankEvents (Config.pcmd .wrn) s⟩ ∧
        (∀ i < 4000, t.base i = s.fb i) ∧ (∀ a, isBase a = false → t.byteAt a = s.byteAt a) ∧
        t.regs = s.regs ∧ t.panel = s.panel)

/-- R161, R162: the checks in order, and the two ends of the command by the panel's answer. The last transaction is the
activation command, and EPD_DC keeps its level (10_state.md R25). -/
def Obligations.DisplayWritesTheNewBankAndTriggers : Prop :=
  encode .displayFull = 0x00000013#32 ∧ encode .displayFast = 0x00000014#32 ∧
  ∀ (s : State) (i : Instr) (ready : Fsm) (m : Config.DataRole) (T : Nat),
    (i = .displayFull ∧ ready = .readyFull ∧ m = .updFull ∧ T = s.snap.tFull.toNat) ∨
      (i = .displayFast ∧ ready = .readyFast ∧ m = .updFast ∧ T = s.snap.tFast.toNat) →
    (s.session.fsm ≠ ready → exec i s = .next (s.finish .invalidTransition)) ∧
    (s.session.fsm = ready → s.session.xportOpen = false → exec i s = .next (s.finish .notOpen)) ∧
    (s.session.fsm = ready → s.session.xportOpen = true → ∀ r, s.waitResult T = r →
      ∃ t, exec i s = .next t ∧
        Completes (if r = .idle then .ok else .hardwareTimeout) s.flags s t ∧
        t.session = (if r = .idle then s.session else ⟨.fault, true, false, 0#16⟩) ∧
        t.bus = ⟨{ s.bus.lines with dc := .low }, s.bus.trace ++ fullBankEvents (Config.pcmd .wrn) s ++
          issued (Config.pcmd .upd) (Config.pcmdData m) ++ [.xact false [Config.pcmd .act], .wait T r]⟩ ∧
        SameBytes s t ∧ t.regs = s.regs ∧ t.panel = s.panel.afterWait)

/-- R163, R164 and R165: the window's validity as the spec gives it, the limit, and what a successful and a timed-out
DISPLAY_PARTIAL leave: BASE takes FB's bytes inside the window and no other byte changes. The data transaction carries the
window's bytes of FB, rows outer and byte columns inner (R155). The last transaction is the activation command, and EPD_DC keeps
its level (10_state.md R25). -/
def Obligations.DisplayPartialUpdatesTheWindow : Prop :=
  encode .displayPartial = 0x00000015#32 ∧
  ∀ (s : State) (X Y : Int) (Wd Ht : Nat), s.pt0 = (X, Y) → s.lowArg1 = Wd → s.highArg1 = Ht →
    (s.session.fsm ≠ .partialActive → exec .displayPartial s = .next (s.finish .invalidTransition)) ∧
    (s.session.fsm = .partialActive → s.session.xportOpen = false →
      exec .displayPartial s = .next (s.finish .notOpen)) ∧
    (s.session.fsm = .partialActive → s.session.xportOpen = true →
      (¬ ValidWindow X Y Wd Ht → exec .displayPartial s = .next (s.finish .invalidArgument)) ∧
      (ValidWindow X Y Wd Ht → s.snap.plimit ≠ 0#16 → s.snap.plimit ≤ s.session.pcount →
        exec .displayPartial s = .next (s.finish .partialLimit)) ∧
      (ValidWindow X Y Wd Ht → s.snap.plimit = 0#16 ∨ s.session.pcount < s.snap.plimit →
        ∀ r, s.waitResult s.snap.tPartial.toNat = r →
        ∃ t, exec .displayPartial s = .next t ∧
          Completes (if r = .idle then .ok else .hardwareTimeout) s.flags s t ∧
          t.bus = ⟨{ s.bus.lines with dc := .low },
            s.bus.trace ++ partialEvents X Y Wd Ht s ++ [Event.wait s.snap.tPartial.toNat r]⟩ ∧
          (r = .idle →
            t.session = { s.session with
              pcount := if s.session.pcount = 0xFFFF#16 then 0xFFFF#16 else s.session.pcount + 1#16 } ∧
            (∀ i < 4000, (inWindow X Y Wd Ht i → t.base i = s.fb i) ∧ (¬ inWindow X Y Wd Ht i → t.base i = s.base i)) ∧
            (∀ a, isBase a = false → t.byteAt a = s.byteAt a)) ∧
          (r = .timeout → t.session = ⟨.fault, true, false, 0#16⟩ ∧ SameBytes s t) ∧
          t.regs = s.regs ∧ t.panel = s.panel.afterWait))

/-- R166. EPD_DC keeps the level of the last transaction (10_state.md R25): data if the deep-sleep command has data bytes, else
command. -/
def Obligations.SleepPutsThePanelToSleep : Prop :=
  encode .sleep = 0x00000016#32 ∧
  ∀ s : State,
    (s.session.fsm = .cold ∨ s.session.fsm = .asleep ∨ s.session.fsm = .fault →
      exec .sleep s = .next (s.finish .invalidTransition)) ∧
    (s.session.fsm = .readyFull ∨ s.session.fsm = .readyFast ∨ s.session.fsm = .partialActive →
      (s.session.xportOpen = false → exec .sleep s = .next (s.finish .notOpen)) ∧
      (s.session.xportOpen = true → ∃ t, exec .sleep s = .next t ∧ Completes .ok s.flags s t ∧
        t.session = ⟨.asleep, true, false, 0#16⟩ ∧
        t.bus = ⟨{ s.bus.lines with dc := if Config.pcmdData .dsl = [] then .low else .high },
          s.bus.trace ++ issued (Config.pcmd .dsl) (Config.pcmdData .dsl)⟩ ∧
        SameBytes s t ∧ t.regs = s.regs ∧ t.panel = s.panel))

/-! ### Rules over all commands (41_refresh_fsm.md R150, R167; 60_exceptions.md R210 to R215; 70_reset_and_hazards.md R255) -/

/-- R150: the FSM moves only as the table gives. A refused transition leaves everything but the completion fields; an OK
completion leaves the table's state; a completion with another code leaves the FSM as it was, but for a timeout of a command
with a wait, which leaves FAULT. -/
def Obligations.FsmMovesOnlyByTheTable : Prop :=
  ∀ (i : Instr) (s t : State), exec i s = .next t →
    (fsmTable i s.session.xportOpen s.session.fsm = none ↔ t.flags.lastCode = .invalidTransition) ∧
    (t.flags.lastCode = .invalidTransition → t = s.finish .invalidTransition) ∧
    (t.flags.lastCode = .ok → fsmTable i s.session.xportOpen s.session.fsm = some t.session.fsm) ∧
    (t.flags.lastCode = .hardwareTimeout → hasWait i = true ∧ t.session.fsm = .fault) ∧
    (t.flags.lastCode ≠ .ok → t.flags.lastCode ≠ .hardwareTimeout → t.session.fsm = s.session.fsm)

/-- R212 and R213: the first check of the order that fails is the command's code, and then nothing but the completion fields
changes; a command that passes them completes OK, or HARDWARE_TIMEOUT if it has a wait. -/
def Obligations.FirstFailedCheckIsTheOnlyEffect : Prop :=
  ∀ (i : Instr) (s : State) (c : Code), FirstCheck i s c →
    (c ≠ .ok → exec i s = .next (s.finish c)) ∧
    (c = .ok → ∃ t, exec i s = .next t ∧
      (t.flags.lastCode = .ok ∨ t.flags.lastCode = .hardwareTimeout ∧ hasWait i = true))

/-- R167, R214, R215: a command completes HARDWARE_TIMEOUT exactly when a wait of it timed out; that wait is its last event
and the only one that timed out, the FSM is FAULT, the session is closed, and no byte and no register has changed. -/
def Obligations.TimeoutEntersFaultAndSendsNothingMore : Prop :=
  ∀ (i : Instr) (s t : State), exec i s = .next t →
    (t.flags.lastCode = .hardwareTimeout →
      t.session = ⟨.fault, s.session.xportOpen, false, 0#16⟩ ∧ SameBytes s t ∧ t.regs = s.regs ∧
      ∃ es T, t.bus.trace = s.bus.trace ++ es ++ [Event.wait T .timeout] ∧ ∀ T', Event.wait T' .timeout ∉ es) ∧
    ∀ es T, t.bus.trace = s.bus.trace ++ es → Event.wait T .timeout ∈ es → t.flags.lastCode = .hardwareTimeout

/-- R211, R39: what every completion writes, whatever the command, and what no command writes: the registers other than
RESULT, RESULT but by GET_PIXEL, the AUX fields but by CLOSE, OVERRUN, DROPPED, the snapshot, the trace before the last block reset and
the host's side. -/
def Obligations.EveryCompletionWritesItsFields : Prop :=
  ∀ (i : Instr) (s : State), ∃ t, exec i s = .next t ∧
    t.seq = .idle ∧ t.statusWord.getLsbD 0 = false ∧ t.flags.done = true ∧
    (t.flags.lastCode ≠ .ok → t.flags.err = true ∧
      t.flags.firstErr = if s.flags.err then s.flags.firstErr else t.flags.lastCode) ∧
    (t.flags.lastCode = .ok → t.flags.err = s.flags.err ∧ t.flags.firstErr = s.flags.firstErr) ∧
    t.flags.overrun = s.flags.overrun ∧ t.flags.dropped = s.flags.dropped ∧
    (i ≠ .closeBus → t.flags.auxCode = s.flags.auxCode ∧ t.flags.auxValid = s.flags.auxValid) ∧
    t.regs = { s.regs with result := t.regs.result } ∧ (i ≠ .getPixel → t.regs.result = s.regs.result) ∧
    t.snap = s.snap ∧ t.inputs = s.inputs ∧ t.resp = s.resp ∧ t.inReset = s.inReset ∧ t.earlier = s.earlier

/-- R255: the events of each refresh command that completes OK. Where the spec counts with every panel data string non-empty,
the statement counts the strings that are not; a command that uses no bus sends nothing. -/
def Obligations.EventsPerCommand : Prop :=
  ∀ (i : Instr) (s t : State) (es : List Event), exec i s = .next t → t.flags.lastCode = .ok →
    t.bus.trace = s.bus.trace ++ es →
    ∀ n p w : Nat, n = es.countP Event.isXact → p = es.countP Event.isPulse → w = es.countP Event.isWait →
    (i = .initFull → p = 1 ∧ w = 1 ∧
      n = 9 + ([Config.pcmdData .doc, Config.pcmdData .dem, Config.pcmdData .bwf, Config.pcmdData .duc, Config.lutFull].countP
        (· ≠ []))) ∧
    (i = .initFast → p = 1 ∧ w = 1 ∧
      n = 9 + ([Config.pcmdData .doc, Config.pcmdData .dem, Config.pcmdData .bwf, Config.pcmdData .duc, Config.lutFast].countP
        (· ≠ []))) ∧
    (i = .commitBase → p = 0 ∧ w = 0 ∧ n = 20) ∧
    (i = .displayFull → p = 0 ∧ w = 1 ∧ n = 12 + [Config.pcmdData .updFull].countP (· ≠ [])) ∧
    (i = .displayFast → p = 0 ∧ w = 1 ∧ n = 12 + [Config.pcmdData .updFast].countP (· ≠ [])) ∧
    (i = .displayPartial → p = 0 ∧ w = 1 ∧ n = 12 + [Config.pcmdData .updPartial].countP (· ≠ [])) ∧
    (i = .sleep → p = 0 ∧ w = 0 ∧ n = 1 + [Config.pcmdData .dsl].countP (· ≠ [])) ∧
    (usesBus i = false → i ≠ .openBus → i ≠ .closeBus → es = [])

/-- R120: the trace is append-only: the whole trace, `earlier` and the trace since the last block reset, grows under every
step, block reset included (log entry 8), and so does the whole trace as it stands inside a running command; without a block
reset the trace itself grows and `earlier` stays. -/
def Obligations.TraceOnlyGrows : Prop :=
  ∀ s t : State, step s = .next t →
    (∃ es, t.earlier ++ t.bus.trace = s.earlier ++ s.bus.trace ++ es) ∧
    (∃ es, t.earlier ++ t.traceNow = s.earlier ++ s.traceNow ++ es) ∧
    ((∀ rest, s.inputs ≠ .resetAssert :: rest) →
      t.earlier = s.earlier ∧ (∃ es, t.bus.trace = s.bus.trace ++ es) ∧ ∃ es, t.traceNow = s.traceNow ++ es)

/-! ### Drawing commands (42_framebuffer.md) -/

/-- R183, with 42_framebuffer.md R180's frame: every byte of FB, padding included, whatever the orientation; twice is the
same as once. -/
def Obligations.ClearFillsEveryByte : Prop :=
  encode (.clear false) = 0x00000020#32 ∧ encode (.clear true) = 0x00000120#32 ∧
  ∀ (white : Bool) (s : State), ∃ t, exec (.clear white) s = .next t ∧ Completes .ok s.flags s t ∧ DrawFrame s t ∧
    (∀ i < 4000, t.fb i = if white then 0xFF#8 else 0x00#8) ∧ SameBytesOutsideFb s t ∧
    ∃ u, exec (.clear white) t = .next u ∧ u.mem = t.mem

/-- R184, R181, R76 to R81: PIXEL draws its one point, and in numbers: which byte and bit it writes in portrait and in
landscape, and that a point outside the frame changes no byte. -/
def Obligations.PixelWritesOneBit : Prop :=
  encode (.pixel false) = 0x00000021#32 ∧ encode (.pixel true) = 0x00000121#32 ∧
  ∀ (white : Bool) (s : State), ∃ t, exec (.pixel white) s = .next t ∧ Completes .ok s.flags s t ∧ DrawFrame s t ∧
    Draws white (shapeOf (.pixel white) s) s t ∧
    ∀ X Y : Int, s.pt0 = (X, Y) → ∀ W H : Int,
      (W = if s.snap.orient then 250 else 122) → (H = if s.snap.orient then 122 else 250) →
      (¬ (0 ≤ X ∧ X < W ∧ 0 ≤ Y ∧ Y < H) → SameBytes s t) ∧
      (0 ≤ X → X < W → 0 ≤ Y → Y < H → ∀ xn yn : Nat,
        ((xn : Int) = if s.snap.orient then 121 - Y else X) → ((yn : Int) = if s.snap.orient then X else Y) →
        t.fb (yn * 16 + xn / 8) =
          (if white then s.fb (yn * 16 + xn / 8) ||| (0x80#8 >>> (xn % 8))
            else s.fb (yn * 16 + xn / 8) &&& ~~~(0x80#8 >>> (xn % 8))) ∧
        ∀ k, k ≠ yn * 16 + xn / 8 → t.fb k = s.fb k)

/-- R185, R82, R39: GET_PIXEL writes RESULT and nothing else beside its completion. -/
def Obligations.GetPixelReadsOneBit : Prop :=
  encode .getPixel = 0x00000022#32 ∧
  ∀ (s : State) (X Y W H : Int), s.pt0 = (X, Y) →
    (W = if s.snap.orient then 250 else 122) → (H = if s.snap.orient then 122 else 250) →
    ∃ r : Word, exec .getPixel s = .next (State.finish .ok { s with regs := { s.regs with result := r } }) ∧
      (¬ (0 ≤ X ∧ X < W ∧ 0 ≤ Y ∧ Y < H) → r = 0x80000000#32) ∧
      (0 ≤ X → X < W → 0 ≤ Y → Y < H → ∀ xn yn : Nat,
        ((xn : Int) = if s.snap.orient then 121 - Y else X) → ((yn : Int) = if s.snap.orient then X else Y) →
        r = ((s.fb (yn * 16 + xn / 8) >>> (7 - xn % 8)) &&& 1#8).setWidth 32)

/-- R186: LINE draws exactly the points of the walk. -/
def Obligations.LineDrawsItsWalk : Prop :=
  encode (.line false) = 0x00000023#32 ∧ encode (.line true) = 0x00000123#32 ∧
  ∀ (white : Bool) (s : State), ∃ t, exec (.line white) s = .next t ∧ Completes .ok s.flags s t ∧ DrawFrame s t ∧
    Draws white (InLine s.pt0 s.pt1) s t

/-- R186: the walk reaches its end after exactly max(dx, -dy) turns; the set is the same with the endpoints swapped and
holds both of them; equal endpoints give one point; horizontal, vertical and 45 degree lines are the points between. -/
def Obligations.LineWalkEndsAndIsSymmetric : Prop :=
  ∀ a b : Point,
    (linePoints a b).length = (max |b.1 - a.1| |b.2 - a.2|).toNat + 1 ∧
    (∀ p, p ∈ linePoints a b ↔ InLine a b p) ∧ (∀ p, InLine a b p ↔ InLine b a p) ∧ InLine a b a ∧ InLine a b b ∧
    (∀ p, InLine a a p ↔ p = a) ∧
    (a.2 = b.2 → ∀ p, InLine a b p ↔ p.2 = a.2 ∧ min a.1 b.1 ≤ p.1 ∧ p.1 ≤ max a.1 b.1) ∧
    (a.1 = b.1 → ∀ p, InLine a b p ↔ p.1 = a.1 ∧ min a.2 b.2 ≤ p.2 ∧ p.2 ≤ max a.2 b.2) ∧
    (|b.1 - a.1| = |b.2 - a.2| → ∀ p, InLine a b p ↔
      |p.1 - a.1| = |p.2 - a.2| ∧ min a.1 b.1 ≤ p.1 ∧ p.1 ≤ max a.1 b.1 ∧ min a.2 b.2 ≤ p.2 ∧ p.2 ≤ max a.2 b.2)

/-- R187, R188: RECT draws the border of the rectangle and RECTF all of it, corners in either order. -/
def Obligations.RectanglesDrawBorderAndInside : Prop :=
  encode (.rect false) = 0x00000024#32 ∧ encode (.rect true) = 0x00000124#32 ∧
  encode (.rectf false) = 0x00000224#32 ∧ encode (.rectf true) = 0x00000324#32 ∧
  ∀ (white : Bool) (s : State),
    (∃ t, exec (.rect white) s = .next t ∧ Completes .ok s.flags s t ∧ DrawFrame s t ∧
      Draws white (InRect s.pt0 s.pt1) s t) ∧
    ∃ t, exec (.rectf white) s = .next t ∧ Completes .ok s.flags s t ∧ DrawFrame s t ∧
      Draws white (InRectf s.pt0 s.pt1) s t

/-- R189: CIRCLE draws exactly the points of the loop, for every radius; the set is symmetric under both reflections
through the centre and under swapping the axes; R = 0 is the centre and R = 1 the four points at distance 1. -/
def Obligations.CircleDrawsItsWalk : Prop :=
  encode (.circle false) = 0x00000025#32 ∧ encode (.circle true) = 0x00000125#32 ∧
  (∀ (white : Bool) (s : State), ∃ t, exec (.circle white) s = .next t ∧ Completes .ok s.flags s t ∧ DrawFrame s t ∧
    Draws white (InCircle s.pt0 s.lowArg1) s t) ∧
  ∀ (c p : Point) (r : Nat),
    (InCircle c r p ↔ InCircle c r (2 * c.1 - p.1, p.2)) ∧ (InCircle c r p ↔ InCircle c r (p.1, 2 * c.2 - p.2)) ∧
    (InCircle c r p ↔ InCircle c r (c.1 + (p.2 - c.2), c.2 + (p.1 - c.1))) ∧
    (InCircle c 0 p ↔ p = c) ∧ (InCircle c 1 p ↔ |p.1 - c.1| + |p.2 - c.2| = 1)

/-- R190: CIRCLEF draws exactly the spans of the loop, for every radius; the set holds the CIRCLE set of the same operands
and lies in the square of the radius; R = 0 is the centre. -/
def Obligations.FilledCircleDrawsItsSpans : Prop :=
  encode (.circlef false) = 0x00000225#32 ∧ encode (.circlef true) = 0x00000325#32 ∧
  (∀ (white : Bool) (s : State), ∃ t, exec (.circlef white) s = .next t ∧ Completes .ok s.flags s t ∧ DrawFrame s t ∧
    Draws white (InCirclef s.pt0 s.lowArg1) s t) ∧
  ∀ (c p : Point) (r : Nat),
    (InCircle c r p → InCirclef c r p) ∧ (InCirclef c r p → |p.1 - c.1| ≤ r ∧ |p.2 - c.2| ≤ r) ∧
    (InCirclef c 0 p ↔ p = c)

/-- R191: a glyph that does not fit in the buffer completes INVALID_ARGUMENT with no other effect; any other draws its ink,
clipped, and leaves what lies under its transparent bits. -/
def Obligations.BlitDrawsTheInk : Prop :=
  encode (.blit false) = 0x00000026#32 ∧ encode (.blit true) = 0x00000126#32 ∧
  ∀ (white : Bool) (s : State),
    ((s.lowArg1 + 7) / 8 * s.highArg1 > 512 → exec (.blit white) s = .next (s.finish .invalidArgument)) ∧
    ((s.lowArg1 + 7) / 8 * s.highArg1 ≤ 512 →
      ∃ t, exec (.blit white) s = .next t ∧ Completes .ok s.flags s t ∧ DrawFrame s t ∧
        Draws white (InBlit s s.pt0.1 (s.pt0.2 - s.lowArg2) s.lowArg1 s.highArg1) s t)

/-- R194: a shape command whose points all lie outside the frame leaves every byte unchanged. -/
def Obligations.ClippedShapeChangesNoByte : Prop :=
  ∀ (i : Instr) (s : State), isShape i = true →
    (∀ p, shapeOf i s p → ¬ (0 ≤ p.1 ∧ p.1 < (if s.snap.orient then 250 else 122) ∧
      0 ≤ p.2 ∧ p.2 < (if s.snap.orient then 122 else 250))) →
    ∃ t, exec i s = .next t ∧ SameBytes s t

/-- R192, R180: a drawing command reads only FB, GLYPH, its operands and the orientation. Two states that agree on these
leave the same FB, the same RESULT of a GET_PIXEL and the same code. -/
def Obligations.DrawingDependsOnlyOnItsInputs : Prop :=
  ∀ (i : Instr) (s u : State), (isShape i = true ∨ i = .getPixel ∨ i = .clear i.color) →
    (∀ k < 4000, u.fb k = s.fb k) → (∀ k < 512, u.glyph k = s.glyph k) → u.snap.orient = s.snap.orient →
    u.snap.arg0 = s.snap.arg0 → u.snap.arg1 = s.snap.arg1 → u.snap.arg2 = s.snap.arg2 →
    ∃ t v, exec i s = .next t ∧ exec i u = .next v ∧ (∀ k < 4000, v.fb k = t.fb k) ∧
      v.flags.lastCode = t.flags.lastCode ∧ (i = .getPixel → v.regs.result = t.regs.result)

/-- R193: write a logical bitmap with one PIXEL a point, then GET_PIXEL at any of the points returns the bitmap's value.
The points may come in any order and with repeats. -/
def Obligations.PackingRoundTrip : Prop :=
  ∀ (s : State) (B : Point → Bool) (ps : List Point),
    (∀ p ∈ ps, 0 ≤ p.1 ∧ p.1 < (if s.snap.orient then 250 else 122) ∧
      0 ≤ p.2 ∧ p.2 < (if s.snap.orient then 122 else 250)) →
    ∃ t, drawBitmap B ps s = .next t ∧
      ∀ p ∈ ps, ∃ u, exec .getPixel (t.atPoint p) = .next u ∧ u.regs.result = if B p then 1#32 else 0#32

/-! ### The refresh scenario (41_refresh_fsm.md R169) -/

/-- R169. Between the commands the host makes any accesses it likes: they issue the next command and make FB = F2. -/
def Obligations.PartialUpdateScenarioKeepsF1Outside : Prop :=
  ∀ (s0 s1 f1 s2 f2 s3 : State) (as bs : List Access) (X Y : Int) (Wd Ht : Nat),
    exec .initFull s0 = .next s1 → s1.flags.lastCode = .ok →
    f1 = as.foldl (fun u a => u.hostAccess a) s1 → exec .commitBase f1 = .next s2 →
    f2 = bs.foldl (fun u a => u.hostAccess a) s2 → exec .displayPartial f2 = .next s3 → s3.flags.lastCode = .ok →
    f2.pt0 = (X, Y) → f2.lowArg1 = Wd → f2.highArg1 = Ht →
    s2.flags.lastCode = .ok ∧
    (∀ i < 4000, (inWindow X Y Wd Ht i → s3.base i = f2.fb i) ∧ (¬ inWindow X Y Wd Ht i → s3.base i = f1.fb i)) ∧
    s3.bus.trace = f1.bus.trace ++ fullBankEvents (Config.pcmd .wro) f1 ++ fullBankEvents (Config.pcmd .wrn) f1 ++
      partialEvents X Y Wd Ht f2 ++ [Event.wait f2.snap.tPartial.toNat .idle]

/-! ### Invariants that every step keeps -/

/-- R23: invariants I-a, I-b and I-c hold in the reset state and after every step from a state where they hold. -/
def Obligations.StepKeepsTheSessionInvariants : Prop :=
  State.reset.session.legal ∧ ∀ s t : State, s.session.legal → step s = .next t → t.session.legal

/-- R25: the lines are all released while the transport is closed, and driven at their idle levels while it is open. -/
def Obligations.StepKeepsTheLinesLegal : Prop :=
  ∀ s t : State, s.linesLegal → step s = .next t → t.linesLegal

/-- The byte arrays keep their canonical form (the model's own, log entry 3). -/
def Obligations.StepKeepsMemoryCanonical : Prop :=
  ∀ s t : State, s.mem.wf → step s = .next t → t.mem.wf

/-- R42, R120, R128: hold times never fall below 10 ms, a reset pulse never shows less, and no transaction is empty. R35,
R36, R37, R39, R217: FIRST_ERR is OK exactly while ERR is 0; a running command has DONE = 0 and its word in CMD; RESULT's
reserved bits stay 0. Two parts rest on the model's choices: the snapshot's hold times after a block reset (log entry 10) and
the place at its start while no command runs (log entry 9). -/
def Obligations.StepKeepsRegistersAndTraceLegal : Prop :=
  ∀ s t : State, step s = .next t →
    (s.holdsLegal → s.traceLegal → t.holdsLegal ∧ t.traceLegal) ∧ (s.flags.legal → t.flags.legal) ∧
    (s.seqLegal → t.seqLegal) ∧ (s.resultLegal → t.resultLegal)

/-- Every invariant holds at reset (10_state.md R49, 70_reset_and_hazards.md R242). Two parts rest on the model's choices: the
snapshot's hold times (log entry 10) and the memory that lists nothing (log entry 3). -/
def Obligations.ResetMeetsEveryInvariant : Prop :=
  State.reset.session.legal ∧ State.reset.linesLegal ∧ State.reset.mem.wf ∧ State.reset.holdsLegal ∧
  State.reset.traceLegal ∧ State.reset.flags.legal ∧ State.reset.seqLegal ∧ State.reset.resultLegal

/-! ### The host's side: the assembler (30_encoding.md R105) -/

/-- R105: the host writes a command statement assembles to, made on an idle block, issue its instruction with exactly the
operands of the statement. -/
def Obligations.AssembledCommandIsIssuedWithItsOperands : Prop :=
  ∀ (s : State) (c : CmdStmt), c.wf = true → s.seq = .idle → s.inReset = false → s.inputs = c.writes →
    ∃ t, Sys2Proof.core.run c.writes.length s = .next t ∧ t.inputs = [] ∧ t.seq = .running ∧
      decode t.snap.cmd = .ok c.instr ∧ t.holdsOperands c ∧ t.mem = s.mem ∧ t.session = s.session ∧ t.bus = s.bus

/-! ### The wires (40_transport.md R121 to R125, R129; 70_reset_and_hazards.md R252) -/

/-- R121, R122, R125, R252: from lines at rest, a transaction of n bytes takes h(16n + 3) cycles; the panel, sampling on the
rising edges of EPD_SCLK while selected, receives the bytes, most significant bit first; EPD_DC is steady at its level while
chip-select is low; EPD_MOSI changes only where EPD_SCLK is low; and the lines end at rest. R128, R123: a reset pulse holds
EPD_RST_N low for lo * MS_DIV cycles and then high for st * MS_DIV, every other line, EPD_CS_N high among them, at rest; a wait
leaves all lines at rest. R253: the cycles of each event, a wait with the two of the synchronizer beside its samples. -/
def Obligations.WireCarriesTheBytes : Prop :=
  ∀ (h : Nat) (l : Lines), 1 ≤ h → l = { Lines.atIdle with dc := l.dc } →
    (∀ (dc : Bool) (bs : List Byte), bs ≠ [] →
      (xactWave h l dc bs).length = h * (16 * bs.length + 3) ∧
      sampledBits l.sclk (xactWave h l dc bs) =
        bs.flatMap (fun b => (List.range 8).map fun k => b.getLsbD (7 - k)) ∧
      (∀ w ∈ xactWave h l dc bs, w.csN = .low → w.dc = if dc then .high else .low) ∧
      (∀ k a b, (xactWave h l dc bs)[k]? = some a → (xactWave h l dc bs)[k + 1]? = some b →
        a.mosi ≠ b.mosi → b.sclk = .low) ∧
      (xactWave h l dc bs).getLast? = some { Lines.atIdle with dc := if dc then .high else .low }) ∧
    (∀ lo st : Nat,
      (Event.wave h l (.pulse lo st)).length = (lo + st) * Config.msDiv ∧
      ∀ k w, (Event.wave h l (.pulse lo st))[k]? = some w →
        w = { l with rstN := if k < lo * Config.msDiv then .low else .high } ∧ w.csN = .high) ∧
    (∀ (t : Nat) (r : WaitOutcome), ∀ w ∈ Event.wave h l (.wait t r), w = l ∧ w.csN = .high) ∧
    ∀ e : Event, (e.wave h l).length = e.span h ∧
      e.cycles h = match e with
        | .xact _ bs => h * (16 * bs.length + 3)
        | .pulse lo st => (lo + st) * Config.msDiv
        | .wait t _ => t * Config.msDiv + 1 + 2
        | _ => 0

/-- R26: a clock edge moves the level on EPD_BUSY into the first stage of the synchronizer and the first stage into the
second, and changes nothing else; after two edges at one level STATUS.PANEL_BUSY says whether it is BUSY_ACTIVE. R129, R253: a
wait's sample at cycle c is the second stage at its start for c = 0, the first stage for c = 1, and the level on the pin two
cycles before from then on. With the panel's answer read off these samples, a wait of `t` ms ends Idle exactly when a sample up
to cycle t * MS_DIV reads not busy, so at the latest two cycles after the pin does; with t = 0 one sample decides. That the
answers stand in State is log entry 2; that the edges shift the stages also while `rst_n` is 0 is the model's choice (log entry 5). -/
def Obligations.WaitEndsWithinItsBound : Prop :=
  (∀ (s : State) (b : Bool) (rest : List Input),
    (s.inputs = .clk b :: rest →
      step s = .next { s with panel := { s.panel with pin := b, sync1 := b, sync2 := s.panel.sync1 }, inputs := rest }) ∧
    (s.inputs = .clk b :: .clk b :: rest →
      ∃ t, Sys2Proof.core.run 2 s = .next t ∧ t.statusWord.getLsbD 17 = (b == Config.busyActive))) ∧
  ∀ (s : State) (p : Panel) (pins : List Bool) (rest : List (Option Nat)) (t : Nat),
    s.panel.answers = firstIdle (busySamples p pins) :: rest →
    (∀ c ≤ pins.length, ((pins.take c).foldl (fun q b => q.clk b) p).sync2 = (p.sync2 :: p.sync1 :: pins)[c]?.getD false ∧
      (busySamples p pins)[c]? = some ((p.sync2 :: p.sync1 :: pins)[c]?.getD false == Config.busyActive)) ∧
    (s.waitResult t = .idle ↔
      ∃ c ≤ t * Config.msDiv, c ≤ pins.length ∧
        ∃ b, (p.sync2 :: p.sync1 :: pins)[c]? = some b ∧ b ≠ Config.busyActive) ∧
    (s.waitResult t = .timeout ↔
      ∀ c ≤ t * Config.msDiv, c ≤ pins.length →
        ∀ b, (p.sync2 :: p.sync1 :: pins)[c]? = some b → b = Config.busyActive) ∧
    (∀ k b, pins[k]? = some b → b ≠ Config.busyActive → k + 2 ≤ pins.length → k + 2 ≤ t * Config.msDiv →
      s.waitResult t = .idle) ∧
    (s.waitIdle t).bus.trace = s.bus.trace ++ [Event.wait t (s.waitResult t)] ∧
    (s.waitIdle t).panel.answers = rest
end

