-- ==== Sys2Proof/Laws/State.lean ====
section
/-! SUPPORT. The record updates of State: one simp lemma per field per named update, so that no proof unfolds an update. -/

namespace Sys2Proof.Machine

section
variable (s : State)

@[simp] theorem State.setByte_session (a : Nat) (v : Byte) : (s.setByte a v).session = s.session := rfl
@[simp] theorem State.setByte_bus (a : Nat) (v : Byte) : (s.setByte a v).bus = s.bus := rfl
@[simp] theorem State.setByte_mem (a : Nat) (v : Byte) : (s.setByte a v).mem = s.mem.put a v := rfl
@[simp] theorem State.setByte_regs (a : Nat) (v : Byte) : (s.setByte a v).regs = s.regs := rfl
@[simp] theorem State.setByte_snap (a : Nat) (v : Byte) : (s.setByte a v).snap = s.snap := rfl
@[simp] theorem State.setByte_flags (a : Nat) (v : Byte) : (s.setByte a v).flags = s.flags := rfl
@[simp] theorem State.setByte_seq (a : Nat) (v : Byte) : (s.setByte a v).seq = s.seq := rfl
@[simp] theorem State.setByte_pos (a : Nat) (v : Byte) : (s.setByte a v).pos = s.pos := rfl
@[simp] theorem State.setByte_panel (a : Nat) (v : Byte) : (s.setByte a v).panel = s.panel := rfl
@[simp] theorem State.setByte_inReset (a : Nat) (v : Byte) : (s.setByte a v).inReset = s.inReset := rfl
@[simp] theorem State.setByte_inputs (a : Nat) (v : Byte) : (s.setByte a v).inputs = s.inputs := rfl
@[simp] theorem State.setByte_resp (a : Nat) (v : Byte) : (s.setByte a v).resp = s.resp := rfl
@[simp] theorem State.setByte_ramEpoch (a : Nat) (v : Byte) : (s.setByte a v).ramEpoch = s.ramEpoch := rfl
@[simp] theorem State.setByte_readDraws (a : Nat) (v : Byte) : (s.setByte a v).readDraws = s.readDraws := rfl
@[simp] theorem State.setByte_earlier (a : Nat) (v : Byte) : (s.setByte a v).earlier = s.earlier := rfl

@[simp] theorem State.setBytes_session (a : Nat) (bs : List Byte) : (s.setBytes a bs).session = s.session := rfl
@[simp] theorem State.setBytes_bus (a : Nat) (bs : List Byte) : (s.setBytes a bs).bus = s.bus := rfl
@[simp] theorem State.setBytes_mem (a : Nat) (bs : List Byte) : (s.setBytes a bs).mem = s.mem.putRange a bs := rfl
@[simp] theorem State.setBytes_regs (a : Nat) (bs : List Byte) : (s.setBytes a bs).regs = s.regs := rfl
@[simp] theorem State.setBytes_snap (a : Nat) (bs : List Byte) : (s.setBytes a bs).snap = s.snap := rfl
@[simp] theorem State.setBytes_flags (a : Nat) (bs : List Byte) : (s.setBytes a bs).flags = s.flags := rfl
@[simp] theorem State.setBytes_seq (a : Nat) (bs : List Byte) : (s.setBytes a bs).seq = s.seq := rfl
@[simp] theorem State.setBytes_pos (a : Nat) (bs : List Byte) : (s.setBytes a bs).pos = s.pos := rfl
@[simp] theorem State.setBytes_panel (a : Nat) (bs : List Byte) : (s.setBytes a bs).panel = s.panel := rfl
@[simp] theorem State.setBytes_inReset (a : Nat) (bs : List Byte) : (s.setBytes a bs).inReset = s.inReset := rfl
@[simp] theorem State.setBytes_inputs (a : Nat) (bs : List Byte) : (s.setBytes a bs).inputs = s.inputs := rfl
@[simp] theorem State.setBytes_resp (a : Nat) (bs : List Byte) : (s.setBytes a bs).resp = s.resp := rfl
@[simp] theorem State.setBytes_ramEpoch (a : Nat) (bs : List Byte) : (s.setBytes a bs).ramEpoch = s.ramEpoch := rfl
@[simp] theorem State.setBytes_readDraws (a : Nat) (bs : List Byte) : (s.setBytes a bs).readDraws = s.readDraws := rfl
@[simp] theorem State.setBytes_earlier (a : Nat) (bs : List Byte) : (s.setBytes a bs).earlier = s.earlier := rfl

@[simp] theorem State.emit_session (es : List Event) : (s.emit es).session = s.session := rfl
@[simp] theorem State.emit_bus (es : List Event) : (s.emit es).bus = ⟨restAfter s.bus.lines es, s.bus.trace ++ es⟩ := rfl
@[simp] theorem State.emit_mem (es : List Event) : (s.emit es).mem = s.mem := rfl
@[simp] theorem State.emit_regs (es : List Event) : (s.emit es).regs = s.regs := rfl
@[simp] theorem State.emit_snap (es : List Event) : (s.emit es).snap = s.snap := rfl
@[simp] theorem State.emit_flags (es : List Event) : (s.emit es).flags = s.flags := rfl
@[simp] theorem State.emit_seq (es : List Event) : (s.emit es).seq = s.seq := rfl
@[simp] theorem State.emit_pos (es : List Event) : (s.emit es).pos = s.pos := rfl
@[simp] theorem State.emit_panel (es : List Event) : (s.emit es).panel = s.panel := rfl
@[simp] theorem State.emit_inReset (es : List Event) : (s.emit es).inReset = s.inReset := rfl
@[simp] theorem State.emit_inputs (es : List Event) : (s.emit es).inputs = s.inputs := rfl
@[simp] theorem State.emit_resp (es : List Event) : (s.emit es).resp = s.resp := rfl
@[simp] theorem State.emit_ramEpoch (es : List Event) : (s.emit es).ramEpoch = s.ramEpoch := rfl
@[simp] theorem State.emit_readDraws (es : List Event) : (s.emit es).readDraws = s.readDraws := rfl
@[simp] theorem State.emit_earlier (es : List Event) : (s.emit es).earlier = s.earlier := rfl

@[simp] theorem State.waitIdle_session (t : Nat) : (s.waitIdle t).session = s.session := rfl
@[simp] theorem State.waitIdle_bus (t : Nat) : (s.waitIdle t).bus = ⟨s.bus.lines, s.bus.trace ++ [.wait t (s.waitResult t)]⟩ := rfl
@[simp] theorem State.waitIdle_mem (t : Nat) : (s.waitIdle t).mem = s.mem := rfl
@[simp] theorem State.waitIdle_regs (t : Nat) : (s.waitIdle t).regs = s.regs := rfl
@[simp] theorem State.waitIdle_snap (t : Nat) : (s.waitIdle t).snap = s.snap := rfl
@[simp] theorem State.waitIdle_flags (t : Nat) : (s.waitIdle t).flags = s.flags := rfl
@[simp] theorem State.waitIdle_seq (t : Nat) : (s.waitIdle t).seq = s.seq := rfl
@[simp] theorem State.waitIdle_pos (t : Nat) : (s.waitIdle t).pos = s.pos := rfl
@[simp] theorem State.waitIdle_panel (t : Nat) : (s.waitIdle t).panel = s.panel.afterWait := rfl
@[simp] theorem State.waitIdle_inReset (t : Nat) : (s.waitIdle t).inReset = s.inReset := rfl
@[simp] theorem State.waitIdle_inputs (t : Nat) : (s.waitIdle t).inputs = s.inputs := rfl
@[simp] theorem State.waitIdle_resp (t : Nat) : (s.waitIdle t).resp = s.resp := rfl
@[simp] theorem State.waitIdle_ramEpoch (t : Nat) : (s.waitIdle t).ramEpoch = s.ramEpoch := rfl
@[simp] theorem State.waitIdle_readDraws (t : Nat) : (s.waitIdle t).readDraws = s.readDraws := rfl
@[simp] theorem State.waitIdle_earlier (t : Nat) : (s.waitIdle t).earlier = s.earlier := rfl

@[simp] theorem State.issue_session (w : Word) : (s.issue w).session = s.session := rfl
@[simp] theorem State.issue_bus (w : Word) : (s.issue w).bus = s.bus := rfl
@[simp] theorem State.issue_mem (w : Word) : (s.issue w).mem = s.mem := rfl
@[simp] theorem State.issue_regs (w : Word) : (s.issue w).regs = { s.regs with cmd := w } := rfl
@[simp] theorem State.issue_snap (w : Word) : (s.issue w).snap = s.regs.snapshot w := rfl
@[simp] theorem State.issue_flags (w : Word) : (s.issue w).flags = s.flags.issue := rfl
@[simp] theorem State.issue_seq (w : Word) : (s.issue w).seq = .running := rfl
@[simp] theorem State.issue_pos (w : Word) : (s.issue w).pos = ⟨0, 0⟩ := rfl
@[simp] theorem State.issue_panel (w : Word) : (s.issue w).panel = s.panel := rfl
@[simp] theorem State.issue_inReset (w : Word) : (s.issue w).inReset = s.inReset := rfl
@[simp] theorem State.issue_inputs (w : Word) : (s.issue w).inputs = s.inputs := rfl
@[simp] theorem State.issue_resp (w : Word) : (s.issue w).resp = s.resp := rfl
@[simp] theorem State.issue_ramEpoch (w : Word) : (s.issue w).ramEpoch = s.ramEpoch := rfl
@[simp] theorem State.issue_readDraws (w : Word) : (s.issue w).readDraws = s.readDraws := rfl
@[simp] theorem State.issue_earlier (w : Word) : (s.issue w).earlier = s.earlier := rfl

@[simp] theorem State.finish_session (c : Code) : (s.finish c).session = s.session := rfl
@[simp] theorem State.finish_bus (c : Code) : (s.finish c).bus = s.bus := rfl
@[simp] theorem State.finish_mem (c : Code) : (s.finish c).mem = s.mem := rfl
@[simp] theorem State.finish_regs (c : Code) : (s.finish c).regs = s.regs := rfl
@[simp] theorem State.finish_snap (c : Code) : (s.finish c).snap = s.snap := rfl
@[simp] theorem State.finish_flags (c : Code) : (s.finish c).flags = s.flags.complete c := rfl
@[simp] theorem State.finish_seq (c : Code) : (s.finish c).seq = .idle := rfl
@[simp] theorem State.finish_pos (c : Code) : (s.finish c).pos = ⟨0, 0⟩ := rfl
@[simp] theorem State.finish_panel (c : Code) : (s.finish c).panel = s.panel := rfl
@[simp] theorem State.finish_inReset (c : Code) : (s.finish c).inReset = s.inReset := rfl
@[simp] theorem State.finish_inputs (c : Code) : (s.finish c).inputs = s.inputs := rfl
@[simp] theorem State.finish_resp (c : Code) : (s.finish c).resp = s.resp := rfl
@[simp] theorem State.finish_ramEpoch (c : Code) : (s.finish c).ramEpoch = s.ramEpoch := rfl
@[simp] theorem State.finish_readDraws (c : Code) : (s.finish c).readDraws = s.readDraws := rfl
@[simp] theorem State.finish_earlier (c : Code) : (s.finish c).earlier = s.earlier := rfl

@[simp] theorem State.setSession_session (x : Session) : (s.setSession x).session = x := rfl
@[simp] theorem State.setSession_bus (x : Session) : (s.setSession x).bus = s.bus := rfl
@[simp] theorem State.setSession_mem (x : Session) : (s.setSession x).mem = s.mem := rfl
@[simp] theorem State.setSession_regs (x : Session) : (s.setSession x).regs = s.regs := rfl
@[simp] theorem State.setSession_snap (x : Session) : (s.setSession x).snap = s.snap := rfl
@[simp] theorem State.setSession_flags (x : Session) : (s.setSession x).flags = s.flags := rfl
@[simp] theorem State.setSession_seq (x : Session) : (s.setSession x).seq = s.seq := rfl
@[simp] theorem State.setSession_pos (x : Session) : (s.setSession x).pos = s.pos := rfl
@[simp] theorem State.setSession_panel (x : Session) : (s.setSession x).panel = s.panel := rfl
@[simp] theorem State.setSession_inReset (x : Session) : (s.setSession x).inReset = s.inReset := rfl
@[simp] theorem State.setSession_inputs (x : Session) : (s.setSession x).inputs = s.inputs := rfl
@[simp] theorem State.setSession_resp (x : Session) : (s.setSession x).resp = s.resp := rfl
@[simp] theorem State.setSession_ramEpoch (x : Session) : (s.setSession x).ramEpoch = s.ramEpoch := rfl
@[simp] theorem State.setSession_readDraws (x : Session) : (s.setSession x).readDraws = s.readDraws := rfl
@[simp] theorem State.setSession_earlier (x : Session) : (s.setSession x).earlier = s.earlier := rfl

@[simp] theorem State.enter_session (f : Fsm) : (s.enter f).session = { s.session with fsm := f, baseValid := false, pcount := 0#16 } := rfl
@[simp] theorem State.enter_bus (f : Fsm) : (s.enter f).bus = s.bus := rfl
@[simp] theorem State.enter_mem (f : Fsm) : (s.enter f).mem = s.mem := rfl
@[simp] theorem State.enter_regs (f : Fsm) : (s.enter f).regs = s.regs := rfl
@[simp] theorem State.enter_snap (f : Fsm) : (s.enter f).snap = s.snap := rfl
@[simp] theorem State.enter_flags (f : Fsm) : (s.enter f).flags = s.flags := rfl
@[simp] theorem State.enter_seq (f : Fsm) : (s.enter f).seq = s.seq := rfl
@[simp] theorem State.enter_pos (f : Fsm) : (s.enter f).pos = s.pos := rfl
@[simp] theorem State.enter_panel (f : Fsm) : (s.enter f).panel = s.panel := rfl
@[simp] theorem State.enter_inReset (f : Fsm) : (s.enter f).inReset = s.inReset := rfl
@[simp] theorem State.enter_inputs (f : Fsm) : (s.enter f).inputs = s.inputs := rfl
@[simp] theorem State.enter_resp (f : Fsm) : (s.enter f).resp = s.resp := rfl
@[simp] theorem State.enter_ramEpoch (f : Fsm) : (s.enter f).ramEpoch = s.ramEpoch := rfl
@[simp] theorem State.enter_readDraws (f : Fsm) : (s.enter f).readDraws = s.readDraws := rfl
@[simp] theorem State.enter_earlier (f : Fsm) : (s.enter f).earlier = s.earlier := rfl

end

@[simp] theorem State.enterFault_eq (s : State) : s.enterFault = s.enter .fault := rfl

@[simp] theorem Flags.complete_lastCode (c : Code) (f : Flags) : (f.complete c).lastCode = c := rfl
@[simp] theorem Flags.complete_done (c : Code) (f : Flags) : (f.complete c).done = true := rfl
@[simp] theorem Flags.complete_overrun (c : Code) (f : Flags) : (f.complete c).overrun = f.overrun := rfl
@[simp] theorem Flags.complete_dropped (c : Code) (f : Flags) : (f.complete c).dropped = f.dropped := rfl
@[simp] theorem Flags.complete_auxCode (c : Code) (f : Flags) : (f.complete c).auxCode = f.auxCode := rfl
@[simp] theorem Flags.complete_auxValid (c : Code) (f : Flags) : (f.complete c).auxValid = f.auxValid := rfl
@[simp] theorem Flags.complete_err (c : Code) (f : Flags) :
    (f.complete c).err = if c ≠ .ok then true else f.err := rfl
@[simp] theorem Flags.complete_firstErr (c : Code) (f : Flags) :
    (f.complete c).firstErr = if c ≠ .ok ∧ f.err = false then c else f.firstErr := rfl

@[simp] theorem Panel.afterWait_pin (p : Panel) : p.afterWait.pin = p.pin := by
  unfold Panel.afterWait; split <;> rfl
@[simp] theorem Panel.afterWait_sync1 (p : Panel) : p.afterWait.sync1 = p.sync1 := by
  unfold Panel.afterWait; split <;> rfl
@[simp] theorem Panel.afterWait_sync2 (p : Panel) : p.afterWait.sync2 = p.sync2 := by
  unfold Panel.afterWait; split <;> rfl

/-- The byte at an offset depends on the memory and the RAM's epoch only. -/
theorem State.byteAt_congr {s t : State} (hm : t.mem = s.mem) (he : t.ramEpoch = s.ramEpoch) (a : Nat) :
    t.byteAt a = s.byteAt a := by simp [State.byteAt, hm, he]

/-! ### The bytes under the updates that leave the memory alone -/

section
variable (s : State) (a : Nat)

@[simp] theorem State.emit_byteAt (es : List Event) : (s.emit es).byteAt a = s.byteAt a := rfl
@[simp] theorem State.waitIdle_byteAt (t : Nat) : (s.waitIdle t).byteAt a = s.byteAt a := rfl
@[simp] theorem State.issue_byteAt (w : Word) : (s.issue w).byteAt a = s.byteAt a := rfl
@[simp] theorem State.finish_byteAt (c : Code) : (s.finish c).byteAt a = s.byteAt a := rfl
@[simp] theorem State.setSession_byteAt (x : Session) : (s.setSession x).byteAt a = s.byteAt a := rfl
@[simp] theorem State.enter_byteAt (f : Fsm) : (s.enter f).byteAt a = s.byteAt a := rfl

end

end Sys2Proof.Machine
end

