-- ==== Sys2Proof/Laws/Memory.lean ====
section
/-! SUPPORT. The laws of the byte arrays: a read after a write, what a write leaves alone, and that every operation keeps
the canonical form `Memory.wf`. -/

namespace Sys2Proof.Machine

/-! ### Cells -/

@[simp] theorem cellsFrom_nil (a : Nat) : cellsFrom a [] = [] := rfl
@[simp] theorem cellsFrom_cons (a : Nat) (b : Byte) (bs : List Byte) :
    cellsFrom a (b :: bs) = (a, b) :: cellsFrom (a + 1) bs := rfl

theorem mem_cellsFrom {c : Host.Cell} {a : Nat} {bs : List Byte} (h : c ∈ cellsFrom a bs) :
    a ≤ c.1 ∧ c.1 < a + bs.length := by
  induction bs generalizing a with
  | nil => simp at h
  | cons b bs ih =>
    rcases List.mem_cons.mp h with rfl | h
    · simp
    · have := ih h; simp; omega

theorem cellsFrom_rising (a : Nat) (bs : List Byte) : (cellsFrom a bs).Pairwise (fun c d => c.1 < d.1) := by
  induction bs generalizing a with
  | nil => simp
  | cons b bs ih =>
    refine List.pairwise_cons.mpr ⟨fun c hc => ?_, ih _⟩
    have := mem_cellsFrom hc; simp; omega

theorem get?_cellsFrom (a : Nat) (bs : List Byte) (x : Nat) :
    Memory.get? (cellsFrom a bs) x = if a ≤ x then bs[x - a]? else none := by
  induction bs generalizing a with
  | nil => simp [Memory.get?]
  | cons b bs ih =>
    by_cases hx : a = x
    · subst hx; simp [Memory.get?]
    · by_cases h : a ≤ x
      · have h1 : a + 1 ≤ x := by omega
        have h2 : x - a = (x - (a + 1)) + 1 := by omega
        simp [Memory.get?, hx, ih, h, h1, h2]
      · simp [Memory.get?, hx, ih, h, show ¬ a + 1 ≤ x by omega]

/-! ### Reading -/

@[simp] theorem get?_nil (a : Nat) : Memory.get? [] a = none := rfl

theorem get?_append (m n : Memory) (x : Nat) :
    Memory.get? (m ++ n) x = (Memory.get? m x).or (Memory.get? n x) := by
  induction m with
  | nil => simp [Memory.get?]
  | cons c m ih => by_cases h : c.1 = x <;> simp [Memory.get?, h, ih]

/-- A lookup in the cells that pass a test on the address. -/
theorem get?_filter (m : Memory) (f : Nat → Bool) (x : Nat) :
    Memory.get? (m.filter fun c => f c.1) x = if f x then Memory.get? m x else none := by
  induction m with
  | nil => simp [Memory.get?]
  | cons c m ih =>
    by_cases hc : f c.1
    · by_cases hx : c.1 = x
      · subst hx; simp [Memory.get?, hc]
      · simp [Memory.get?, hc, hx, ih]
    · by_cases hx : c.1 = x
      · subst hx; simp [hc, ih]
      · simp [Memory.get?, hc, hx, ih]

theorem get?_put (m : Memory) (a : Nat) (v : Byte) (x : Nat) :
    (m.put a v).get? x = if x = a then some v else m.get? x := by
  induction m with
  | nil => by_cases h : a = x <;> simp [Memory.put, Memory.get?, h, eq_comm]
  | cons c m ih =>
    obtain ⟨k, b⟩ := c
    by_cases h1 : a < k
    · by_cases hx : x = a <;> simp [Memory.put, Memory.get?, h1, hx, Ne.symm]
    · by_cases h2 : a = k
      · subst h2
        by_cases hx : x = a <;> simp [Memory.put, Memory.get?, hx, Ne.symm]
      · by_cases hx : x = a
        · subst hx; simp [Memory.put, Memory.get?, h1, h2, Ne.symm h2, ih]
        · simp [Memory.put, Memory.get?, h1, h2, ih, hx]

theorem get?_putRange (m : Memory) (a : Nat) (bs : List Byte) (x : Nat) :
    (m.putRange a bs).get? x = if a ≤ x ∧ x < a + bs.length then bs[x - a]? else m.get? x := by
  unfold Memory.putRange
  rw [get?_append, get?_append, get?_filter m (fun k => decide (k < a)),
    get?_filter m (fun k => decide (a + bs.length ≤ k)), get?_cellsFrom]
  by_cases h1 : x < a
  · simp [h1, show ¬ a ≤ x by omega, show ¬ a + bs.length ≤ x by omega]
  · by_cases h2 : x < a + bs.length
    · have h3 : x - a < bs.length := by omega
      simp [h1, h2, show a ≤ x by omega, List.getElem?_eq_getElem h3]
    · have h3 : bs.length ≤ x - a := by omega
      simp [h1, h2, show a ≤ x by omega, show a + bs.length ≤ x by omega, List.getElem?_eq_none h3]

/-- A second store of as many bytes at the same place replaces the first. -/
theorem putRange_putRange (m : Memory) (a : Nat) {bs cs : List Byte} (h : bs.length = cs.length) :
    (m.putRange a bs).putRange a cs = m.putRange a cs := by
  have h1 : (cellsFrom a bs).filter (fun c => decide (c.1 < a)) = [] :=
    List.filter_eq_nil_iff.mpr fun c hc => by have := mem_cellsFrom hc; simp; omega
  have h2 : (cellsFrom a bs).filter (fun c => decide (a + cs.length ≤ c.1)) = [] :=
    List.filter_eq_nil_iff.mpr fun c hc => by have := mem_cellsFrom hc; simp; omega
  have h3 : (m.filter fun c => decide (a + bs.length ≤ c.1)).filter (fun c => decide (c.1 < a)) = [] :=
    List.filter_eq_nil_iff.mpr fun c hc => by have := (List.mem_filter.mp hc).2; simp at *; omega
  have h4 : (m.filter fun c => decide (c.1 < a)).filter (fun c => decide (a + cs.length ≤ c.1)) = [] :=
    List.filter_eq_nil_iff.mpr fun c hc => by have := (List.mem_filter.mp hc).2; simp at *; omega
  have h5 : (m.filter fun c => decide (c.1 < a)).filter (fun c => decide (c.1 < a)) = m.filter fun c => decide (c.1 < a) :=
    List.filter_eq_self.mpr fun c hc => (List.mem_filter.mp hc).2
  have h6 : (m.filter fun c => decide (a + bs.length ≤ c.1)).filter (fun c => decide (a + cs.length ≤ c.1)) =
      m.filter fun c => decide (a + cs.length ≤ c.1) := by
    rw [h]; exact List.filter_eq_self.mpr fun c hc => (List.mem_filter.mp hc).2
  simp only [Memory.putRange, List.filter_append, h1, h2, h3, h4, h5, h6, List.append_nil, List.nil_append]

theorem byteAt_setByte (s : State) (a : Nat) (v : Byte) (x : Nat) :
    (s.setByte a v).byteAt x = if x = a then v else s.byteAt x := by
  by_cases h : x = a <;> simp [State.byteAt, get?_put, h]

theorem byteAt_setBytes (s : State) (a : Nat) (bs : List Byte) (x : Nat) :
    (s.setBytes a bs).byteAt x = if a ≤ x ∧ x < a + bs.length then bs.getD (x - a) 0#8 else s.byteAt x := by
  simp only [State.byteAt, State.setBytes_mem, State.setBytes_ramEpoch, get?_putRange]
  split_ifs with h
  · have h3 : x - a < bs.length := by omega
    simp [h3]
  · rfl

/-! ### The canonical form -/

theorem wf_nil : Memory.wf [] := ⟨.nil, by simp⟩

theorem mem_put {m : Memory} {a : Nat} {v : Byte} {c : Host.Cell} (h : c ∈ m.put a v) : c = (a, v) ∨ c ∈ m := by
  induction m with
  | nil => simpa [Memory.put] using h
  | cons d m ih =>
    obtain ⟨k, b⟩ := d
    unfold Memory.put at h
    split_ifs at h
    · simpa using h
    · rcases List.mem_cons.mp h with h | h
      · exact .inl h
      · exact .inr (List.mem_cons_of_mem _ h)
    · rcases List.mem_cons.mp h with h | h
      · exact .inr (h ▸ List.mem_cons_self)
      · exact (ih h).imp_right (List.mem_cons_of_mem _)

theorem put_rising {m : Memory} (h : m.Pairwise fun c d => c.1 < d.1) (a : Nat) (v : Byte) :
    (m.put a v).Pairwise fun c d => c.1 < d.1 := by
  induction m with
  | nil => simp [Memory.put]
  | cons d m ih =>
    obtain ⟨k, b⟩ := d
    obtain ⟨hd, hm⟩ := List.pairwise_cons.mp h
    unfold Memory.put
    split_ifs with h1 h2
    · refine List.pairwise_cons.mpr ⟨fun c hc => ?_, h⟩
      rcases List.mem_cons.mp hc with rfl | hc
      · exact h1
      · exact h1.trans (hd c hc)
    · subst h2; exact List.pairwise_cons.mpr ⟨hd, hm⟩
    · refine List.pairwise_cons.mpr ⟨fun c hc => ?_, ih hm⟩
      rcases mem_put hc with rfl | hc
      · simp; omega
      · exact hd c hc

theorem put_wf {m : Memory} (h : m.wf) {a : Nat} (ha : isArray a = true) (v : Byte) : (m.put a v).wf := by
  refine ⟨put_rising h.1 a v, fun c hc => ?_⟩
  rcases mem_put hc with rfl | hc
  · exact ha
  · exact h.2 c hc

theorem putRange_wf {m : Memory} (h : m.wf) {a : Nat} {bs : List Byte}
    (ha : ∀ x, a ≤ x → x < a + bs.length → isArray x = true) : (m.putRange a bs).wf := by
  unfold Memory.putRange
  refine ⟨?_, fun c hc => ?_⟩
  · refine List.pairwise_append.mpr ⟨List.pairwise_append.mpr ⟨h.1.filter _, cellsFrom_rising a bs, ?_⟩,
      h.1.filter _, ?_⟩
    · intro c hc d hd
      have h1 := (List.mem_filter.mp hc).2
      have h2 := mem_cellsFrom hd
      simp at h1; omega
    · intro c hc d hd
      have h2 := (List.mem_filter.mp hd).2
      simp at h2
      rcases List.mem_append.mp hc with hc | hc
      · have h1 := (List.mem_filter.mp hc).2
        simp at h1; omega
      · have h1 := mem_cellsFrom hc
        omega
  · rcases List.mem_append.mp hc with hc | hc
    · rcases List.mem_append.mp hc with hc | hc
      · exact h.2 c (List.mem_filter.mp hc).1
      · have := mem_cellsFrom hc
        exact ha _ this.1 this.2
    · exact h.2 c (List.mem_filter.mp hc).1

theorem reset_mem_wf : State.reset.mem.wf := wf_nil

end Sys2Proof.Machine
end

