-- ==== Sys2Proof/Laws/Pixels.lean ====
section
/-! SUPPORT. The laws of pixels: where a point's bit lies, that distinct points own distinct bits, what `plot` changes and
what it leaves alone (20_memory.md R76 to R82, 42_framebuffer.md R182). -/

namespace Sys2Proof.Machine

/-! ### Where a pixel lies -/

theorem sees_iff {s : State} {p : Point} : s.sees p = true ↔
    0 ≤ p.1 ∧ p.1 < frameW s.snap.orient ∧ 0 ≤ p.2 ∧ p.2 < frameH s.snap.orient := by
  simp [State.sees, inFrame]

theorem native_lt {s : State} {p : Point} (h : s.sees p) : (s.native p).1 < 122 ∧ (s.native p).2 < 250 := by
  rw [sees_iff] at h
  simp only [frameW, frameH, Config.nativeW, Config.nativeH] at h
  simp only [State.native, nativeOf, Config.rotSense, Config.nativeW]
  split_ifs at h ⊢ <;> simp <;> omega

theorem native_inj {s : State} {p q : Point} (hp : s.sees p) (hq : s.sees q) (h : s.native p = s.native q) : p = q := by
  obtain ⟨x, y⟩ := p
  obtain ⟨u, v⟩ := q
  rw [sees_iff] at hp hq
  simp only [frameW, frameH, Config.nativeW, Config.nativeH] at hp hq
  simp only [State.native, nativeOf, Config.rotSense, Config.nativeW] at h
  split_ifs at hp hq h <;> simp_all <;> omega

theorem pixelIndex_lt {n : Nat × Nat} (h : n.1 < 122 ∧ n.2 < 250) : pixelIndex n < 4000 := by
  simp only [pixelIndex, Config.rowBytes]; omega

/-- Two native pixels share a bit of FB only if they are the same pixel. -/
theorem bit_inj {n m : Nat × Nat} (hn : n.1 < 122) (hm : m.1 < 122) (hi : pixelIndex n = pixelIndex m)
    (hb : 7 - n.1 % 8 = 7 - m.1 % 8) : n = m := by
  obtain ⟨a, b⟩ := n
  obtain ⟨c, d⟩ := m
  simp only [pixelIndex, Config.rowBytes] at *
  have : b = d := by omega
  have : a = c := by omega
  simp_all

theorem pixelMask_getLsbD {k j : Nat} (hk : k < 8) : (0x80#8 >>> k).getLsbD j = decide (j = 7 - k) := by
  by_cases hj : j < 8
  · have h : ∀ k < 8, ∀ j < 8, (0x80#8 >>> k).getLsbD j = decide (j = 7 - k) := by decide
    exact h k hk j hj
  · rw [BitVec.getLsbD_of_ge _ _ (by omega)]
    symm; simp; omega

theorem setPixelBit_getLsbD {k : Nat} (hk : k < 8) (w : Bool) (b : Byte) (j : Nat) :
    (setPixelBit w (0x80#8 >>> k) b).getLsbD j = if j = 7 - k then w else b.getLsbD j := by
  unfold setPixelBit
  cases w
  · by_cases hj : j = 7 - k
    · simp [BitVec.getLsbD_and, pixelMask_getLsbD hk, hj]
    · by_cases h8 : j < 8
      · have h := pixelMask_getLsbD (j := j) hk
        simp only [hj, decide_false] at h
        rw [BitVec.getLsbD_ushiftRight] at h
        simp [h8, h, hj]
      · simp [hj, BitVec.getLsbD_of_ge _ _ (show 8 ≤ j by omega)]
  · by_cases hj : j = 7 - k <;> simp [BitVec.getLsbD_or, pixelMask_getLsbD hk, hj]

/-! ### What `plot` leaves alone -/

section
variable (s : State) (w : Bool) (p : Point) (ps : List Point)

theorem plot_eq : s.plot w p = { s with mem := (s.plot w p).mem } := by
  unfold State.plot; split_ifs <;> rfl

@[simp] theorem plot_session : (s.plot w p).session = s.session := by rw [plot_eq]
@[simp] theorem plot_bus : (s.plot w p).bus = s.bus := by rw [plot_eq]
@[simp] theorem plot_regs : (s.plot w p).regs = s.regs := by rw [plot_eq]
@[simp] theorem plot_snap : (s.plot w p).snap = s.snap := by rw [plot_eq]
@[simp] theorem plot_ramEpoch : (s.plot w p).ramEpoch = s.ramEpoch := by rw [plot_eq]

theorem plotAll_eq : s.plotAll w ps = { s with mem := (s.plotAll w ps).mem } := by
  unfold State.plotAll
  induction ps generalizing s with
  | nil => rfl
  | cons p ps ih => rw [List.foldl_cons, ih, plot_eq]

@[simp] theorem plotAll_session : (s.plotAll w ps).session = s.session := by rw [plotAll_eq]
@[simp] theorem plotAll_bus : (s.plotAll w ps).bus = s.bus := by rw [plotAll_eq]
@[simp] theorem plotAll_regs : (s.plotAll w ps).regs = s.regs := by rw [plotAll_eq]
@[simp] theorem plotAll_snap : (s.plotAll w ps).snap = s.snap := by rw [plotAll_eq]
@[simp] theorem plotAll_flags : (s.plotAll w ps).flags = s.flags := by rw [plotAll_eq]
@[simp] theorem plotAll_panel : (s.plotAll w ps).panel = s.panel := by rw [plotAll_eq]
@[simp] theorem plotAll_inReset : (s.plotAll w ps).inReset = s.inReset := by rw [plotAll_eq]
@[simp] theorem plotAll_inputs : (s.plotAll w ps).inputs = s.inputs := by rw [plotAll_eq]
@[simp] theorem plotAll_resp : (s.plotAll w ps).resp = s.resp := by rw [plotAll_eq]
@[simp] theorem plotAll_ramEpoch : (s.plotAll w ps).ramEpoch = s.ramEpoch := by rw [plotAll_eq]
@[simp] theorem plotAll_readDraws : (s.plotAll w ps).readDraws = s.readDraws := by rw [plotAll_eq]
@[simp] theorem plotAll_earlier : (s.plotAll w ps).earlier = s.earlier := by rw [plotAll_eq]

@[simp] theorem plotAll_nil : s.plotAll w [] = s := rfl
@[simp] theorem plotAll_cons : s.plotAll w (p :: ps) = (s.plot w p).plotAll w ps := rfl

end

/-- The native pixel and the frame are the snapshot's. -/
theorem native_congr {s t : State} (h : t.snap = s.snap) (p : Point) : t.native p = s.native p := by
  simp [State.native, h]

theorem plot_in {s : State} {p : Point} (h : s.sees p) (w : Bool) :
    s.plot w p = s.setByte (fbStart + pixelIndex (s.native p))
      (setPixelBit w (pixelMask (s.native p)) (s.byteAt (fbStart + pixelIndex (s.native p)))) := if_pos h

theorem plot_out {s : State} {p : Point} (h : s.sees p = false) (w : Bool) : s.plot w p = s := by
  simp [State.plot, h]

/-- A byte that is not in FB is left alone. -/
theorem byteAt_plot_of_not_fb (s : State) (w : Bool) (p : Point) {a : Nat} (h : isFb a = false) :
    (s.plot w p).byteAt a = s.byteAt a := by
  unfold State.plot
  split_ifs with hp
  · have := pixelIndex_lt (native_lt hp)
    simp only [byteAt_setByte, ite_eq_right_iff]
    intro ha
    simp [isFb, ha, fbStart, Config.fbBytes] at h
    omega
  · rfl

theorem byteAt_plotAll_of_not_fb (s : State) (w : Bool) (ps : List Point) {a : Nat} (h : isFb a = false) :
    (s.plotAll w ps).byteAt a = s.byteAt a := by
  induction ps generalizing s with
  | nil => rfl
  | cons p ps ih => rw [plotAll_cons, ih, byteAt_plot_of_not_fb s w p h]

/-! ### What `plot` does -/

/-- `plot` changes exactly the bit of its point. -/
theorem fb_plot_getLsbD (s : State) (w : Bool) (p : Point) (i j : Nat) :
    ((s.plot w p).fb i).getLsbD j =
      if s.sees p = true ∧ i = pixelIndex (s.native p) ∧ j = 7 - (s.native p).1 % 8 then w else (s.fb i).getLsbD j := by
  by_cases hp : s.sees p
  · rw [plot_in hp]
    simp only [State.fb, byteAt_setByte]
    by_cases hi : i = pixelIndex (s.native p)
    · subst hi
      simp only [if_true, pixelMask, setPixelBit_getLsbD (Nat.mod_lt _ (show 0 < 8 by omega)), hp, true_and]
    · simp only [Nat.add_left_cancel_iff, hi, if_false, false_and, and_false]
  · rw [plot_out (by simpa using hp), if_neg fun h => hp h.1]

/-- Plotting a list changes exactly the bits of its points. -/
theorem fb_plotAll_getLsbD (s : State) (w : Bool) (ps : List Point) (i j : Nat) :
    ((s.plotAll w ps).fb i).getLsbD j =
      if ∃ p ∈ ps, s.sees p = true ∧ i = pixelIndex (s.native p) ∧ j = 7 - (s.native p).1 % 8 then w else (s.fb i).getLsbD j := by
  induction ps generalizing s with
  | nil => simp
  | cons p ps ih =>
    rw [plotAll_cons, ih, fb_plot_getLsbD]
    have hs : ∀ x, (s.plot w p).sees x = s.sees x := fun x => by simp [State.sees]
    simp only [hs, native_congr (plot_snap s w p), List.exists_mem_cons_iff]
    by_cases h1 : ∃ x ∈ ps, s.sees x = true ∧ i = pixelIndex (s.native x) ∧ j = 7 - (s.native x).1 % 8
    · simp only [h1, if_true, or_true]
    · simp only [h1, if_false, or_false]

/-- `plot` and a read of the pixel. -/
theorem pixelBit_plotAll (s : State) (w : Bool) (ps : List Point) {q : Point} (hq : s.sees q) :
    (s.plotAll w ps).pixelBit q = if q ∈ ps then w else s.pixelBit q := by
  have h : (∃ p ∈ ps, s.sees p ∧ pixelIndex (s.native q) = pixelIndex (s.native p) ∧
      7 - (s.native q).1 % 8 = 7 - (s.native p).1 % 8) ↔ q ∈ ps := by
    constructor
    · rintro ⟨p, hp, hs, hi, hb⟩
      have := native_inj hq hs (bit_inj (native_lt hq).1 (native_lt hs).1 hi hb)
      exact this ▸ hp
    · exact fun hp => ⟨q, hp, hq, rfl, rfl⟩
  simp only [State.pixelBit, native_congr (plotAll_snap s w ps), fb_plotAll_getLsbD, h]

theorem pixelBit_congr {s t : State} (hs : t.snap = s.snap) (hm : t.mem = s.mem) (he : t.ramEpoch = s.ramEpoch)
    (q : Point) : t.pixelBit q = s.pixelBit q := by
  simp [State.pixelBit, State.fb, native_congr hs, State.byteAt_congr hm he]

/-! ### The canonical form -/

theorem isArray_fb {i : Nat} (h : i < 4000) : isArray (fbStart + i) = true := by
  simp [isArray, isFb, Config.fbBytes, h]

theorem plot_wf {s : State} (h : s.mem.wf) (w : Bool) (p : Point) : (s.plot w p).mem.wf := by
  unfold State.plot
  split_ifs with hp
  · exact put_wf h (isArray_fb (pixelIndex_lt (native_lt hp))) _
  · exact h

theorem plotAll_wf {s : State} (h : s.mem.wf) (w : Bool) (ps : List Point) : (s.plotAll w ps).mem.wf := by
  induction ps generalizing s with
  | nil => exact h
  | cons p ps ih => exact ih (plot_wf h w p)

/-! ### Clipped ranges -/

theorem mem_clipRange {lo hi v : Int} {n : Nat} : v ∈ clipRange lo hi n ↔ lo ≤ v ∧ v ≤ hi ∧ 0 ≤ v ∧ v < n := by
  simp only [clipRange, List.mem_map, List.mem_range'_1]
  constructor
  · rintro ⟨a, ⟨h1, h2⟩, rfl⟩
    simp only [Int.ofNat_eq_natCast]
    omega
  · rintro ⟨h1, h2, h3, h4⟩
    exact ⟨v.toNat, by omega, by simp [h3]⟩

end Sys2Proof.Machine
end

