-- ==== Sys2Proof/Laws/Ops.lean ====
section
/-! SUPPORT. One lemma per shared operation that says everything it can do, cited instead of unfolding it. -/

namespace Sys2Proof.Machine

/-! ### Completion -/

/-- `finish` completes (60_exceptions.md R211). -/
theorem finish_completes (c : Code) (s t : State) (hs : t.snap = s.snap) (hr : t.inReset = s.inReset)
    (hi : t.inputs = s.inputs) (hp : t.resp = s.resp) (he : t.ramEpoch = s.ramEpoch) (hd : t.readDraws = s.readDraws) :
    Completes c t.flags s (t.finish c) := ⟨rfl, rfl, rfl, hs, hr, hi, hp, he, hd⟩

/-- A wait and what follows it: it times out into FAULT, or it goes on. -/
theorem waitThen_cases (t : Nat) (s : State) (go : State → State) :
    (s.waitResult t = .timeout ∧ s.waitThen t go = ((s.waitIdle t).enter .fault).finish .hardwareTimeout) ∨
    (s.waitResult t = .idle ∧ s.waitThen t go = go (s.waitIdle t)) := by
  unfold State.waitThen
  cases h : s.waitResult t
  · exact .inr ⟨rfl, rfl⟩
  · exact .inl ⟨rfl, rfl⟩

theorem waitThen_idle {t : Nat} {s : State} (h : s.waitResult t = .idle) (go : State → State) :
    s.waitThen t go = go (s.waitIdle t) := by simp [State.waitThen, h]

theorem waitThen_timeout {t : Nat} {s : State} (h : s.waitResult t = .timeout) (go : State → State) :
    s.waitThen t go = ((s.waitIdle t).enter .fault).finish .hardwareTimeout := by simp [State.waitThen, h]

@[simp] theorem emit_waitResult (s : State) (es : List Event) (t : Nat) :
    (s.emit es).waitResult t = s.waitResult t := rfl

/-! ### Bus events -/

@[simp] theorem restAfter_nil (l : Lines) : restAfter l [] = l := rfl
@[simp] theorem restAfter_cons (l : Lines) (e : Event) (es : List Event) :
    restAfter l (e :: es) = restAfter (e.rest l) es := rfl
theorem restAfter_append (l : Lines) (es fs : List Event) :
    restAfter l (es ++ fs) = restAfter (restAfter l es) fs := by
  simp [restAfter, List.foldl_append]

theorem emit_append (s : State) (es fs : List Event) : s.emit (es ++ fs) = (s.emit es).emit fs := by
  simp [State.emit, restAfter_append, List.append_assoc]

/-- An event that leaves a driven transport driven and at rest. -/
def Event.inSession : Event → Bool
  | .xact _ _ | .pulse _ _ | .wait _ _ => true
  | .drive | .release | .cut _ _ => false

theorem writeCommand_inSession {b : Byte} : ∀ e ∈ writeCommand b, e.inSession = true ∧ e.legal = true := by
  simp [writeCommand, Event.inSession, Event.legal]

theorem writeData_inSession {bs : List Byte} : ∀ e ∈ writeData bs, e.inSession = true ∧ e.legal = true := by
  unfold writeData
  split_ifs with h
  · simp
  · simpa [Event.inSession, Event.legal] using h

theorem issuePanel_inSession {c : Byte} {d : List Byte} :
    ∀ e ∈ issuePanel c d, e.inSession = true ∧ e.legal = true := by
  intro e he
  rcases List.mem_append.mp he with h | h
  · exact writeCommand_inSession e h
  · exact writeData_inSession e h

/-- The lines at their idle levels, EPD_DC driven. -/
def Lines.ready (l : Lines) : Prop := l = { Lines.atIdle with dc := l.dc } ∧ l.dc ≠ .released

theorem rest_ready {l : Lines} (h : l.ready) {e : Event} (he : e.inSession = true) : (e.rest l).ready := by
  cases e <;> simp [Event.inSession] at he <;> simp only [Event.rest]
  · rename_i dc bs
    refine ⟨?_, by cases dc <;> simp [dcLevel]⟩
    rw [h.1]
  · exact h
  · exact h

theorem restAfter_ready {l : Lines} (h : l.ready) {es : List Event} (he : ∀ e ∈ es, e.inSession = true) :
    (restAfter l es).ready := by
  induction es generalizing l with
  | nil => exact h
  | cons e es ih =>
    exact ih (rest_ready h (he e List.mem_cons_self)) fun x hx => he x (List.mem_cons_of_mem _ hx)

@[simp] theorem Panel.afterWaits_zero (p : Panel) : p.afterWaits 0 = p := rfl
@[simp] theorem Panel.afterWaits_succ (n : Nat) (p : Panel) : p.afterWaits (n + 1) = p.afterWait.afterWaits n := rfl

/-- Waits use up the listed answers from the front. -/
theorem Panel.afterWaits_answers (n : Nat) (p : Panel) : (p.afterWaits n).answers = p.answers.drop n := by
  induction n generalizing p with
  | zero => rfl
  | succ n ih =>
    rw [afterWaits_succ, ih]
    unfold Panel.afterWait
    split <;> simp_all

end Sys2Proof.Machine
end

