-- ==== Sys2Proof/Laws/Shapes.lean ====
section
/-! SUPPORT. The point lists of the drawing commands hold exactly the sets the rules write (42_framebuffer.md R186 to R191). -/

namespace Sys2Proof.Machine

/-! ### LINE (R186) -/

/-- The walk's own turn is the rule's turn. -/
theorem LineCtx.next_eq (c : LineCtx) (p : LineStep) :
    ((c.next p).x, (c.next p).y, (c.next p).err) = lineTurn c.dx c.dy c.sx c.sy (p.x, p.y, p.err) := by
  simp only [LineCtx.next, lineTurn, ge_iff_le, Prod.mk.injEq]
  refine ⟨by split_ifs <;> rfl, by split_ifs <;> rfl, by split_ifs <;> simp⟩

/-- A walk of bounded fuel plots the points of its turns up to the first that reaches the end. -/
theorem LineCtx.mem_walk {c : LineCtx} {q : Point} {fuel : Nat} {p : LineStep} :
    q ∈ c.walk fuel p ↔
      ∃ k < fuel, (∀ j < k, ((c.next^[j] p).x, (c.next^[j] p).y) ≠ (c.x1, c.y1)) ∧
        q = ((c.next^[k] p).x, (c.next^[k] p).y) := by
  induction fuel generalizing p with
  | zero => simp [LineCtx.walk]
  | succ n ih =>
    rw [LineCtx.walk, List.mem_cons]
    constructor
    · rintro (h | h)
      · exact ⟨0, by omega, by simp, h⟩
      · split_ifs at h with hp
        · simp at h
        · obtain ⟨k, hk, hj, hq⟩ := ih.mp h
          refine ⟨k + 1, by omega, fun j hjk => ?_, hq⟩
          cases j with
          | zero => simpa using hp
          | succ j => exact hj j (by omega)
    · rintro ⟨k, hk, hj, hq⟩
      cases k with
      | zero => exact .inl hq
      | succ k =>
        have h0 : ¬ (p.x = c.x1 ∧ p.y = c.y1) := by simpa using hj 0 (by omega)
        rw [if_neg h0]
        exact .inr (ih.mpr ⟨k, by omega, fun j hjk => hj (j + 1) (by omega), hq⟩)

/-- A walk whose turn `n` is the first to reach the end has `n + 1` points. -/
theorem LineCtx.length_walk {c : LineCtx} {n fuel : Nat} {p : LineStep} (hn : n < fuel)
    (hj : ∀ j < n, ((c.next^[j] p).x, (c.next^[j] p).y) ≠ (c.x1, c.y1))
    (he : ((c.next^[n] p).x, (c.next^[n] p).y) = (c.x1, c.y1)) : (c.walk fuel p).length = n + 1 := by
  induction n generalizing fuel p with
  | zero =>
    obtain ⟨f, rfl⟩ : ∃ f, fuel = f + 1 := ⟨fuel - 1, by omega⟩
    have h : p.x = c.x1 ∧ p.y = c.y1 := by simpa using he
    simp [LineCtx.walk, h]
  | succ n ih =>
    obtain ⟨f, rfl⟩ : ∃ f, fuel = f + 1 := ⟨fuel - 1, by omega⟩
    have h0 : ¬ (p.x = c.x1 ∧ p.y = c.y1) := by simpa using hj 0 (by omega)
    simp [LineCtx.walk, h0, ih (fuel := f) (p := c.next p) (by omega) (fun j h => hj (j + 1) (by omega)) he]

/-- What the walk from `a` to `b` keeps fixed. -/
def walkCtx (a b : Point) : LineCtx :=
  { x1 := b.1, y1 := b.2, dx := |b.1 - a.1|, dy := -|b.2 - a.2|,
    sx := if a.1 < b.1 then 1 else -1, sy := if a.2 < b.2 then 1 else -1 }

/-- Where the walk from `a` to `b` starts. -/
def walkStart (a b : Point) : LineStep := ⟨a.1, a.2, |b.1 - a.1| + -|b.2 - a.2|⟩

/-- The turns of the longer axis. -/
def walkTurns (a b : Point) : Nat := (max |b.1 - a.1| |b.2 - a.2|).toNat

theorem walkLine_eq (a b : Point) : walkLine a b = (walkCtx a b).walk (walkTurns a b + 1) (walkStart a b) := by
  simp [walkLine, walkCtx, walkStart, walkTurns]

theorem iterate_walk (a b : Point) (k : Nat) :
    ((((walkCtx a b).next^[k] (walkStart a b)).x, ((walkCtx a b).next^[k] (walkStart a b)).y,
      ((walkCtx a b).next^[k] (walkStart a b)).err) : Int × Int × Int) = lineAt a b k := by
  induction k with
  | zero => rfl
  | succ k ih =>
    rw [Function.iterate_succ_apply', LineCtx.next_eq, lineAt, ← ih]; rfl

theorem iterate_walk_point (a b : Point) (k : Nat) :
    ((((walkCtx a b).next^[k] (walkStart a b)).x, ((walkCtx a b).next^[k] (walkStart a b)).y) : Point) =
      ((lineAt a b k).1, (lineAt a b k).2.1) := by
  have h := iterate_walk a b k
  rw [← h]

/-- The error term after `m` steps in x and `n` in y. -/
structure LineState (a b : Point) (m n : Int) (q : Int × Int × Int) : Prop where
  x : q.1 = a.1 + (if a.1 < b.1 then 1 else -1) * m
  y : q.2.1 = a.2 + (if a.2 < b.2 then 1 else -1) * n
  err : q.2.2 = |b.1 - a.1| * (1 + n) - |b.2 - a.2| * (1 + m)

/-- One turn, by which of the two steps it takes. -/
theorem LineState.turn {a b : Point} {m n : Int} {q : Int × Int × Int} (h : LineState a b m n q) :
    LineState a b (m + if 2 * q.2.2 ≥ -|b.2 - a.2| then 1 else 0) (n + if 2 * q.2.2 ≤ |b.1 - a.1| then 1 else 0)
      (lineTurn |b.1 - a.1| (-|b.2 - a.2|) (if a.1 < b.1 then 1 else -1) (if a.2 < b.2 then 1 else -1) q) := by
  obtain ⟨hx, hy, he⟩ := h
  have key : ∀ (sx sy A B : Int) (c d : Prop) [Decidable c] [Decidable d], q.1 = a.1 + sx * m → q.2.1 = a.2 + sy * n →
      q.2.2 = A * (1 + n) - B * (1 + m) →
      (if c then (q.1 + sx, q.2.2 + -B) else (q.1, q.2.2)).1 = a.1 + sx * (m + if c then 1 else 0) ∧
      (if d then (q.2.1 + sy, (if c then (q.1 + sx, q.2.2 + -B) else (q.1, q.2.2)).2 + A)
        else (q.2.1, (if c then (q.1 + sx, q.2.2 + -B) else (q.1, q.2.2)).2)).1 = a.2 + sy * (n + if d then 1 else 0) ∧
      (if d then (q.2.1 + sy, (if c then (q.1 + sx, q.2.2 + -B) else (q.1, q.2.2)).2 + A)
        else (q.2.1, (if c then (q.1 + sx, q.2.2 + -B) else (q.1, q.2.2)).2)).2 =
          A * (1 + (n + if d then 1 else 0)) - B * (1 + (m + if c then 1 else 0)) := by
    intro sx sy A B c d _ _ h1 h2 h3
    split_ifs <;> refine ⟨?_, ?_, ?_⟩ <;> simp only [h1, h2, h3] <;> ring
  obtain ⟨k1, k2, k3⟩ := key _ _ _ _ (2 * q.2.2 ≥ -|b.2 - a.2|) (2 * q.2.2 ≤ |b.1 - a.1|) hx hy he
  exact ⟨k1, k2, k3⟩

/-- A line at least as wide as high: `k` turns make `k` steps in x, and the error term stays between its bounds. -/
theorem lineAt_wide {a b : Point} (h : |b.2 - a.2| ≤ |b.1 - a.1|) (k : Nat) :
    ∃ n : Int, 0 ≤ n ∧ n ≤ k ∧ LineState a b k n (lineAt a b k) ∧
      -|b.2 - a.2| ≤ 2 * (lineAt a b k).2.2 ∧ 2 * (lineAt a b k).2.2 ≤ 3 * |b.1 - a.1| - 2 * |b.2 - a.2| := by
  have h0 := abs_nonneg (b.2 - a.2)
  induction k with
  | zero => exact ⟨0, by simp, by simp, ⟨by simp [lineAt], by simp [lineAt], by simp [lineAt]; ring⟩, by simp [lineAt]; omega,
      by simp [lineAt]; omega⟩
  | succ k ih =>
    obtain ⟨n, hn, hk, hs, h1, h2⟩ := ih
    have hx : 2 * (lineAt a b k).2.2 ≥ -|b.2 - a.2| := h1
    have ht := hs.turn
    rw [if_pos hx] at ht
    refine ⟨_, ?_, ?_, by simpa [lineAt] using ht, ?_, ?_⟩
    · split_ifs <;> omega
    · push_cast; split_ifs <;> omega
    · simp only [lineAt, lineTurn, if_pos hx]; split_ifs <;> dsimp only <;> omega
    · simp only [lineAt, lineTurn, if_pos hx]; split_ifs <;> dsimp only <;> omega

/-- A line higher than wide: `k` turns make `k` steps in y. -/
theorem lineAt_high {a b : Point} (h : |b.1 - a.1| ≤ |b.2 - a.2|) (k : Nat) :
    ∃ m : Int, 0 ≤ m ∧ m ≤ k ∧ LineState a b m k (lineAt a b k) ∧
      2 * |b.1 - a.1| - 3 * |b.2 - a.2| ≤ 2 * (lineAt a b k).2.2 ∧ 2 * (lineAt a b k).2.2 ≤ |b.1 - a.1| := by
  have h0 := abs_nonneg (b.1 - a.1)
  induction k with
  | zero => exact ⟨0, by simp, by simp, ⟨by simp [lineAt], by simp [lineAt], by simp [lineAt]; ring⟩, by simp [lineAt]; omega,
      by simp [lineAt]; omega⟩
  | succ k ih =>
    obtain ⟨m, hm, hk, hs, h1, h2⟩ := ih
    have ht := hs.turn
    rw [if_pos h2] at ht
    refine ⟨_, ?_, ?_, by simpa [lineAt] using ht, ?_, ?_⟩
    · split_ifs <;> omega
    · push_cast; split_ifs <;> omega
    · clear ht
      simp only [lineAt, lineTurn, if_pos h2]
      by_cases hc : 2 * (lineAt a b k).2.2 ≥ -|b.2 - a.2|
      · rw [if_pos hc]; dsimp only; omega
      · rw [if_neg hc]; dsimp only; omega
    · clear ht
      simp only [lineAt, lineTurn, if_pos h2]
      by_cases hc : 2 * (lineAt a b k).2.2 ≥ -|b.2 - a.2|
      · rw [if_pos hc]; dsimp only; omega
      · rw [if_neg hc]; dsimp only; omega

theorem step_abs (u v : Int) : (if u < v then 1 else -1) * |v - u| = v - u := by
  split_ifs with h
  · rw [abs_of_pos (by omega)]; ring
  · rw [abs_of_nonpos (by omega)]; ring

/-- The walk reaches its end in the turn of the longer axis. -/
theorem lineAt_end (a b : Point) : ((lineAt a b (walkTurns a b)).1, (lineAt a b (walkTurns a b)).2.1) = b := by
  have hA := abs_nonneg (b.1 - a.1)
  have hB := abs_nonneg (b.2 - a.2)
  rcases le_total |b.2 - a.2| |b.1 - a.1| with h | h
  · have hN : ((walkTurns a b : Nat) : Int) = |b.1 - a.1| := by simp only [walkTurns, max_eq_left h]; omega
    obtain ⟨n, hn, hk, hs, h1, h2⟩ := lineAt_wide h (walkTurns a b)
    rw [hN] at hs hk
    rw [hs.err] at h1 h2
    have hn2 : n = |b.2 - a.2| := by
      rcases eq_or_lt_of_le hA with h0 | h0
      · omega
      · have e1 : 2 * (|b.1 - a.1| * (1 + n - |b.2 - a.2|)) ≥ |b.2 - a.2| := by linarith
        have e2 : 2 * (|b.1 - a.1| * (1 + n - |b.2 - a.2|)) ≤ 3 * |b.1 - a.1| := by linarith
        have e3 : 1 + n - |b.2 - a.2| ≤ 1 := by
          by_contra hc
          nlinarith [mul_le_mul_of_nonneg_left (show (2 : Int) ≤ 1 + n - |b.2 - a.2| by omega) hA]
        have e4 : 0 ≤ n - |b.2 - a.2| := by
          by_contra hc
          have := mul_nonpos_of_nonneg_of_nonpos hA (show 1 + n - |b.2 - a.2| ≤ 0 by omega)
          omega
        omega
    rw [hs.x, hs.y, hn2, step_abs, step_abs]
    simp
  · have hN : ((walkTurns a b : Nat) : Int) = |b.2 - a.2| := by simp only [walkTurns, max_eq_right h]; omega
    obtain ⟨m, hm, hk, hs, h1, h2⟩ := lineAt_high h (walkTurns a b)
    rw [hN] at hs hk
    rw [hs.err] at h1 h2
    have hm2 : m = |b.1 - a.1| := by
      rcases eq_or_lt_of_le hB with h0 | h0
      · omega
      · have e1 : 2 * (|b.2 - a.2| * (1 + m - |b.1 - a.1|)) ≥ |b.1 - a.1| := by linarith
        have e2 : 2 * (|b.2 - a.2| * (1 + m - |b.1 - a.1|)) ≤ 3 * |b.2 - a.2| := by linarith
        have e3 : 1 + m - |b.1 - a.1| ≤ 1 := by
          by_contra hc
          nlinarith [mul_le_mul_of_nonneg_left (show (2 : Int) ≤ 1 + m - |b.1 - a.1| by omega) hB]
        have e4 : 0 ≤ m - |b.1 - a.1| := by
          by_contra hc
          have := mul_nonpos_of_nonneg_of_nonpos hB (show 1 + m - |b.1 - a.1| ≤ 0 by omega)
          omega
        omega
    rw [hs.x, hs.y, hm2, step_abs, step_abs]
    simp

theorem step_inj {u v m : Int} (h : u + (if u < v then 1 else -1) * m = v) (hm : 0 ≤ m) : m = |v - u| := by
  split_ifs at h with hc
  · rw [abs_of_pos (by omega)]; omega
  · rw [abs_of_nonpos (by omega)]; omega

/-- No earlier turn has reached the end. -/
theorem lineAt_not_end {a b : Point} {k : Nat} (hk : k < walkTurns a b) :
    ((lineAt a b k).1, (lineAt a b k).2.1) ≠ b := by
  intro he
  rcases le_total |b.2 - a.2| |b.1 - a.1| with h | h
  · have hN : ((walkTurns a b : Nat) : Int) = |b.1 - a.1| := by
      have := abs_nonneg (b.1 - a.1); simp only [walkTurns, max_eq_left h]; omega
    obtain ⟨n, -, -, hs, -⟩ := lineAt_wide h k
    have hx : (lineAt a b k).1 = b.1 := congrArg Prod.fst he
    have := step_inj (hs.x.symm.trans hx) (by omega)
    omega
  · have hN : ((walkTurns a b : Nat) : Int) = |b.2 - a.2| := by
      have := abs_nonneg (b.2 - a.2); simp only [walkTurns, max_eq_right h]; omega
    obtain ⟨m, -, -, hs, -⟩ := lineAt_high h k
    have hy : (lineAt a b k).2.1 = b.2 := congrArg Prod.snd he
    have := step_inj (hs.y.symm.trans hy) (by omega)
    omega

/-- The points of the walk, by turn. -/
theorem inWalk_iff {a b p : Point} :
    InWalk a b p ↔ ∃ k ≤ walkTurns a b, p = ((lineAt a b k).1, (lineAt a b k).2.1) := by
  constructor
  · rintro ⟨k, hj, hp⟩
    refine ⟨k, ?_, hp⟩
    by_contra hc
    exact hj (walkTurns a b) (by omega) (lineAt_end a b)
  · rintro ⟨k, hk, hp⟩
    exact ⟨k, fun j hj => lineAt_not_end (by omega), hp⟩

theorem mem_walkLine {a b p : Point} : p ∈ walkLine a b ↔ InWalk a b p := by
  rw [walkLine_eq, LineCtx.mem_walk, inWalk_iff]
  constructor
  · rintro ⟨k, hk, -, hp⟩
    exact ⟨k, by omega, by rw [hp, iterate_walk_point]⟩
  · rintro ⟨k, hk, hp⟩
    refine ⟨k, by omega, fun j hj => ?_, by rw [hp, iterate_walk_point]⟩
    rw [iterate_walk_point]
    exact lineAt_not_end (by omega)

theorem mem_linePoints {a b p : Point} : p ∈ linePoints a b ↔ InLine a b p := by
  unfold linePoints orderEnds InLine
  by_cases h : b.1 < a.1 ∨ (a.1 = b.1 ∧ b.2 < a.2)
  · rw [if_pos h, if_pos h]; exact mem_walkLine
  · rw [if_neg h, if_neg h]; exact mem_walkLine

theorem length_walkLine (a b : Point) : (walkLine a b).length = walkTurns a b + 1 := by
  rw [walkLine_eq]
  refine LineCtx.length_walk (by omega) (fun j hj => ?_) ?_
  · rw [iterate_walk_point]; exact lineAt_not_end hj
  · rw [iterate_walk_point]; exact lineAt_end a b

theorem walkTurns_comm (a b : Point) : walkTurns a b = walkTurns b a := by
  simp only [walkTurns, abs_sub_comm]

theorem length_linePoints (a b : Point) : (linePoints a b).length = walkTurns a b + 1 := by
  unfold linePoints orderEnds
  split_ifs
  · rw [length_walkLine, walkTurns_comm]
  · exact length_walkLine a b

/-! ### CIRCLE and CIRCLEF (R189, R190) -/

/-- The walk's own turn is the rule's turn. -/
theorem CircleStep.next_eq (p : CircleStep) : (p.next.x, p.next.y, p.next.d) = circleTurn (p.x, p.y, p.d) := by
  simp only [CircleStep.next, circleTurn]
  split_ifs <;> rfl

theorem mem_circleWalk {q : CircleStep} {fuel : Nat} {p : CircleStep} :
    q ∈ circleWalk fuel p ↔
      ∃ k < fuel, (∀ j ≤ k, (CircleStep.next^[j] p).y ≤ (CircleStep.next^[j] p).x) ∧ q = CircleStep.next^[k] p := by
  induction fuel generalizing p with
  | zero => simp [circleWalk]
  | succ n ih =>
    rw [circleWalk]
    split_ifs with hp
    · rw [List.mem_cons]
      constructor
      · rintro (h | h)
        · exact ⟨0, by omega, fun j hj => by obtain rfl : j = 0 := by omega
                                             exact hp, h⟩
        · obtain ⟨k, hk, hj, hq⟩ := ih.mp h
          refine ⟨k + 1, by omega, fun j hjk => ?_, hq⟩
          cases j with
          | zero => exact hp
          | succ j => exact hj j (by omega)
      · rintro ⟨k, hk, hj, hq⟩
        cases k with
        | zero => exact .inl hq
        | succ k => exact .inr (ih.mpr ⟨k, by omega, fun j hjk => hj (j + 1) (by omega), hq⟩)
    · simp only [List.not_mem_nil, false_iff]
      rintro ⟨k, -, hj, -⟩
      exact hp (hj 0 (by omega))

theorem iterate_circle (r k : Nat) :
    ((CircleStep.next^[k] ⟨r, 0, 1 - r⟩).x, (CircleStep.next^[k] ⟨r, 0, 1 - r⟩).y,
      (CircleStep.next^[k] ⟨r, 0, 1 - r⟩).d) = circleAt r k := by
  induction k with
  | zero => rfl
  | succ k ih => rw [Function.iterate_succ_apply', CircleStep.next_eq, ih]; rfl

/-- `y` counts the turns and `x` never rises. -/
theorem circleAt_bounds (r k : Nat) : (circleAt r k).2.1 = k ∧ (circleAt r k).1 ≤ r := by
  induction k with
  | zero => simp [circleAt]
  | succ k ih =>
    simp only [circleAt, circleTurn]
    split_ifs <;> simp [ih.1] <;> omega

theorem circleTurn_bounds {r : Nat} {x y : Int} (h : CircleTurn r x y) : 0 ≤ y ∧ y ≤ x ∧ x ≤ r := by
  obtain ⟨k, hk, rfl, rfl⟩ := h
  have := circleAt_bounds r k
  have := hk k le_rfl
  omega

theorem mem_circleSteps {r : Nat} {x y : Int} :
    (∃ p ∈ circleSteps r, p.x = x ∧ p.y = y) ↔ CircleTurn r x y := by
  unfold circleSteps CircleTurn
  have hx : ∀ j, (CircleStep.next^[j] ⟨r, 0, 1 - r⟩).x = (circleAt r j).1 := fun j => by rw [← iterate_circle]
  have hy : ∀ j, (CircleStep.next^[j] ⟨r, 0, 1 - r⟩).y = (circleAt r j).2.1 := fun j => by rw [← iterate_circle]
  constructor
  · rintro ⟨p, hp, rfl, rfl⟩
    obtain ⟨k, hk, hj, rfl⟩ := mem_circleWalk.mp hp
    exact ⟨k, fun j h => by rw [← hx, ← hy]; exact hj j h, hx k, hy k⟩
  · rintro ⟨k, hj, rfl, rfl⟩
    refine ⟨_, mem_circleWalk.mpr ⟨k, ?_, fun j h => by rw [hx, hy]; exact hj j h, rfl⟩, hx k, hy k⟩
    have := circleAt_bounds r k
    have := hj k le_rfl
    omega

theorem mem_circlePoints {c p : Point} {r : Nat} : p ∈ circlePoints c r ↔ InCircle c r p := by
  unfold circlePoints InCircle
  rw [List.mem_flatMap]
  constructor
  · rintro ⟨q, hq, hp⟩
    exact ⟨q.x, q.y, mem_circleSteps.mp ⟨q, hq, rfl, rfl⟩, hp⟩
  · rintro ⟨x, y, h, hp⟩
    obtain ⟨q, hq, rfl, rfl⟩ := mem_circleSteps.mpr h
    exact ⟨q, hq, hp⟩

theorem mem_spanPoints {w h : Nat} {xl xr y : Int} {p : Point} :
    p ∈ spanPoints w h xl xr y ↔ (0 ≤ p.1 ∧ p.1 < w ∧ 0 ≤ p.2 ∧ p.2 < h) ∧ xl ≤ p.1 ∧ p.1 ≤ xr ∧ p.2 = y := by
  obtain ⟨u, v⟩ := p
  unfold spanPoints
  split_ifs with hy
  · simp only [List.mem_map, mem_clipRange, Prod.mk.injEq]
    constructor
    · rintro ⟨a, ha, rfl, rfl⟩; omega
    · rintro ⟨h1, h2, h3, rfl⟩; exact ⟨u, by omega, rfl, rfl⟩
  · simp only [List.not_mem_nil, false_iff]
    rintro ⟨h1, -, -, rfl⟩; omega

theorem mem_circlefPoints {w h : Nat} {c p : Point} {r : Nat} :
    p ∈ circlefPoints w h c r ↔ (0 ≤ p.1 ∧ p.1 < w ∧ 0 ≤ p.2 ∧ p.2 < h) ∧ InCirclef c r p := by
  unfold circlefPoints InCirclef
  rw [List.mem_flatMap]
  have hq : ∀ q : CircleStep, p ∈ quadSpans w h c q ↔ (0 ≤ p.1 ∧ p.1 < w ∧ 0 ≤ p.2 ∧ p.2 < h) ∧
      ∃ span ∈ ([(c.1 - q.x, c.1 + q.x, c.2 + q.y), (c.1 - q.x, c.1 + q.x, c.2 - q.y), (c.1 - q.y, c.1 + q.y, c.2 + q.x),
        (c.1 - q.y, c.1 + q.y, c.2 - q.x)] : List (Int × Int × Int)),
        span.1 ≤ p.1 ∧ p.1 ≤ span.2.1 ∧ p.2 = span.2.2 := fun q => by
    simp only [quadSpans, List.mem_append, mem_spanPoints, List.mem_cons, List.not_mem_nil, or_false, exists_eq_or_imp,
      exists_eq_left]
    rw [← and_or_left, ← and_or_left, ← and_or_left, or_assoc, or_assoc]
  constructor
  · rintro ⟨q, hm, hp⟩
    obtain ⟨hf, hs⟩ := (hq q).mp hp
    exact ⟨hf, q.x, q.y, mem_circleSteps.mp ⟨q, hm, rfl, rfl⟩, hs⟩
  · rintro ⟨hf, x, y, ht, hs⟩
    obtain ⟨q, hm, rfl, rfl⟩ := mem_circleSteps.mpr ht
    exact ⟨q, hm, (hq q).mpr ⟨hf, hs⟩⟩

/-! ### RECT and RECTF (R187, R188), BLIT (R191) -/

theorem mem_rectfPoints {w h : Nat} {a b p : Point} :
    p ∈ rectfPoints w h a b ↔ (0 ≤ p.1 ∧ p.1 < w ∧ 0 ≤ p.2 ∧ p.2 < h) ∧ InRectf a b p := by
  obtain ⟨u, v⟩ := p
  simp only [rectfPoints, InRectf, List.mem_flatMap, List.mem_map, mem_clipRange, Prod.mk.injEq]
  constructor
  · rintro ⟨y, hy, x, hx, rfl, rfl⟩; tauto
  · rintro ⟨h1, h2⟩; exact ⟨v, by tauto, u, by tauto, rfl, rfl⟩

theorem mem_rectPoints {w h : Nat} {a b p : Point} :
    p ∈ rectPoints w h a b ↔ (0 ≤ p.1 ∧ p.1 < w ∧ 0 ≤ p.2 ∧ p.2 < h) ∧ InRect a b p := by
  simp only [rectPoints, InRect, List.mem_filter, mem_rectfPoints, onBorder, decide_eq_true_eq, and_assoc]

theorem mem_blitPoints {s : State} {x top : Int} {wd ht : Nat} {p : Point} :
    p ∈ s.blitPoints x top wd ht ↔ InBlit s x top wd ht p := by
  simp only [State.blitPoints, InBlit, State.ink, glyphRowBytes, List.mem_flatMap, List.mem_map, List.mem_filter,
    List.mem_range, BitVec.getLsbD_ushiftRight, Nat.add_zero]
  constructor
  · rintro ⟨j, hj, i, ⟨hi, hk⟩, rfl⟩; exact ⟨i, j, hi, hj, hk, rfl⟩
  · rintro ⟨i, j, hi, hj, hk, rfl⟩; exact ⟨j, hj, i, ⟨hi, hk⟩, rfl⟩

end Sys2Proof.Machine
end

