-- ==== Sys2Proof/Laws/Exec.lean ====
section
/-! SUPPORT. What a command can do, said once: every run of `exec` ends in one of the ways of `Ran`. -/

namespace Sys2Proof.Machine

/-! ### Shape commands -/

theorem drawShape_eq (w : Bool) (ps : List Point) (s : State) :
    drawShape w ps s = State.finish .ok { s with mem := (s.plotAll w ps).mem } :=
  congrArg (State.finish .ok) (plotAll_eq (s := s) (w := w) (ps := ps))

theorem drawShape_completes (w : Bool) (ps : List Point) (s : State) : Completes .ok s.flags s (drawShape w ps s) := by
  rw [drawShape_eq]; exact ⟨rfl, rfl, rfl, rfl, rfl, rfl, rfl, rfl, rfl⟩

theorem drawShape_frame (w : Bool) (ps : List Point) (s : State) : DrawFrame s (drawShape w ps s) := by
  rw [drawShape_eq]; exact ⟨rfl, rfl, rfl, rfl⟩

theorem padding_plotAll (s : State) (w : Bool) (ps : List Point) : SamePadding s (s.plotAll w ps) := by
  intro y j hy hj
  rw [fb_plotAll_getLsbD, if_neg]
  rintro ⟨p, -, hp, hi, hb⟩
  have := native_lt hp
  simp only [pixelIndex, Config.rowBytes] at hi
  omega

/-- A shape command draws the set its list of points stands for inside the frame (R182). -/
theorem drawShape_draws {w : Bool} {ps : List Point} {s : State} {shape : Point → Prop}
    (h : ∀ p, s.sees p = true → (p ∈ ps ↔ shape p)) : Draws w shape s (drawShape w ps s) where
  inside p hp hs := (pixelBit_plotAll s w ps hp).trans (if_pos ((h p hp).mpr hs))
  outside p hp hs := (pixelBit_plotAll s w ps hp).trans (if_neg fun hm => hs ((h p hp).mp hm))
  padding := padding_plotAll s w ps
  others _ ha := byteAt_plotAll_of_not_fb s w ps ha

/-- The list of points of a shape instruction. -/
def pointsOf (i : Instr) (s : State) : List Point :=
  match i with
  | .pixel _ => [s.snap.p0]
  | .line _ => linePoints s.snap.p0 s.snap.p1
  | .rect _ => rectPoints s.snap.w s.snap.h s.snap.p0 s.snap.p1
  | .rectf _ => rectfPoints s.snap.w s.snap.h s.snap.p0 s.snap.p1
  | .circle _ => circlePoints s.snap.p0 s.snap.radius
  | .circlef _ => circlefPoints s.snap.w s.snap.h s.snap.p0 s.snap.radius
  | .blit _ => s.blitPoints s.snap.x (s.snap.y - s.snap.asc) s.snap.wd s.snap.ht
  | _ => []

theorem sees_frame {s : State} {p : Point} (h : s.sees p = true) :
    0 ≤ p.1 ∧ p.1 < s.snap.w ∧ 0 ≤ p.2 ∧ p.2 < s.snap.h := sees_iff.mp h

/-- Inside the frame the list holds exactly the rule's set. -/
theorem mem_pointsOf {i : Instr} {s : State} {p : Point} (hi : isShape i = true) (hp : s.sees p = true) :
    p ∈ pointsOf i s ↔ shapeOf i s p := by
  have hf := sees_frame hp
  cases i <;> simp only [isShape, Bool.false_eq_true] at hi <;> simp only [pointsOf, shapeOf]
  · exact List.mem_singleton
  · exact mem_linePoints
  · exact mem_rectPoints.trans (and_iff_right hf)
  · exact mem_rectfPoints.trans (and_iff_right hf)
  · exact mem_circlePoints
  · exact mem_circlefPoints.trans (and_iff_right hf)
  · exact mem_blitPoints

theorem exec_shape {i : Instr} {s : State} (hi : isShape i = true) (hb : ¬ BadArgument i s) :
    exec i s = .next (drawShape i.color (pointsOf i s) s) := by
  cases i <;> simp only [isShape, Bool.false_eq_true] at hi
  all_goals first
    | rfl
    | exact if_neg hb

/-! ### Commands with a wait -/

/-- What a command with a wait sends before it. -/
def beforeWait (i : Instr) (s : State) : List Event :=
  match i with
  | .initFull | .initFast => resetPulse s.snap
  | .displayFull => writeBank (Config.pcmd .wrn) .full s ++ trigger .updFull
  | .displayFast => writeBank (Config.pcmd .wrn) .full s ++ trigger .updFast
  | .displayPartial => writeBank (Config.pcmd .wrn) s.snap.window s ++ trigger .updPartial
  | _ => []

/-- The bound of its wait. -/
def waitBound (i : Instr) (s : State) : Nat :=
  match i with
  | .initFull | .initFast => s.snap.tInit.toNat
  | .displayFull => s.snap.tFull.toNat
  | .displayFast => s.snap.tFast.toNat
  | .displayPartial => s.snap.tPartial.toNat
  | _ => s.snap.timeout

/-- What it does after a wait that ended Idle; `s` is the state at its start. -/
def afterIdle (i : Instr) (s t : State) : State :=
  match i with
  | .initFull => ((t.emit (initSeq Config.lutFull)).enter .readyFull).finish .ok
  | .initFast => ((t.emit (initSeq Config.lutFast)).enter .readyFast).finish .ok
  | .displayPartial =>
    let u := commitWindow s.snap.window s t
    (u.setSession { u.session with pcount := countPartial u.session.pcount }).finish .ok
  | _ => t.finish .ok

theorem exec_wait {i : Instr} {s : State} (hi : hasWait i = true) (hc : FirstCheck i s .ok) :
    exec i s = .next ((s.emit (beforeWait i s)).waitThen (waitBound i s) (afterIdle i s)) := by
  obtain _ | _ | _ | _ | _ | ⟨hf, ho, hb, hl, -⟩ := hc
  cases i <;> simp only [hasWait, Bool.false_eq_true] at hi
  · have ho := ho rfl
    simp [exec, execRawWaitIdle, ho, beforeWait, waitBound, State.emit, State.waitThen, afterIdle]
  · have ho := ho rfl
    have : s.session.fsm = .cold ∨ s.session.fsm = .asleep ∨ s.session.fsm = .fault := by
      revert hf; cases s.session.fsm <;> simp [fsmTable]
    simp only [exec, execInitFull, initWith, this, ho, if_true]; rfl
  · have ho := ho rfl
    have : s.session.fsm = .cold ∨ s.session.fsm = .asleep ∨ s.session.fsm = .fault := by
      revert hf; cases s.session.fsm <;> simp [fsmTable]
    simp only [exec, execInitFast, initWith, this, ho, if_true]; rfl
  · have ho := ho rfl
    have : s.session.fsm = .readyFull := by revert hf; cases s.session.fsm <;> simp [fsmTable]
    simp only [exec, execDisplayFull, displayWith, this, ho, ne_eq, not_true_eq_false, if_false, Bool.true_eq_false]; rfl
  · have ho := ho rfl
    have : s.session.fsm = .readyFast := by revert hf; cases s.session.fsm <;> simp [fsmTable]
    simp only [exec, execDisplayFast, displayWith, this, ho, ne_eq, not_true_eq_false, if_false, Bool.true_eq_false]; rfl
  · have ho := ho rfl
    have h1 : s.session.fsm = .partialActive := by revert hf; cases s.session.fsm <;> simp [fsmTable]
    have h2 : validWindow s.snap.x s.snap.y s.snap.wd s.snap.ht = true := by
      rw [validWindow, decide_eq_true_iff]; exact not_not.mp hb
    have h3 : s.limitReached = false := by
      rw [State.limitReached, decide_eq_false_iff_not]
      rintro ⟨a, b⟩; exact hl ⟨rfl, a, b⟩
    simp only [exec, execDisplayPartial, h1, h2, h3, ho, ne_eq, not_true_eq_false, if_false, Bool.true_eq_false,
      Bool.false_eq_true]; rfl

/-! ### The copy to BASE and the sleep of CLOSE -/

theorem setBytes_fold_eq (rows : List Nat) (a : Nat → Nat) (bs : Nat → List Byte) (t : State) :
    rows.foldl (fun t y => t.setBytes (a y) (bs y)) t =
      { t with mem := (rows.foldl (fun t y => t.setBytes (a y) (bs y)) t).mem } := by
  induction rows generalizing t with
  | nil => rfl
  | cons y l ih => rw [List.foldl_cons, ih]; rfl

theorem commitWindow_eq (w : Window) (src t : State) :
    commitWindow w src t = { t with mem := (commitWindow w src t).mem } :=
  setBytes_fold_eq w.rows (fun y => baseStart + (Config.rowBytes * y + w.xs)) (fun y => (w.row y).map src.fb) t

@[simp] theorem commitWindow_session (w : Window) (src t : State) : (commitWindow w src t).session = t.session := by
  rw [commitWindow_eq]
@[simp] theorem commitWindow_bus (w : Window) (src t : State) : (commitWindow w src t).bus = t.bus := by
  rw [commitWindow_eq]
@[simp] theorem commitWindow_regs (w : Window) (src t : State) : (commitWindow w src t).regs = t.regs := by
  rw [commitWindow_eq]
@[simp] theorem commitWindow_snap (w : Window) (src t : State) : (commitWindow w src t).snap = t.snap := by
  rw [commitWindow_eq]
@[simp] theorem commitWindow_flags (w : Window) (src t : State) : (commitWindow w src t).flags = t.flags := by
  rw [commitWindow_eq]
@[simp] theorem commitWindow_seq (w : Window) (src t : State) : (commitWindow w src t).seq = t.seq := by
  rw [commitWindow_eq]
@[simp] theorem commitWindow_pos (w : Window) (src t : State) : (commitWindow w src t).pos = t.pos := by
  rw [commitWindow_eq]
@[simp] theorem commitWindow_panel (w : Window) (src t : State) : (commitWindow w src t).panel = t.panel := by
  rw [commitWindow_eq]
@[simp] theorem commitWindow_inReset (w : Window) (src t : State) : (commitWindow w src t).inReset = t.inReset := by
  rw [commitWindow_eq]
@[simp] theorem commitWindow_inputs (w : Window) (src t : State) : (commitWindow w src t).inputs = t.inputs := by
  rw [commitWindow_eq]
@[simp] theorem commitWindow_resp (w : Window) (src t : State) : (commitWindow w src t).resp = t.resp := by
  rw [commitWindow_eq]
@[simp] theorem commitWindow_ramEpoch (w : Window) (src t : State) : (commitWindow w src t).ramEpoch = t.ramEpoch := by
  rw [commitWindow_eq]
@[simp] theorem commitWindow_readDraws (w : Window) (src t : State) : (commitWindow w src t).readDraws = t.readDraws := by
  rw [commitWindow_eq]
@[simp] theorem commitWindow_earlier (w : Window) (src t : State) : (commitWindow w src t).earlier = t.earlier := by
  rw [commitWindow_eq]

@[simp] theorem closeSleep_regs (s : State) : (closeSleep s).1.regs = s.regs := by unfold closeSleep; split <;> rfl
@[simp] theorem closeSleep_snap (s : State) : (closeSleep s).1.snap = s.snap := by unfold closeSleep; split <;> rfl
@[simp] theorem closeSleep_flags (s : State) : (closeSleep s).1.flags = s.flags := by unfold closeSleep; split <;> rfl
@[simp] theorem closeSleep_seq (s : State) : (closeSleep s).1.seq = s.seq := by unfold closeSleep; split <;> rfl
@[simp] theorem closeSleep_pos (s : State) : (closeSleep s).1.pos = s.pos := by unfold closeSleep; split <;> rfl
@[simp] theorem closeSleep_panel (s : State) : (closeSleep s).1.panel = s.panel := by unfold closeSleep; split <;> rfl
@[simp] theorem closeSleep_inReset (s : State) : (closeSleep s).1.inReset = s.inReset := by unfold closeSleep; split <;> rfl
@[simp] theorem closeSleep_inputs (s : State) : (closeSleep s).1.inputs = s.inputs := by unfold closeSleep; split <;> rfl
@[simp] theorem closeSleep_resp (s : State) : (closeSleep s).1.resp = s.resp := by unfold closeSleep; split <;> rfl
@[simp] theorem closeSleep_ramEpoch (s : State) : (closeSleep s).1.ramEpoch = s.ramEpoch := by unfold closeSleep; split <;> rfl
@[simp] theorem closeSleep_readDraws (s : State) : (closeSleep s).1.readDraws = s.readDraws := by unfold closeSleep; split <;> rfl
@[simp] theorem closeSleep_earlier (s : State) : (closeSleep s).1.earlier = s.earlier := by unfold closeSleep; split <;> rfl
@[simp] theorem closeSleep_mem (s : State) : (closeSleep s).1.mem = s.mem := by unfold closeSleep; split <;> rfl

@[simp] theorem release_regs (c : Code) (s : State) : (s.release c).regs = s.regs := rfl
@[simp] theorem release_snap (c : Code) (s : State) : (s.release c).snap = s.snap := rfl
@[simp] theorem release_seq (c : Code) (s : State) : (s.release c).seq = s.seq := rfl
@[simp] theorem release_pos (c : Code) (s : State) : (s.release c).pos = s.pos := rfl
@[simp] theorem release_panel (c : Code) (s : State) : (s.release c).panel = s.panel := rfl
@[simp] theorem release_inReset (c : Code) (s : State) : (s.release c).inReset = s.inReset := rfl
@[simp] theorem release_inputs (c : Code) (s : State) : (s.release c).inputs = s.inputs := rfl
@[simp] theorem release_resp (c : Code) (s : State) : (s.release c).resp = s.resp := rfl
@[simp] theorem release_ramEpoch (c : Code) (s : State) : (s.release c).ramEpoch = s.ramEpoch := rfl
@[simp] theorem release_readDraws (c : Code) (s : State) : (s.release c).readDraws = s.readDraws := rfl
@[simp] theorem release_earlier (c : Code) (s : State) : (s.release c).earlier = s.earlier := rfl
@[simp] theorem release_mem (c : Code) (s : State) : (s.release c).mem = s.mem := rfl
@[simp] theorem release_session (c : Code) (s : State) : (s.release c).session = { s.session with xportOpen := false } := rfl
@[simp] theorem release_flags (c : Code) (s : State) :
    (s.release c).flags = { s.flags with auxCode := c, auxValid := true } := rfl
@[simp] theorem release_bus (c : Code) (s : State) :
    (s.release c).bus = ⟨Lines.allReleased, s.bus.trace ++ [.release]⟩ := rfl

/-! ### Every way a command can end -/

/-- `Ran i s t`: the command `i`, run in state `s`, leaves `t`. -/
inductive Ran : Instr → State → State → Prop where
  /-- A check fails: only the completion fields change (60_exceptions.md R213). -/
  | failed {i s c} : FirstCheck i s c → c ≠ .ok → Ran i s (s.finish c)
  /-- NOP, and CLOSE of a closed transport. -/
  | quiet {i s} : i = .nop ∨ (i = .closeBus ∧ s.session.xportOpen = false) → Ran i s (s.finish .ok)
  | opened {s} : s.session.xportOpen = false →
      Ran .openBus s (((s.setSession { s.session with xportOpen := true }).emit [.drive]).finish .ok)
  | closed {s} : s.session.xportOpen = true →
      Ran .closeBus s (((closeSleep s).1.release (closeSleep s).2).finish .ok)
  | pulsed {s} : s.session.xportOpen = true →
      Ran .rawReset s ((if s.session.fsm = .fault then s.emit (resetPulse s.snap)
        else (s.emit (resetPulse s.snap)).enter .cold).finish .ok)
  | rawCmd {s} : s.session.fsm = .cold → s.session.xportOpen = true →
      Ran .rawCmd s ((s.emit (writeCommand s.snap.b0)).finish .ok)
  | rawData {s} : s.session.fsm = .cold → s.session.xportOpen = true → 1 ≤ s.snap.count → s.snap.count ≤ 4 →
      Ran .rawData s ((s.emit (writeData (s.snap.argBytes.take s.snap.count))).finish .ok)
  | committed {s} : s.session.fsm = .readyFull → s.session.xportOpen = true →
      Ran .commitBase s
        ((((s.emit (writeBank (Config.pcmd .wro) .full s ++ writeBank (Config.pcmd .wrn) .full s)).setBytes baseStart
          ((List.range Config.fbBytes).map s.fb)).setSession
            { s.session with fsm := .partialActive, baseValid := true, pcount := 0#16 }).finish .ok)
  | slept {s} : s.session.fsm = .readyFull ∨ s.session.fsm = .readyFast ∨ s.session.fsm = .partialActive →
      s.session.xportOpen = true → Ran .sleep s (((s.emit deepSleep).enter .asleep).finish .ok)
  | timedOut {i s} : hasWait i = true → FirstCheck i s .ok → s.session.xportOpen = true →
      s.waitResult (waitBound i s) = .timeout →
      Ran i s ((((s.emit (beforeWait i s)).waitIdle (waitBound i s)).enter .fault).finish .hardwareTimeout)
  | waited {i s} : hasWait i = true → FirstCheck i s .ok → s.session.xportOpen = true →
      s.waitResult (waitBound i s) = .idle →
      Ran i s (afterIdle i s ((s.emit (beforeWait i s)).waitIdle (waitBound i s)))
  | cleared {w s} : Ran (.clear w) s
      ((s.setBytes fbStart (List.replicate Config.fbBytes (if w then 0xFF#8 else 0x00#8))).finish .ok)
  | read {s} : Ran .getPixel s
      (State.finish .ok { s with regs := { s.regs with result := resultWord (s.getPixel? s.snap.p0) } })
  | drew {i s} : isShape i = true → ¬ BadArgument i s → Ran i s (drawShape i.color (pointsOf i s) s)

theorem usesBus_of_hasWait {i : Instr} (h : hasWait i = true) : usesBus i = true := by
  cases i <;> simp_all [hasWait, usesBus]

/-- A command with a wait whose checks pass. -/
theorem ran_of_wait {i : Instr} {s : State} (hi : hasWait i = true) (hc : FirstCheck i s .ok) :
    ∃ t, exec i s = .next t ∧ Ran i s t := by
  have ho : s.session.xportOpen = true := by
    obtain _ | _ | _ | _ | _ | ⟨-, ho, -⟩ := hc
    exact ho (usesBus_of_hasWait hi)
  refine ⟨_, exec_wait hi hc, ?_⟩
  rcases waitThen_cases (waitBound i s) (s.emit (beforeWait i s)) (afterIdle i s) with ⟨hw, he⟩ | ⟨hw, he⟩
  · rw [he]; exact .timedOut hi hc ho (by simpa using hw)
  · rw [he]; exact .waited hi hc ho (by simpa using hw)

/-- The first failed check decides (60_exceptions.md R212, R213). -/
theorem exec_of_failed {i : Instr} {s : State} {c : Code} (hc : FirstCheck i s c) (h : c ≠ .ok) :
    exec i s = .next (s.finish c) := by
  cases hc with
  | resourceUnavailable hi ho => subst hi; exact if_pos ho
  | invalidTransition hf =>
    cases i <;> simp only [fsmTable, reduceCtorEq] at hf
    all_goals
      revert hf
      cases hs : s.session.fsm <;> simp [exec, execRawCmd, execRawData, execInitFull, execInitFast, initWith,
        execCommitBase, execDisplayFull, execDisplayFast, displayWith, execDisplayPartial, execSleep, hs]
  | notOpen hf hb ho =>
    cases i <;> simp only [usesBus, Bool.false_eq_true] at hb
    all_goals
      revert hf
      cases hs : s.session.fsm <;> simp [fsmTable, exec, execRawReset, execRawWaitIdle, execRawCmd, execRawData,
        execInitFull, execInitFast, initWith, execCommitBase, execDisplayFull, execDisplayFast, displayWith,
        execDisplayPartial, execSleep, hs, ho]
  | invalidArgument hf ho hb =>
    cases i <;> simp only [BadArgument] at hb
    · have ho := ho rfl
      have hs : s.session.fsm = .cold := by revert hf; cases s.session.fsm <;> simp [fsmTable]
      simp only [exec, execRawData, hs, ho, ne_eq, not_true_eq_false, if_false, Bool.true_eq_false]
      exact if_pos hb
    · have ho := ho rfl
      have hs : s.session.fsm = .partialActive := by revert hf; cases s.session.fsm <;> simp [fsmTable]
      have hv : validWindow s.snap.x s.snap.y s.snap.wd s.snap.ht = false := by
        rw [validWindow, decide_eq_false_iff_not]; exact hb
      simp [exec, execDisplayPartial, hs, ho, hv]
    · exact if_pos hb
  | partialLimit hf ho hb hl =>
    obtain ⟨rfl, h1, h2⟩ := hl
    have ho := ho rfl
    have hs : s.session.fsm = .partialActive := by revert hf; cases s.session.fsm <;> simp [fsmTable]
    have hv : validWindow s.snap.x s.snap.y s.snap.wd s.snap.ht = true := by
      rw [validWindow, decide_eq_true_iff]; exact not_not.mp hb
    have h3 : s.limitReached = true := by
      rw [State.limitReached, decide_eq_true_iff]; exact ⟨h1, h2⟩
    simp [exec, execDisplayPartial, hs, ho, hv, h3]
  | passed => exact absurd rfl h

/-- Some check decides, whatever the command and the state. -/
theorem firstCheck_total (i : Instr) (s : State) : ∃ c, FirstCheck i s c := by
  by_cases h1 : fsmTable i s.session.xportOpen s.session.fsm = none
  · exact ⟨_, .invalidTransition h1⟩
  by_cases h2 : usesBus i = true → s.session.xportOpen = true
  · by_cases h3 : BadArgument i s
    · exact ⟨_, .invalidArgument h1 h2 h3⟩
    by_cases h4 : AtLimit i s
    · exact ⟨_, .partialLimit h1 h2 h3 h4⟩
    by_cases h5 : i = .openBus ∧ s.session.xportOpen = true
    · exact ⟨_, .resourceUnavailable h5.1 h5.2⟩
    · exact ⟨_, .passed h1 h2 h3 h4 fun hi => by simpa [hi] using h5⟩
  · obtain ⟨hb, ho⟩ := Classical.not_imp.mp h2
    exact ⟨_, .notOpen h1 hb (by simpa using ho)⟩

/-- Every command answers a next state, in one of the ways of `Ran`. -/
theorem exec_ran (i : Instr) (s : State) : ∃ t, exec i s = .next t ∧ Ran i s t := by
  obtain ⟨c, hc⟩ := firstCheck_total i s
  by_cases h : c = .ok
  · subst h
    by_cases hw : hasWait i = true
    · exact ran_of_wait hw hc
    by_cases hs : isShape i = true
    · obtain _ | _ | _ | _ | _ | ⟨-, -, hb, -⟩ := hc
      exact ⟨_, exec_shape hs hb, .drew hs hb⟩
    obtain _ | _ | _ | _ | _ | ⟨hf, ho, hb, hl, hr⟩ := hc
    cases i <;> simp only [hasWait, isShape, not_true_eq_false] at hw hs
    · exact ⟨_, rfl, .quiet (.inl rfl)⟩
    · have h := hr rfl
      exact ⟨_, if_neg (by simp [h]), .opened h⟩
    · by_cases h : s.session.xportOpen = true
      · exact ⟨_, if_pos h, .closed h⟩
      · exact ⟨_, if_neg h, .quiet (.inr ⟨rfl, by simpa using h⟩)⟩
    · have h := ho rfl
      exact ⟨_, if_pos h, .pulsed h⟩
    · have h := ho rfl
      have hs : s.session.fsm = .cold := by revert hf; cases s.session.fsm <;> simp [fsmTable]
      exact ⟨_, by simp [exec, execRawCmd, hs, h], .rawCmd hs h⟩
    · have h := ho rfl
      have hs : s.session.fsm = .cold := by revert hf; cases s.session.fsm <;> simp [fsmTable]
      have hb : ¬ (s.snap.count < 1 ∨ 4 < s.snap.count) := hb
      exact ⟨_, by
        simp only [exec, execRawData, hs, h, hb, ne_eq, not_true_eq_false, if_false, Bool.true_eq_false], .rawData hs h (by omega) (by omega)⟩
    · have h := ho rfl
      have hs : s.session.fsm = .readyFull := by revert hf; cases s.session.fsm <;> simp [fsmTable]
      exact ⟨_, by simp only [exec, execCommitBase, hs, h, ne_eq, not_true_eq_false, if_false, Bool.true_eq_false],
        .committed hs h⟩
    · have h := ho rfl
      have hs : s.session.fsm = .readyFull ∨ s.session.fsm = .readyFast ∨ s.session.fsm = .partialActive := by
        revert hf; cases s.session.fsm <;> simp [fsmTable]
      exact ⟨_, by simp [exec, execSleep, hs, h], .slept hs h⟩
    · exact ⟨_, rfl, .cleared⟩
    · exact ⟨_, rfl, .read⟩
  · exact ⟨_, exec_of_failed hc h, .failed hc h⟩

theorem ran_of_exec {i : Instr} {s t : State} (h : exec i s = .next t) : Ran i s t := by
  obtain ⟨u, hu, hr⟩ := exec_ran i s
  rw [h] at hu
  exact (Host.Outcome.next.inj hu) ▸ hr

/-! ### What every command leaves alone -/

/-- A command ends in one completion; only CLOSE writes the AUX fields, only GET_PIXEL a register, RESULT. -/
theorem ran_completes {i : Instr} {s t : State} (h : Ran i s t) :
    ∃ c f, Completes c f s t ∧
      (f = s.flags ∨ i = .closeBus ∧ ∃ a, f = { s.flags with auxCode := a, auxValid := true }) ∧
      t.regs = { s.regs with result := t.regs.result } ∧ (i ≠ .getPixel → t.regs.result = s.regs.result) := by
  have fin : ∀ (c : Code) (u : State), t = u.finish c → u.snap = s.snap → u.inReset = s.inReset → u.inputs = s.inputs →
      u.resp = s.resp → u.ramEpoch = s.ramEpoch → u.readDraws = s.readDraws → u.flags = s.flags → u.regs = s.regs →
      ∃ c f, Completes c f s t ∧ (f = s.flags ∨ i = .closeBus ∧ ∃ a, f = { s.flags with auxCode := a, auxValid := true }) ∧
        t.regs = { s.regs with result := t.regs.result } ∧ (i ≠ .getPixel → t.regs.result = s.regs.result) := by
    intro c u ht h1 h2 h3 h4 h5 h6 h7 h8
    subst ht
    exact ⟨c, u.flags, finish_completes c s u h1 h2 h3 h4 h5 h6, .inl h7, by simp [h8], fun _ => by simp [h8]⟩
  cases h
  case closed =>
    exact ⟨_, _, finish_completes _ s _ (by simp) (by simp) (by simp) (by simp) (by simp) (by simp),
      .inr ⟨rfl, _, by simp; rfl⟩, by simp, fun _ => by simp⟩
  case read => exact ⟨_, _, finish_completes _ s _ rfl rfl rfl rfl rfl rfl, .inl rfl, rfl, fun h => absurd rfl h⟩
  case pulsed =>
    refine fin _ _ rfl ?_ ?_ ?_ ?_ ?_ ?_ ?_ ?_ <;> split_ifs <;> rfl
  case drew => exact fin _ _ (drawShape_eq _ _ _) rfl rfl rfl rfl rfl rfl rfl rfl
  case waited hw _ _ _ =>
    cases i <;> simp only [hasWait, Bool.false_eq_true] at hw
    all_goals
      simp only [afterIdle] at fin ⊢
      refine fin _ _ rfl ?_ ?_ ?_ ?_ ?_ ?_ ?_ ?_ <;> simp
  all_goals refine fin _ _ rfl ?_ ?_ ?_ ?_ ?_ ?_ ?_ ?_ <;> simp

theorem exec_completes (i : Instr) (s : State) :
    ∃ t c f, exec i s = .next t ∧ Completes c f s t ∧
      (f = s.flags ∨ i = .closeBus ∧ ∃ a, f = { s.flags with auxCode := a, auxValid := true }) ∧
      t.regs = { s.regs with result := t.regs.result } ∧ (i ≠ .getPixel → t.regs.result = s.regs.result) := by
  obtain ⟨t, ht, hr⟩ := exec_ran i s
  obtain ⟨c, f, h⟩ := ran_completes hr
  exact ⟨t, c, f, ht, h⟩

end Sys2Proof.Machine
end

