-- ==== Sys2Proof/Laws/Refresh.lean ====
section
/-! SUPPORT. The panel traffic and the base map: what WriteBank sends and what the copy to BASE leaves (41_refresh_fsm.md R153
to R157, R160, R164). -/

namespace Sys2Proof.Machine

/-! ### WriteBank -/

theorem rows_flatten (n : Nat) :
    (List.range n).flatMap (fun y => (List.range 16).map fun c => 16 * y + c) = List.range (16 * n) := by
  induction n with
  | zero => rfl
  | succ n ih => rw [List.range_succ (n := n), List.flatMap_append, ih, Nat.mul_succ, List.range_add]; simp

/-- The full frame in transmission order is FB in index order (20_memory.md R85). -/
theorem fullIndices : Window.full.indices = List.range 4000 := by
  have h := rows_flatten 250
  rw [List.range_eq_range' (n := 250), List.range_eq_range' (n := 16)] at h
  exact h

theorem writeData_cons (b : Byte) (bs : List Byte) : writeData (b :: bs) = [.xact true (b :: bs)] := rfl

theorem writeData_of_ne {bs : List Byte} (h : bs ≠ []) : writeData bs = [.xact true bs] := by
  cases bs with
  | nil => exact absurd rfl h
  | cons b bs => rfl

theorem issuePanel_eq (c : Byte) (d : List Byte) : issuePanel c d = issued c d := by
  cases d <;> rfl

theorem writeBank_full (c : Byte) (s : State) : writeBank c .full s = fullBankEvents c s := by
  have h : (List.range 4000).map s.fb ≠ [] := by simp
  rw [writeBank, fullIndices, writeData_of_ne h]
  rfl

theorem trigger_eq (m : Config.DataRole) :
    trigger m = issued (Config.pcmd .upd) (Config.pcmdData m) ++ [.xact false [Config.pcmd .act]] := by
  rw [trigger, issuePanel_eq]; rfl

theorem initSeq_eq (lut : List Byte) : initSeq lut = initEvents lut := by
  simp only [initSeq, issuePanel_eq, initEvents, List.append_assoc]
  rfl

/-! ### The level EPD_DC keeps after the panel traffic (10_state.md R25) -/

theorem restAfter_issued (l : Lines) (c : Byte) (d : List Byte) :
    restAfter l (issued c d) = { l with dc := if d = [] then .low else .high } := by
  unfold issued; split <;> rfl

theorem restAfter_initEvents (l : Lines) (lut : List Byte) :
    restAfter l (initEvents lut) = { l with dc := if lut = [] then .low else .high } := by
  simp only [initEvents, restAfter_append, restAfter_issued, restAfter_cons, restAfter_nil, Event.rest]

theorem restAfter_fullBankEvents (l : Lines) (c : Byte) (s : State) :
    restAfter l (fullBankEvents c s) = { l with dc := .high } := by
  simp only [fullBankEvents, restAfter_cons, restAfter_nil, Event.rest, dcLevel, if_true]

theorem restAfter_partialEvents (l : Lines) (x y : Int) (wd ht : Nat) (s : State) :
    restAfter l (partialEvents x y wd ht s) = { l with dc := .low } := by
  simp only [partialEvents, restAfter_append, restAfter_issued, restAfter_cons, restAfter_nil, Event.rest, dcLevel,
    Bool.false_eq_true, if_false]

/-! ### Windows -/

/-- What a valid window means for its byte columns and rows (R163). -/
theorem window_bounds {x y : Int} {wd ht : Nat} (h : ValidWindow x y wd ht) :
    (windowOf x y wd ht).xe ≤ 15 ∧ (windowOf x y wd ht).ye ≤ 249 ∧
      (windowOf x y wd ht).xs ≤ (windowOf x y wd ht).xe ∧ (windowOf x y wd ht).ys ≤ (windowOf x y wd ht).ye := by
  obtain ⟨h1, h2, h3, h4, h5, h6, h7, h8⟩ := h
  simp only [windowOf]
  omega

theorem byteOf_eq {n : Nat} {z : Int} (h : (n : Int) = z) : byteOf n = BitVec.ofInt 8 z := by
  subst h; simp [byteOf]

/-- WriteBank of a valid window, as the rule writes its events. -/
theorem writeBank_window {x y : Int} {wd ht : Nat} (h : ValidWindow x y wd ht) (s : State) :
    writeBank (Config.pcmd .wrn) (windowOf x y wd ht) s ++ trigger .updPartial = partialEvents x y wd ht s := by
  have hb := window_bounds h
  obtain ⟨h1, h2, h3, h4, h5, h6, h7, h8⟩ := h
  have hrows : (windowOf x y wd ht).rows = (List.range ht).map fun j => y.toNat + j := by
    simp only [Window.rows, windowOf, show y.toNat + ht - 1 + 1 - y.toNat = ht by omega, List.range'_eq_map_range]
  have hrow : ∀ r, (windowOf x y wd ht).row r = (List.range ((wd + 7) / 8)).map fun k => 16 * r + (x.toNat / 8 + k) := by
    intro r
    simp only [Window.row, windowOf, Config.rowBytes,
      show (x.toNat + wd - 1) / 8 + 1 - x.toNat / 8 = (wd + 7) / 8 by omega, List.range'_eq_map_range, List.map_map]
    rfl
  have hdata : (windowOf x y wd ht).indices.map s.fb = windowBytes x y wd ht s := by
    simp only [Window.indices, hrows, hrow, windowBytes, List.map_flatMap, List.flatMap_map, List.map_map]
    rfl
  have hne : windowBytes x y wd ht s ≠ [] := by
    simp only [windowBytes, ne_eq, List.flatMap_eq_nil_iff, List.map_eq_nil_iff, List.range_eq_nil, not_forall]
    exact ⟨0, List.mem_range.mpr (by omega), by omega⟩
  have e1 : byteOf (windowOf x y wd ht).xs = BitVec.ofInt 8 (x / 8) := byteOf_eq (by simp only [windowOf]; omega)
  have e2 : byteOf (windowOf x y wd ht).xe = BitVec.ofInt 8 ((x + wd - 1) / 8) := byteOf_eq (by simp only [windowOf]; omega)
  have e3 : byteOf ((windowOf x y wd ht).ys % 256) = BitVec.ofInt 8 (y % 256) := byteOf_eq (by simp only [windowOf]; omega)
  have e4 : byteOf ((windowOf x y wd ht).ys / 256) = BitVec.ofInt 8 (y / 256) := byteOf_eq (by simp only [windowOf]; omega)
  have e5 : byteOf ((windowOf x y wd ht).ye % 256) = BitVec.ofInt 8 ((y + ht - 1) % 256) :=
    byteOf_eq (by simp only [windowOf]; omega)
  have e6 : byteOf ((windowOf x y wd ht).ye / 256) = BitVec.ofInt 8 ((y + ht - 1) / 256) :=
    byteOf_eq (by simp only [windowOf]; omega)
  rw [writeBank, hdata, writeData_of_ne hne, trigger_eq]
  simp only [setWindow, encRxw, encRyw, encRxc, encRyc, e1, e2, e3, e4, e5, e6, partialEvents, rowBytes, issuePanel,
    writeData_cons, writeCommand, List.cons_append, List.nil_append, List.append_assoc]

/-! ### The copy to BASE -/

theorem length_row (w : Window) (y : Nat) : (w.row y).length = w.xe + 1 - w.xs := by simp [Window.row]

/-- The copy row by row: an offset inside one of the rows takes the source's byte, any other keeps its own. -/
theorem byteAt_commitRows (w : Window) (src : State) (rows : List Nat) (t : State) (a : Nat) :
    (rows.foldl (fun t y => t.setBytes (baseStart + (Config.rowBytes * y + w.xs)) ((w.row y).map src.fb)) t).byteAt a =
      if ∃ y ∈ rows, baseStart + (Config.rowBytes * y + w.xs) ≤ a ∧
          a < baseStart + (Config.rowBytes * y + w.xs) + (w.xe + 1 - w.xs) then src.fb (a - baseStart)
      else t.byteAt a := by
  induction rows generalizing t with
  | nil => simp
  | cons y l ih =>
    rw [List.foldl_cons, ih]
    by_cases h : ∃ y ∈ l, baseStart + (Config.rowBytes * y + w.xs) ≤ a ∧
          a < baseStart + (Config.rowBytes * y + w.xs) + (w.xe + 1 - w.xs)
    · rw [if_pos h, if_pos (by obtain ⟨z, hz, hb⟩ := h; exact ⟨z, List.mem_cons_of_mem _ hz, hb⟩)]
    · rw [if_neg h, byteAt_setBytes, List.length_map, length_row]
      by_cases hy : baseStart + (Config.rowBytes * y + w.xs) ≤ a ∧
          a < baseStart + (Config.rowBytes * y + w.xs) + (w.xe + 1 - w.xs)
      · rw [if_pos hy, if_pos ⟨y, List.mem_cons_self, hy⟩]
        obtain ⟨d, rfl⟩ := Nat.exists_eq_add_of_le hy.1
        have hk : d < w.xe + 1 - w.xs := by omega
        rw [Nat.add_sub_cancel_left, Nat.add_assoc, Nat.add_sub_cancel_left, List.getD_eq_getElem?_getD, List.getElem?_map,
          Window.row, List.getElem?_map, List.getElem?_range' hk]
        simp only [Option.map_some, Option.getD_some, Nat.one_mul, Nat.add_assoc]
      · rw [if_neg hy, if_neg]
        rintro ⟨z, hz, hb⟩
        rcases List.mem_cons.mp hz with rfl | hz
        · exact hy hb
        · exact h ⟨z, hz, hb⟩

/-- BASE after the copy of a valid window: FB's bytes inside it, its own outside (R164). -/
theorem base_commitWindow {x y : Int} {wd ht : Nat} (h : ValidWindow x y wd ht) (src t : State) {i : Nat} (hi : i < 4000) :
    (inWindow x y wd ht i → (commitWindow (windowOf x y wd ht) src t).base i = src.fb i) ∧
      (¬ inWindow x y wd ht i → (commitWindow (windowOf x y wd ht) src t).base i = t.base i) := by
  have hb := window_bounds h
  obtain ⟨h1, h2, h3, h4, h5, h6, h7, h8⟩ := h
  have key : (∃ r ∈ (windowOf x y wd ht).rows, baseStart + (Config.rowBytes * r + (windowOf x y wd ht).xs) ≤ baseStart + i ∧
      baseStart + i < baseStart + (Config.rowBytes * r + (windowOf x y wd ht).xs) +
        ((windowOf x y wd ht).xe + 1 - (windowOf x y wd ht).xs)) ↔ inWindow x y wd ht i := by
    simp only [Window.rows, List.mem_range'_1, Config.rowBytes, inWindow]
    simp only [windowOf] at hb ⊢
    constructor
    · rintro ⟨r, hr, hc⟩; omega
    · rintro ⟨g1, g2, g3, g4⟩; exact ⟨i / 16, by omega, by omega⟩
  simp only [State.base, commitWindow, byteAt_commitRows]
  refine ⟨fun hw => ?_, fun hw => if_neg (mt key.mp hw)⟩
  rw [if_pos (key.mpr hw), Nat.add_sub_cancel_left]

/-- The copy of a valid window writes BASE alone. -/
theorem byteAt_commitWindow_of_not_base {x y : Int} {wd ht : Nat} (h : ValidWindow x y wd ht) (src t : State) {a : Nat}
    (ha : isBase a = false) : (commitWindow (windowOf x y wd ht) src t).byteAt a = t.byteAt a := by
  have hb := window_bounds h
  simp only [commitWindow, byteAt_commitRows]
  rw [if_neg]
  rintro ⟨r, hr, h1, h2⟩
  simp only [Window.rows, List.mem_range'_1] at hr
  have ha := of_decide_eq_false ha
  simp only [Config.rowBytes] at h1 h2
  have hf : Config.fbBytes = 4000 := rfl
  omega

theorem commitWindow_wf {x y : Int} {wd ht : Nat} (h : ValidWindow x y wd ht) (src : State) {t : State} (ht' : t.mem.wf) :
    (commitWindow (windowOf x y wd ht) src t).mem.wf := by
  have hb := window_bounds h
  have key : ∀ rows : List Nat, (∀ r ∈ rows, r ≤ 249) → ∀ t : State, t.mem.wf →
      (rows.foldl (fun t r => t.setBytes (baseStart + (Config.rowBytes * r + (windowOf x y wd ht).xs))
        (((windowOf x y wd ht).row r).map src.fb)) t).mem.wf := by
    intro rows
    induction rows with
    | nil => intro _ t ht; exact ht
    | cons r l ih =>
      intro hr t ht
      refine ih (fun z hz => hr z (List.mem_cons_of_mem _ hz)) _ (putRange_wf ht fun a h1 h2 => ?_)
      have := hr r List.mem_cons_self
      rw [List.length_map, length_row] at h2
      simp only [Config.rowBytes] at h1 h2
      have hf : Config.fbBytes = 4000 := rfl
      have hx : isBase a = true := decide_eq_true (by omega)
      simp [isArray, hx]
  refine key _ (fun r hr => ?_) t ht'
  simp only [Window.rows, List.mem_range'_1] at hr
  omega

/-- A whole copy of FB to BASE (R160). -/
theorem byteAt_copyAll (src t : State) (a : Nat) :
    (t.setBytes baseStart ((List.range Config.fbBytes).map src.fb)).byteAt a =
      if isBase a then src.fb (a - baseStart) else t.byteAt a := by
  rw [byteAt_setBytes, List.length_map, List.length_range]
  by_cases h : baseStart ≤ a ∧ a < baseStart + Config.fbBytes
  · rw [if_pos h, if_pos (by simpa [isBase] using h), List.getD_eq_getElem?_getD, List.getElem?_map,
      List.getElem?_range (by omega)]
    rfl
  · rw [if_neg h, if_neg (by simpa [isBase] using h)]

/-- The bytes after a wait that ended Idle: only DISPLAY_PARTIAL writes any. -/
theorem byteAt_afterIdle (i : Instr) (s t : State) (a : Nat) :
    (afterIdle i s t).byteAt a =
      if i = .displayPartial then (commitWindow s.snap.window s t).byteAt a else t.byteAt a := by
  by_cases h : i = .displayPartial
  · subst h; rfl
  · rw [if_neg h]; cases i <;> first | rfl | exact absurd rfl h

end Sys2Proof.Machine
end

