-- ==== Sys2Proof/Laws/Step.lean ====
section
/-! SUPPORT. What a step can do, said once: the inversion of `step`, what a host access can do, that every operation keeps
the canonical form of the memory, and that a command reads nothing a host access can write. -/

namespace Sys2Proof.Machine

/-! ### The running command -/

theorem runCommand_ok {s : State} {i : Instr} (h : decode s.snap.cmd = .ok i) : runCommand s = exec i s := by
  simp only [runCommand, h]

theorem runCommand_error {s : State} {e : DecodeError} (h : decode s.snap.cmd = .error e) :
    runCommand s = .next (s.finish .invalidCommand) := by simp only [runCommand, h]

/-- The running command always completes. -/
theorem runCommand_next (s : State) : ∃ t, runCommand s = .next t := by
  cases h : decode s.snap.cmd with
  | ok i => obtain ⟨t, ht, -⟩ := exec_ran i s; exact ⟨t, by rw [runCommand_ok h, ht]⟩
  | error e => exact ⟨_, runCommand_error h⟩

theorem runCommand_cases {s t : State} (h : runCommand s = .next t) :
    (∃ i, decode s.snap.cmd = .ok i ∧ Ran i s t) ∨ t = s.finish .invalidCommand := by
  cases hd : decode s.snap.cmd with
  | ok i => rw [runCommand_ok hd] at h; exact .inl ⟨i, rfl, ran_of_exec h⟩
  | error e => rw [runCommand_error hd] at h; exact .inr (Host.Outcome.next.inj h).symm

theorem completed_eq {s t : State} (h : runCommand s = .next t) : s.completed = t := by simp [State.completed, h]

@[simp] theorem busy_iff (s : State) : s.busy = true ↔ s.seq = .running := by simp [State.busy]

theorem busy_eq_false (s : State) : s.busy = false ↔ s.seq = .idle := by cases h : s.seq <;> simp [State.busy, h]

/-! ### A step -/

/-- What a step does to the input at the head of the queue, `s` being the state without it. -/
inductive Served : Input → State → State → Prop where
  | access {a s} : Served (.access a) s (s.hostAccess a)
  | waitRead {s} : s.seq = .idle → Served .wait s (s.hostRead 0x008 4)
  | waitRun {s t} : s.seq = .running → runCommand { s with inputs := .wait :: s.inputs } = .next t → Served .wait s t
  | moved {n c s} : Served (.advance n c) s (s.advance n c)
  | ran {s t} : s.seq = .running → runCommand s = .next t → Served .complete s t
  | nothing {s} : s.seq = .idle → Served .complete s s
  | clk {b s} : Served (.clk b) s { s with panel := s.panel.clk b }
  | resetAssert {s} : Served .resetAssert s s.blockReset
  | resetRelease {s} : Served .resetRelease s { s with inReset := false }

theorem controllerTurn_cases {s t : State} (h : controllerTurn s = .next t) :
    (s.seq = .running ∧ runCommand s = .next t) ∨ (s.seq = .idle ∧ t = s) := by
  unfold controllerTurn at h
  cases hs : s.busy <;> rw [hs] at h
  · exact .inr ⟨(busy_eq_false s).mp hs, (Host.Outcome.next.inj h).symm⟩
  · exact .inl ⟨(busy_iff s).mp hs, h⟩

/-- Every input is served. -/
theorem serve_served (i : Input) (s : State) : ∃ t, serve i s = .next t ∧ Served i s t := by
  cases i with
  | access a => exact ⟨_, rfl, .access⟩
  | wait =>
    cases hs : s.busy
    · exact ⟨_, by simp [serve, State.waitLoop, hs], .waitRead ((busy_eq_false s).mp hs)⟩
    · obtain ⟨t, ht⟩ := runCommand_next { s with inputs := .wait :: s.inputs }
      exact ⟨t, by simp [serve, State.waitLoop, hs, ht], .waitRun ((busy_iff s).mp hs) ht⟩
  | advance n c => exact ⟨_, rfl, .moved⟩
  | complete =>
    cases hs : s.busy
    · exact ⟨s, by simp [serve, controllerTurn, hs], .nothing ((busy_eq_false s).mp hs)⟩
    · obtain ⟨t, ht⟩ := runCommand_next s
      exact ⟨t, by simp [serve, controllerTurn, hs, ht], .ran ((busy_iff s).mp hs) ht⟩
  | clk b => exact ⟨_, rfl, .clk⟩
  | resetAssert => exact ⟨_, rfl, .resetAssert⟩
  | resetRelease => exact ⟨_, rfl, .resetRelease⟩

theorem served_of_serve {i : Input} {s t : State} (h : serve i s = .next t) : Served i s t := by
  obtain ⟨u, hu, hr⟩ := serve_served i s
  rw [h] at hu
  exact (Host.Outcome.next.inj hu) ▸ hr

/-- Every way a step can go. -/
theorem step_cases {s t : State} (h : step s = .next t) :
    (s.inputs = [] ∧ s.seq = .idle ∧ t = s) ∨ (s.inputs = [] ∧ s.seq = .running ∧ runCommand s = .next t) ∨
      ∃ i rest, s.inputs = i :: rest ∧ Served i { s with inputs := rest } t := by
  unfold step at h
  split at h
  · rename_i hi
    rcases controllerTurn_cases h with ⟨h1, h2⟩ | ⟨h1, h2⟩
    · exact .inr (.inl ⟨hi, h1, h2⟩)
    · exact .inl ⟨hi, h1, h2⟩
  · rename_i i rest hi
    exact .inr (.inr ⟨i, rest, hi, served_of_serve h⟩)

/-! ### A host access -/

theorem setByte_eq (s : State) (a : Nat) (v : Byte) : s.setByte a v = { s with mem := (s.setByte a v).mem } := rfl

theorem storeBytes_eq (off n : Nat) (v : Word) (s : State) :
    s.storeBytes off n v = { s with mem := (s.storeBytes off n v).mem } := by
  unfold State.storeBytes
  induction List.range n generalizing s with
  | nil => rfl
  | cons k l ih =>
    rw [List.foldl_cons]
    split_ifs
    · rw [ih]; rfl
    · exact ih s

/-- A write to CMD issues, or sets OVERRUN (30_encoding.md R101, R102). -/
theorem writeCmd_cases (w : Word) (s : State) :
    (s.seq = .idle ∧ s.writeCmd w = s.issue w) ∨
      (s.seq = .running ∧ s.writeCmd w = { s with flags := { s.flags with overrun := true } }) := by
  unfold State.writeCmd
  cases hs : s.busy
  · exact .inl ⟨(busy_eq_false s).mp hs, rfl⟩
  · exact .inr ⟨(busy_iff s).mp hs, rfl⟩

/-- What a write to a register can change: the registers and the flags, or an issue. -/
theorem writeReg_cases (w : Word) (s : State) (r : Reg) :
    (r = .cmd ∧ s.seq = .idle ∧ s.writeReg w r = s.issue w) ∨
      (s.writeReg w r = { s with regs := (s.writeReg w r).regs, flags := (s.writeReg w r).flags } ∧
        (s.writeReg w r).regs.cmd = s.regs.cmd ∧ (s.writeReg w r).regs.result = s.regs.result) := by
  cases r
  case cmd =>
    rcases writeCmd_cases w s with ⟨h1, h2⟩ | ⟨h1, h2⟩
    · exact .inl ⟨rfl, h1, h2⟩
    · refine .inr ?_
      simp only [State.writeReg, h2, and_self]
  all_goals exact .inr ⟨rfl, rfl, rfl⟩

theorem readRegister_eq {off : Nat} {r : Reg} (h : regAt off = some r) (s : State) : s.readRegister off = s.readReg r := by
  simp [State.readRegister, h]

theorem writeRegister_eq {off : Nat} {r : Reg} (h : regAt off = some r) (s : State) (w : Word) :
    s.writeRegister off w = s.writeReg w r := by simp [State.writeRegister, h]

theorem readRegister_none {off : Nat} (h : regAt off = none) (s : State) : s.readRegister off = 0#32 := by
  simp [State.readRegister, h]

theorem writeRegister_none {off : Nat} (h : regAt off = none) (s : State) (w : Word) : s.writeRegister off w = s := by
  simp [State.writeRegister, h]

/-- Every way a host access can go: an answer alone, a write to a register, or a write to the memory regions. -/
theorem hostAccess_cases (a : Access) (s : State) :
    (s.hostAccess a = { s with resp := (s.hostAccess a).resp, readDraws := (s.hostAccess a).readDraws }) ∨
    (∃ off w r, a = .write off 4 w ∧ regAt off.toNat = some r ∧ s.inReset = false ∧
      s.hostAccess a = { s.writeReg w r with resp := .done }) ∨
    ∃ off n w, a = .write off n w ∧ 0x1000 ≤ off.toNat ∧ s.inReset = false ∧
      s.hostAccess a = { s.writeBytes off.toNat n w with resp := .done } := by
  cases a with
  | read off n =>
    left
    simp only [State.hostAccess, State.hostRead]
    split_ifs <;> rfl
  | write off n w =>
    simp only [State.hostAccess, State.hostWrite]
    split_ifs with h1 h2 h3
    · exact .inl rfl
    · cases hr : regAt off.toNat with
      | none => left; rw [writeRegister_none hr]
      | some r =>
        right; left
        have hn : n = 4 := by simp [legalAccess, h3] at h2; exact h2.1
        subst hn
        exact ⟨off, w, r, rfl, hr, by simpa using h1, by rw [writeRegister_eq hr]⟩
    · exact .inr (.inr ⟨off, n, w, rfl, by omega, by simpa using h1, rfl⟩)
    · exact .inl rfl

/-- A write to the memory regions: dropped while it would store under a running command, else stored. -/
theorem writeBytes_cases (off n : Nat) (w : Word) (s : State) :
    (s.seq = .running ∧ (∃ k < n, isStored (off + k) = true) ∧
        s.writeBytes off n w = { s with flags := { s.flags with dropped := true } }) ∨
      ((s.seq = .running → ∀ k < n, isStored (off + k) = false) ∧ s.writeBytes off n w = s.storeBytes off n w) := by
  unfold State.writeBytes
  split_ifs with h
  · simp only [Bool.and_eq_true, busy_iff, List.any_eq_true, List.mem_range] at h
    exact .inl ⟨h.1, h.2, rfl⟩
  · refine .inr ⟨fun hs k hk => ?_, rfl⟩
    simp only [Bool.and_eq_true, busy_iff, hs, true_and, List.any_eq_true, List.mem_range, not_exists, not_and] at h
    simpa using h k hk

/-- A write of bytes none of which is stored changes nothing. -/
theorem storeBytes_none {off n : Nat} {w : Word} {s : State} (h : ∀ k < n, isStored (off + k) = false) :
    s.storeBytes off n w = s := by
  unfold State.storeBytes
  have : ∀ l : List Nat, (∀ k ∈ l, k < n) →
      l.foldl (fun t k => if isStored (off + k) = true then t.setByte (off + k) (laneByte w k) else t) s = s := by
    intro l
    induction l with
    | nil => intro _; rfl
    | cons k l ih =>
      intro hl
      rw [List.foldl_cons, if_neg (by simp [h k (hl k List.mem_cons_self)])]
      exact ih fun j hj => hl j (List.mem_cons_of_mem _ hj)
  exact this _ fun k hk => List.mem_range.mp hk

/-- The byte at an address after a store of `n` bytes. -/
theorem byteAt_storeBytes (off n : Nat) (w : Word) (s : State) (x : Nat) :
    (s.storeBytes off n w).byteAt x =
      if off ≤ x ∧ x < off + n ∧ isStored x = true then laneByte w (x - off) else s.byteAt x := by
  unfold State.storeBytes
  induction n with
  | zero => rw [if_neg (by omega)]; rfl
  | succ n ih =>
    rw [List.range_succ, List.foldl_append, List.foldl_cons, List.foldl_nil]
    by_cases hx : x = off + n
    · subst hx
      by_cases hs : isStored (off + n) = true
      · rw [if_pos hs, byteAt_setByte, if_pos rfl, if_pos ⟨by omega, by omega, hs⟩, Nat.add_sub_cancel_left]
      · rw [if_neg hs, ih, if_neg (by omega), if_neg (by rintro ⟨_, _, h⟩; exact hs h)]
    · have : (off ≤ x ∧ x < off + (n + 1) ∧ isStored x = true) ↔ (off ≤ x ∧ x < off + n ∧ isStored x = true) := by
        constructor <;> rintro ⟨h1, h2, h3⟩ <;> exact ⟨h1, by omega, h3⟩
      simp only [this]
      by_cases hs : isStored (off + n) = true
      · rw [if_pos hs, byteAt_setByte, if_neg hx, ih]
      · rw [if_neg hs, ih]

/-! ### The canonical form of the memory, under every operation -/

theorem isArray_of_isFb {a : Nat} (h : isFb a = true) : isArray a = true := by simp [isArray, h]
theorem isArray_of_isBase {a : Nat} (h : isBase a = true) : isArray a = true := by simp [isArray, h]
theorem isArray_of_isStored {a : Nat} (h : isStored a = true) : isArray a = true := by
  simp only [isStored, Bool.or_eq_true] at h
  rcases h with h | h <;> simp [isArray, h]

theorem storeBytes_wf {off n : Nat} {w : Word} {s : State} (h : s.mem.wf) : (s.storeBytes off n w).mem.wf := by
  unfold State.storeBytes
  induction List.range n generalizing s with
  | nil => exact h
  | cons k l ih =>
    rw [List.foldl_cons]
    split_ifs with hs
    · exact ih (put_wf h (isArray_of_isStored hs) _)
    · exact ih h

theorem setBase_wf {s : State} {bs : List Byte} (hb : bs.length = Config.fbBytes) (h : s.mem.wf) :
    (s.setBytes baseStart bs).mem.wf :=
  putRange_wf h fun x h1 h2 => isArray_of_isBase (decide_eq_true ⟨h1, hb ▸ h2⟩)

theorem setFb_wf {s : State} {bs : List Byte} (hb : bs.length = Config.fbBytes) (h : s.mem.wf) :
    (s.setBytes fbStart bs).mem.wf :=
  putRange_wf h fun x h1 h2 => isArray_of_isFb (decide_eq_true ⟨h1, hb ▸ h2⟩)

/-- A DISPLAY_PARTIAL that passes its checks has a valid window (41_refresh_fsm.md R163). -/
theorem validWindow_of_passed {s : State} (h : FirstCheck .displayPartial s .ok) :
    ValidWindow s.snap.x s.snap.y s.snap.wd s.snap.ht := by
  obtain _ | _ | _ | _ | _ | ⟨-, -, hb, -⟩ := h
  exact not_not.mp hb

/-- Every command keeps the canonical form. -/
theorem ran_wf {i : Instr} {s t : State} (h : Ran i s t) (hw : s.mem.wf) : t.mem.wf := by
  cases h
  case closed => simpa using hw
  case pulsed => split_ifs <;> exact hw
  case committed => simpa only [State.finish_mem, State.setSession_mem] using setBase_wf (s := s.emit _) (by simp) hw
  case cleared => simpa only [State.finish_mem] using setFb_wf (by simp) hw
  case drew => rw [drawShape_eq]; exact plotAll_wf hw _ _
  case waited =>
    rename hasWait i = true => hi
    rename FirstCheck i s .ok => hc
    cases i <;> simp only [hasWait, Bool.false_eq_true] at hi
    case displayPartial =>
      exact commitWindow_wf (validWindow_of_passed hc) s (t := (s.emit _).waitIdle _) hw
    all_goals exact hw
  all_goals exact hw

theorem runCommand_wf {s t : State} (h : runCommand s = .next t) (hw : s.mem.wf) : t.mem.wf := by
  rcases runCommand_cases h with ⟨i, -, hr⟩ | rfl
  · exact ran_wf hr hw
  · exact hw

theorem hostAccess_wf {a : Access} {s : State} (hw : s.mem.wf) : (s.hostAccess a).mem.wf := by
  rcases hostAccess_cases a s with h | ⟨off, w, r, -, -, -, h⟩ | ⟨off, n, w, -, -, -, h⟩
  · rw [h]; exact hw
  · rw [h]
    rcases writeReg_cases w s r with ⟨-, -, h'⟩ | ⟨h', -⟩
    · rw [h']; exact hw
    · rw [h']; exact hw
  · rw [h]
    rcases writeBytes_cases off.toNat n w s with ⟨-, -, h'⟩ | ⟨-, h'⟩
    · rw [h']; exact hw
    · rw [h']; exact storeBytes_wf hw

end Sys2Proof.Machine
end

