-- ==== Sys2Proof/Laws/Congr.lean ====
section
/-! SUPPORT. A command reads only what the running command owns: two states that agree on the session, the bus, the bytes, the
snapshot and the panel complete alike (10_state.md R46, 20_memory.md R75). -/

namespace Sys2Proof.Machine

/-- What a command reads and writes, beside the flags of its completion. Of the panel it takes the answers alone: the level
on EPD_BUSY does not matter. -/
structure SameRun (s u : State) : Prop where
  session : u.session = s.session
  bus : u.bus = s.bus
  mem : u.mem = s.mem
  ramEpoch : u.ramEpoch = s.ramEpoch
  snap : u.snap = s.snap
  answers : u.panel.answers = s.panel.answers
  draws : u.panel.draws = s.panel.draws
  result : u.regs.result = s.regs.result
  auxCode : u.flags.auxCode = s.flags.auxCode
  auxValid : u.flags.auxValid = s.flags.auxValid

namespace SameRun

variable {s u : State}

theorem byteAt (h : SameRun s u) (a : Nat) : u.byteAt a = s.byteAt a := State.byteAt_congr h.mem h.ramEpoch a

theorem fb (h : SameRun s u) : u.fb = s.fb := funext fun _ => h.byteAt _
theorem glyph (h : SameRun s u) : u.glyph = s.glyph := funext fun _ => h.byteAt _

theorem emit (h : SameRun s u) (es : List Event) : SameRun (s.emit es) (u.emit es) :=
  { h with bus := by simp [h.bus] }

theorem setSession (h : SameRun s u) (x : Session) : SameRun (s.setSession x) (u.setSession x) := { h with session := rfl }

theorem enter (h : SameRun s u) (f : Fsm) : SameRun (s.enter f) (u.enter f) := { h with session := by simp [h.session] }

theorem finish (h : SameRun s u) (c : Code) : SameRun (s.finish c) (u.finish c) := { h with }

theorem waitResult (h : SameRun s u) (t : Nat) : u.waitResult t = s.waitResult t := by
  simp only [State.waitResult, Panel.next, h.answers, h.draws]

theorem waitIdle (h : SameRun s u) (t : Nat) : SameRun (s.waitIdle t) (u.waitIdle t) :=
  { h with
    bus := by simp [h.bus, h.waitResult]
    answers := by simp only [State.waitIdle_panel, Panel.afterWait, h.answers]; split <;> first | rfl | exact h.answers
    draws := by simp only [State.waitIdle_panel, Panel.afterWait, h.answers, h.draws]; split <;> first | rfl | exact h.draws }

theorem setByte (h : SameRun s u) (a : Nat) (v : Byte) : SameRun (s.setByte a v) (u.setByte a v) :=
  { h with mem := by simp [h.mem] }

theorem setBytes (h : SameRun s u) (a : Nat) (bs : List Byte) : SameRun (s.setBytes a bs) (u.setBytes a bs) :=
  { h with mem := by simp [h.mem] }

theorem plot (h : SameRun s u) (w : Bool) (p : Point) : SameRun (s.plot w p) (u.plot w p) := by
  have hs : u.sees p = s.sees p := by simp only [State.sees, h.snap]
  have hn : u.native p = s.native p := by simp only [State.native, h.snap]
  by_cases hp : s.sees p = true
  · rw [State.plot, State.plot, if_pos hp, if_pos (by rwa [hs])]
    simp only [hn, h.byteAt]
    exact h.setByte _ _
  · rw [State.plot, State.plot, if_neg hp, if_neg (by rwa [hs])]
    exact h

theorem plotAll (h : SameRun s u) (w : Bool) (ps : List Point) : SameRun (s.plotAll w ps) (u.plotAll w ps) := by
  induction ps generalizing s u with
  | nil => exact h
  | cons p ps ih => exact ih (h.plot w p)

theorem closeSleep (h : SameRun s u) :
    SameRun (Machine.closeSleep s).1 (Machine.closeSleep u).1 ∧ (Machine.closeSleep u).2 = (Machine.closeSleep s).2 := by
  simp only [Machine.closeSleep, h.session]
  split
  all_goals first
    | exact ⟨(h.emit _).enter _, rfl⟩
    | exact ⟨h, rfl⟩

theorem release (h : SameRun s u) (c : Code) : SameRun (s.release c) (u.release c) :=
  { h with session := by simp [h.session], bus := by simp [h.bus], auxCode := rfl, auxValid := rfl }

theorem writeBank (h : SameRun s u) (c : Byte) (w : Window) : Machine.writeBank c w u = Machine.writeBank c w s := by
  simp only [Machine.writeBank, h.fb]

theorem commitWindow (h : SameRun s u) (w : Window) {a b : State} (hb : b.fb = a.fb) :
    SameRun (Machine.commitWindow w a s) (Machine.commitWindow w b u) := by
  simp only [Machine.commitWindow, hb]
  induction w.rows generalizing s u with
  | nil => exact h
  | cons y l ih => exact ih (h.setBytes _ _)

theorem beforeWait (h : SameRun s u) (i : Instr) : Machine.beforeWait i u = Machine.beforeWait i s := by
  cases i <;> simp only [Machine.beforeWait, h.snap, h.writeBank]

theorem waitBound (h : SameRun s u) (i : Instr) : Machine.waitBound i u = Machine.waitBound i s := by
  cases i <;> simp only [Machine.waitBound, h.snap]

theorem afterIdle (h : SameRun s u) (i : Instr) {a b : State} (h' : SameRun a b) :
    SameRun (Machine.afterIdle i s a) (Machine.afterIdle i u b) ∧
      (Machine.afterIdle i u b).flags.lastCode = (Machine.afterIdle i s a).flags.lastCode := by
  cases i
  case initFull => exact ⟨((h'.emit _).enter _).finish _, rfl⟩
  case initFast => exact ⟨((h'.emit _).enter _).finish _, rfl⟩
  case displayPartial =>
    have hc := h'.commitWindow s.snap.window h.fb
    refine ⟨?_, by simp only [Machine.afterIdle, State.finish_flags, Flags.complete_lastCode]⟩
    simp only [Machine.afterIdle, h.snap, hc.session]
    exact (hc.setSession _).finish _
  all_goals exact ⟨h'.finish _, rfl⟩

theorem badArgument (h : SameRun s u) (i : Instr) : BadArgument i u ↔ BadArgument i s := by
  cases i <;> simp only [BadArgument, State.lowArg1, State.highArg1, State.pt0, h.snap]

theorem firstCheck (h : SameRun s u) {i : Instr} {c : Code} (hc : FirstCheck i s c) : FirstCheck i u c := by
  have hl : AtLimit i u ↔ AtLimit i s := by simp only [AtLimit, h.snap, h.session]
  cases hc
  case resourceUnavailable a b => exact .resourceUnavailable a (by rwa [h.session])
  case invalidTransition a => exact .invalidTransition (by rwa [h.session])
  case notOpen a b c => exact .notOpen (by rwa [h.session]) b (by rwa [h.session])
  case invalidArgument a b c => exact .invalidArgument (by rwa [h.session]) (by rwa [h.session]) ((h.badArgument i).mpr c)
  case partialLimit a b c d =>
    exact .partialLimit (by rwa [h.session]) (by rwa [h.session]) (mt (h.badArgument i).mp c) (hl.mpr d)
  case passed a b c d e =>
    exact .passed (by rwa [h.session]) (by rwa [h.session]) (mt (h.badArgument i).mp c) (mt hl.mp d) (by rwa [h.session])

theorem pointsOf (h : SameRun s u) (i : Instr) : Machine.pointsOf i u = Machine.pointsOf i s := by
  cases i <;> simp only [Machine.pointsOf, h.snap]
  have hk : u.ink = s.ink := by funext a b c; simp only [State.ink, h.glyph]
  simp only [State.blitPoints, hk]

/-- A command does the same in both states. -/
theorem exec (h : SameRun s u) (i : Instr) : ∃ t v, Machine.exec i s = .next t ∧ Machine.exec i u = .next v ∧
    SameRun t v ∧ v.flags.lastCode = t.flags.lastCode := by
  obtain ⟨t, ht, hr⟩ := exec_ran i s
  cases hr
  case failed c hn hc => exact ⟨_, _, ht, exec_of_failed (h.firstCheck hc) hn, h.finish _, by simp only [State.finish_flags, Flags.complete_lastCode]⟩
  case quiet hq =>
    refine ⟨_, u.finish .ok, ht, ?_, h.finish _, by simp only [State.finish_flags, Flags.complete_lastCode]⟩
    rcases hq with rfl | ⟨rfl, ho⟩
    · rfl
    · simp [Machine.exec, execClose, h.session, ho]
  case opened ho =>
    refine ⟨_, _, ht, if_neg (by simp [h.session, ho]), ?_, by simp only [State.finish_flags, Flags.complete_lastCode]⟩
    rw [h.session]
    exact ((h.setSession _).emit _).finish _
  case closed ho =>
    refine ⟨_, _, ht, if_pos (by rwa [h.session]), ?_, by simp only [State.finish_flags, Flags.complete_lastCode]⟩
    rw [h.closeSleep.2]
    exact (h.closeSleep.1.release _).finish _
  case pulsed ho =>
    refine ⟨_, _, ht, if_pos (by rwa [h.session]), ?_, by simp only [State.finish_flags, Flags.complete_lastCode]⟩
    simp only [State.emit_session, h.session, h.snap]
    split_ifs
    · exact (h.emit _).finish _
    · exact ((h.emit _).enter _).finish _
  case rawCmd hf ho =>
    refine ⟨_, _, ht, (if_neg (by simp [h.session, hf])).trans (if_neg (by simp [h.session, ho])), ?_, by simp only [State.finish_flags, Flags.complete_lastCode]⟩
    rw [h.snap]
    exact (h.emit _).finish _
  case rawData hf ho h1 h2 =>
    refine ⟨_, _, ht, (if_neg (by simp [h.session, hf])).trans
      ((if_neg (by simp [h.session, ho])).trans (if_neg (by rw [h.snap]; omega))), ?_, by simp only [State.finish_flags, Flags.complete_lastCode]⟩
    rw [h.snap]
    exact (h.emit _).finish _
  case committed hf ho =>
    refine ⟨_, _, ht, (if_neg (by simp [h.session, hf])).trans (if_neg (by simp [h.session, ho])), ?_, by simp only [State.finish_flags, Flags.complete_lastCode]⟩
    simp only [h.writeBank, h.fb, h.session]
    exact ((((h.emit _).setBytes _ _).setSession _).finish _)
  case slept hf ho =>
    refine ⟨_, _, ht, (if_pos (by rwa [h.session])).trans (if_pos (by rwa [h.session])), ?_, by simp only [State.finish_flags, Flags.complete_lastCode]⟩
    exact ((h.emit _).enter _).finish _
  case timedOut =>
    rename hasWait i = true => hi
    rename FirstCheck i s .ok => hc
    rename s.waitResult _ = _ => hw
    refine ⟨_, _, ht, ?_, (((h.emit _).waitIdle _).enter _).finish _, by simp only [State.finish_flags, Flags.complete_lastCode]⟩
    rw [exec_wait hi (h.firstCheck hc), h.beforeWait, h.waitBound]
    exact congrArg _ (waitThen_timeout (by rw [emit_waitResult, h.waitResult]; exact hw) _)
  case waited =>
    rename hasWait i = true => hi
    rename FirstCheck i s .ok => hc
    rename s.waitResult _ = _ => hw
    have hk := h.afterIdle i ((h.emit (Machine.beforeWait i s)).waitIdle (Machine.waitBound i s))
    refine ⟨_, _, ht, ?_, hk.1, hk.2⟩
    rw [exec_wait hi (h.firstCheck hc), h.beforeWait, h.waitBound]
    exact congrArg _ (waitThen_idle (by rw [emit_waitResult, h.waitResult]; exact hw) _)
  case cleared => exact ⟨_, _, ht, rfl, (h.setBytes _ _).finish _, by simp only [State.finish_flags, Flags.complete_lastCode]⟩
  case read =>
    refine ⟨_, _, ht, rfl, { h.finish .ok with result := ?_ }, by simp only [State.finish_flags, Flags.complete_lastCode]⟩
    have hg : u.getPixel? = s.getPixel? := by
      funext p
      have hs : u.sees p = s.sees p := by simp only [State.sees, h.snap]
      have hb : u.pixelBit p = s.pixelBit p := by simp only [State.pixelBit, State.native, h.snap, h.fb]
      simp only [State.getPixel?, hs, hb]
    simp only [State.finish_regs, hg, h.snap]
  case drew hi hb =>
    refine ⟨_, _, ht, exec_shape hi (mt (h.badArgument i).mp hb), ?_, by simp only [drawShape, State.finish_flags, Flags.complete_lastCode]⟩
    rw [h.pointsOf]
    exact (h.plotAll _ _).finish _

theorem runCommand (h : SameRun s u) : ∃ t v, Machine.runCommand s = .next t ∧ Machine.runCommand u = .next v ∧
    SameRun t v ∧ v.flags.lastCode = t.flags.lastCode := by
  cases hd : decode s.snap.cmd with
  | ok i =>
    obtain ⟨t, v, h1, h2, h3⟩ := h.exec i
    exact ⟨t, v, by rw [runCommand_ok hd, h1], by rw [runCommand_ok (by rwa [h.snap]), h2], h3⟩
  | error e => exact ⟨_, _, runCommand_error hd, runCommand_error (e := e) (by rwa [h.snap]), h.finish _, rfl⟩

end SameRun

/-- A command leaves the level on EPD_BUSY and the synchronizer alone (10_state.md R26). -/
theorem ran_pins {i : Instr} {s t : State} (h : Ran i s t) :
    t.panel.pin = s.panel.pin ∧ t.panel.sync1 = s.panel.sync1 ∧ t.panel.sync2 = s.panel.sync2 := by
  cases h
  case pulsed => split_ifs <;> exact ⟨rfl, rfl, rfl⟩
  case drew => rw [drawShape_eq]; exact ⟨rfl, rfl, rfl⟩
  case waited =>
    rename hasWait i = true => hi
    cases i <;> simp only [hasWait, Bool.false_eq_true] at hi <;> simp [afterIdle]
  all_goals simp

theorem runCommand_pins {s t : State} (h : runCommand s = .next t) :
    t.panel.pin = s.panel.pin ∧ t.panel.sync1 = s.panel.sync1 ∧ t.panel.sync2 = s.panel.sync2 := by
  rcases runCommand_cases h with ⟨i, -, hr⟩ | rfl
  · exact ran_pins hr
  · exact ⟨rfl, rfl, rfl⟩

theorem panel_ext {p q : Panel} (h1 : p.pin = q.pin) (h2 : p.sync1 = q.sync1) (h3 : p.sync2 = q.sync2)
    (h4 : p.answers = q.answers) (h5 : p.draws = q.draws) : p = q := by
  cases p; cases q; simp_all

theorem hostAccess_panel (a : Access) (s : State) : (s.hostAccess a).panel = s.panel := by
  rcases hostAccess_cases a s with h | ⟨off, w, r, -, -, -, h⟩ | ⟨off, n, w, -, -, -, h⟩
  · rw [h]
  · rw [h]
    rcases writeReg_cases w s r with ⟨-, -, h'⟩ | ⟨h', -⟩ <;> rw [h'] <;> rfl
  · rw [h]
    rcases writeBytes_cases off.toNat n w s with ⟨-, -, h'⟩ | ⟨-, h'⟩
    · rw [h']
    · rw [h', storeBytes_eq]

/-- While a command runs, a host access changes nothing the command reads or writes (20_memory.md R69). -/
theorem sameRun_hostAccess {s : State} (hs : s.seq = .running) (a : Access) : SameRun s (s.hostAccess a) := by
  rcases hostAccess_cases a s with h | ⟨off, w, r, -, -, -, h⟩ | ⟨off, n, w, -, -, -, h⟩
  · rw [h]; exact ⟨rfl, rfl, rfl, rfl, rfl, rfl, rfl, rfl, rfl, rfl⟩
  · rw [h]
    cases r
    case cmd =>
      rcases writeCmd_cases w s with ⟨h', -⟩ | ⟨-, h'⟩
      · rw [hs] at h'; cases h'
      · simp only [State.writeReg, h']; exact ⟨rfl, rfl, rfl, rfl, rfl, rfl, rfl, rfl, rfl, rfl⟩
    all_goals exact ⟨rfl, rfl, rfl, rfl, rfl, rfl, rfl, rfl, rfl, rfl⟩
  · rw [h]
    rcases writeBytes_cases off.toNat n w s with ⟨-, -, h'⟩ | ⟨hn, h'⟩
    · rw [h']; exact ⟨rfl, rfl, rfl, rfl, rfl, rfl, rfl, rfl, rfl, rfl⟩
    · rw [h', storeBytes_none (hn hs)]; exact ⟨rfl, rfl, rfl, rfl, rfl, rfl, rfl, rfl, rfl, rfl⟩

end Sys2Proof.Machine
end

