-- ==== Sys2Proof/Laws/PerInstr.lean ====
section
/-! SUPPORT. Facts about each instruction as syntax: its command word against its row of opcode_table.json. -/

namespace Sys2Proof.Laws.RowMatch

/-- The instruction's command word is the pattern of one row of the table but for its COLOR bit, the row takes the word and
builds the instruction from that bit, and no other row takes it (30_encoding.md R91 to R93). -/
def Statement (i : Instr) : Prop :=
  (opcodeTable.filter fun r => r.takes (encode i)).length = 1 ∧
    ∃ r ∈ opcodeTable, r.takes (encode i) = true ∧ r.build i.color = i ∧
      encode i = if i.color then r.pattern ||| 0x100#32 else r.pattern

theorem nop : Statement .nop :=
  ⟨by decide, opcodeTable[0], List.getElem_mem (by decide), by decide, rfl, by decide⟩

theorem openBus : Statement .openBus :=
  ⟨by decide, opcodeTable[1], List.getElem_mem (by decide), by decide, rfl, by decide⟩

theorem closeBus : Statement .closeBus :=
  ⟨by decide, opcodeTable[2], List.getElem_mem (by decide), by decide, rfl, by decide⟩

theorem rawReset : Statement .rawReset :=
  ⟨by decide, opcodeTable[3], List.getElem_mem (by decide), by decide, rfl, by decide⟩

theorem rawCmd : Statement .rawCmd :=
  ⟨by decide, opcodeTable[4], List.getElem_mem (by decide), by decide, rfl, by decide⟩

theorem rawData : Statement .rawData :=
  ⟨by decide, opcodeTable[5], List.getElem_mem (by decide), by decide, rfl, by decide⟩

theorem rawWaitIdle : Statement .rawWaitIdle :=
  ⟨by decide, opcodeTable[6], List.getElem_mem (by decide), by decide, rfl, by decide⟩

theorem initFull : Statement .initFull :=
  ⟨by decide, opcodeTable[7], List.getElem_mem (by decide), by decide, rfl, by decide⟩

theorem initFast : Statement .initFast :=
  ⟨by decide, opcodeTable[8], List.getElem_mem (by decide), by decide, rfl, by decide⟩

theorem commitBase : Statement .commitBase :=
  ⟨by decide, opcodeTable[9], List.getElem_mem (by decide), by decide, rfl, by decide⟩

theorem displayFull : Statement .displayFull :=
  ⟨by decide, opcodeTable[10], List.getElem_mem (by decide), by decide, rfl, by decide⟩

theorem displayFast : Statement .displayFast :=
  ⟨by decide, opcodeTable[11], List.getElem_mem (by decide), by decide, rfl, by decide⟩

theorem displayPartial : Statement .displayPartial :=
  ⟨by decide, opcodeTable[12], List.getElem_mem (by decide), by decide, rfl, by decide⟩

theorem sleep : Statement .sleep :=
  ⟨by decide, opcodeTable[13], List.getElem_mem (by decide), by decide, rfl, by decide⟩

theorem clear (white : Bool) : Statement (.clear white) :=
  ⟨by cases white <;> decide, opcodeTable[14], List.getElem_mem (by decide), by cases white <;> decide, rfl, by cases white <;> decide⟩

theorem pixel (white : Bool) : Statement (.pixel white) :=
  ⟨by cases white <;> decide, opcodeTable[15], List.getElem_mem (by decide), by cases white <;> decide, rfl, by cases white <;> decide⟩

theorem getPixel : Statement .getPixel :=
  ⟨by decide, opcodeTable[16], List.getElem_mem (by decide), by decide, rfl, by decide⟩

theorem line (white : Bool) : Statement (.line white) :=
  ⟨by cases white <;> decide, opcodeTable[17], List.getElem_mem (by decide), by cases white <;> decide, rfl, by cases white <;> decide⟩

theorem rect (white : Bool) : Statement (.rect white) :=
  ⟨by cases white <;> decide, opcodeTable[18], List.getElem_mem (by decide), by cases white <;> decide, rfl, by cases white <;> decide⟩

theorem rectf (white : Bool) : Statement (.rectf white) :=
  ⟨by cases white <;> decide, opcodeTable[19], List.getElem_mem (by decide), by cases white <;> decide, rfl, by cases white <;> decide⟩

theorem circle (white : Bool) : Statement (.circle white) :=
  ⟨by cases white <;> decide, opcodeTable[20], List.getElem_mem (by decide), by cases white <;> decide, rfl, by cases white <;> decide⟩

theorem circlef (white : Bool) : Statement (.circlef white) :=
  ⟨by cases white <;> decide, opcodeTable[21], List.getElem_mem (by decide), by cases white <;> decide, rfl, by cases white <;> decide⟩

theorem blit (white : Bool) : Statement (.blit white) :=
  ⟨by cases white <;> decide, opcodeTable[22], List.getElem_mem (by decide), by cases white <;> decide, rfl, by cases white <;> decide⟩

end Sys2Proof.Laws.RowMatch
end

