-- ==== Sys2Proof/Laws/Trace.lean ====
section
/-! SUPPORT. What a command puts on the bus trace, said once for every command, and the induction over one step: a property
that every part of a step keeps is kept by the step. -/

namespace Sys2Proof.Machine

/-! ### One step -/

/-- A property that every part of a step keeps is kept by the step. -/
theorem step_keeps {P : State → Prop} (hq : ∀ s l, P s → P { s with inputs := l })
    (hrun : ∀ s t, s.seq = .running → runCommand s = .next t → P s → P t)
    (hacc : ∀ a s, P s → P (s.hostAccess a))
    (hadv : ∀ n c s, P s → P (s.advance n c))
    (hclk : ∀ b s, P s → P { s with panel := s.panel.clk b })
    (hres : ∀ s, P s → P s.blockReset)
    (hrel : ∀ s, P s → P { s with inReset := false }) {s t : State} (h : step s = .next t) (hp : P s) : P t := by
  rcases step_cases h with ⟨-, -, rfl⟩ | ⟨-, h1, h2⟩ | ⟨i, rest, hi, hs⟩
  · exact hp
  · exact hrun _ _ h1 h2 hp
  · have hp' := hq s rest hp
    cases hs
    case access => exact hacc _ _ hp'
    case waitRead => exact hacc (.read 0x008 4) _ hp'
    case waitRun h1 h2 => exact hrun _ _ (by exact h1) h2 (hq _ _ hp')
    case moved => exact hadv _ _ _ hp'
    case ran h1 h2 => exact hrun _ _ h1 h2 hp'
    case nothing => exact hp'
    case clk => exact hclk _ _ hp'
    case resetAssert => exact hres _ hp'
    case resetRelease => exact hrel _ hp'

/-- A property that every way a command can end keeps is kept by the controller's turn. -/
theorem run_keeps {P : State → Prop} (hran : ∀ i s t, Ran i s t → P s → P t) (hfin : ∀ s, P s → P (s.finish .invalidCommand))
   : ∀ s t, s.seq = .running → runCommand s = .next t → P s → P t := by
  intro s t _ h hp
  rcases runCommand_cases h with ⟨i, -, hr⟩ | rfl
  · exact hran i s t hr hp
  · exact hfin s hp

theorem advance_eq (n c : Nat) (s : State) : s.advance n c = { s with pos := (s.advance n c).pos } := by
  unfold State.advance; dsimp only; split_ifs <;> rfl

theorem hostAccess_session_bus (a : Access) (s : State) : (s.hostAccess a).session = s.session ∧ (s.hostAccess a).bus = s.bus := by
  rcases hostAccess_cases a s with h | ⟨off, w, r, -, -, -, h⟩ | ⟨off, n, w, -, -, -, h⟩
  · rw [h]; exact ⟨rfl, rfl⟩
  · rw [h]
    rcases writeReg_cases w s r with ⟨-, -, h'⟩ | ⟨h', -⟩ <;> rw [h'] <;> exact ⟨rfl, rfl⟩
  · rw [h]
    rcases writeBytes_cases off.toNat n w s with ⟨-, -, h'⟩ | ⟨-, h'⟩
    · rw [h']; exact ⟨rfl, rfl⟩
    · rw [h', storeBytes_eq]; exact ⟨rfl, rfl⟩

/-! ### The events of a command -/

theorem setWindow_legal (w : Window) : ∀ e ∈ setWindow w, e.inSession = true ∧ e.legal = true := by
  intro e he
  simp only [setWindow, List.mem_append] at he
  rcases he with ((h | h) | h) | h <;> exact issuePanel_inSession e h

theorem writeBank_legal (c : Byte) (w : Window) (s : State) : ∀ e ∈ writeBank c w s, e.inSession = true ∧ e.legal = true := by
  intro e he
  simp only [writeBank, List.mem_append] at he
  rcases he with (h | h) | h
  · exact setWindow_legal w e h
  · exact writeCommand_inSession e h
  · exact writeData_inSession e h

theorem trigger_legal (m : Config.DataRole) : ∀ e ∈ trigger m, e.inSession = true ∧ e.legal = true := by
  intro e he
  simp only [trigger, List.mem_append] at he
  rcases he with h | h <;> exact issuePanel_inSession e h

theorem initSeq_legal (l : List Byte) : ∀ e ∈ initSeq l, e.inSession = true ∧ e.legal = true := by
  intro e he
  simp only [initSeq, List.mem_append] at he
  rcases he with (((((h | h) | h) | h) | h) | h) | h <;> exact issuePanel_inSession e h

theorem pulse_legal {s : State} (h : s.holdsLegal) : ∀ e ∈ resetPulse s.snap, e.inSession = true ∧ e.legal = true := by
  intro e he
  simp only [resetPulse, List.mem_singleton] at he
  subst he
  refine ⟨rfl, ?_⟩
  have h1 := h.2.2.1; have h2 := h.2.2.2
  rw [BitVec.le_def] at h1 h2
  simpa [Event.legal] using ⟨h1, h2⟩

theorem pulse_inSession {s : State} : ∀ e ∈ resetPulse s.snap, e.inSession = true := by
  intro e he
  simp only [resetPulse, List.mem_singleton] at he
  subst he
  rfl

theorem beforeWait_inSession (i : Instr) (s : State) : ∀ e ∈ beforeWait i s, e.inSession = true := by
  intro e he
  cases i <;> simp only [beforeWait, List.not_mem_nil, List.mem_append] at he
  case initFull => exact pulse_inSession e he
  case initFast => exact pulse_inSession e he
  all_goals
    rcases he with h | h
    · exact (writeBank_legal _ _ _ e h).1
    · exact (trigger_legal _ e h).1

theorem beforeWait_legal (i : Instr) {s : State} (hl : s.holdsLegal) : ∀ e ∈ beforeWait i s, e.legal = true := by
  intro e he
  cases i <;> simp only [beforeWait, List.not_mem_nil, List.mem_append] at he
  case initFull => exact (pulse_legal hl e he).2
  case initFast => exact (pulse_legal hl e he).2
  all_goals
    rcases he with h | h
    · exact (writeBank_legal _ _ _ e h).2
    · exact (trigger_legal _ e h).2

/-- What a command appends to the trace: events of an open session; or `Drive`; or `Release` last. -/
theorem ran_events {i : Instr} {s t : State} (h : Ran i s t) :
   ∃ es, t.bus = ⟨restAfter s.bus.lines es, s.bus.trace ++ es⟩ ∧ (s.holdsLegal → ∀ e ∈ es, e.legal = true) ∧
     ((t.session.xportOpen = s.session.xportOpen ∧ ∀ e ∈ es, e.inSession = true ∧ s.session.xportOpen = true) ∨
      (s.session.xportOpen = false ∧ t.session.xportOpen = true ∧ es = [.drive]) ∨
      (s.session.xportOpen = true ∧ t.session.xportOpen = false ∧ ∃ fs, es = fs ++ [.release] ∧ ∀ e ∈ fs, e.inSession = true)) := by
  cases h
  case failed => exact ⟨[], by simp⟩
  case quiet => exact ⟨[], by simp⟩
  case opened ho => exact ⟨[.drive], by simp, by simp [Event.legal], .inr (.inl ⟨ho, rfl, rfl⟩)⟩
  case closed ho =>
    have hd : ∀ e ∈ deepSleep, e.legal = true := fun e he => (issuePanel_inSession e he).2
    cases hf : s.session.fsm
    case cold => exact ⟨[.release], by simp [closeSleep, hf, Event.rest], by simp [Event.legal], .inr (.inr ⟨ho, rfl, [], rfl, by simp⟩)⟩
    case asleep => exact ⟨[.release], by simp [closeSleep, hf, Event.rest], by simp [Event.legal], .inr (.inr ⟨ho, rfl, [], rfl, by simp⟩)⟩
    case fault => exact ⟨[.release], by simp [closeSleep, hf, Event.rest], by simp [Event.legal], .inr (.inr ⟨ho, rfl, [], rfl, by simp⟩)⟩
    all_goals
      refine ⟨deepSleep ++ [.release], by simp [closeSleep, hf, Event.rest, restAfter_append], fun _ e he => ?_, .inr (.inr ⟨ho, rfl, _, rfl, fun e he => (issuePanel_inSession e he).1⟩)⟩
      rcases List.mem_append.mp he with h | h
      · exact hd e h
      · rw [List.mem_singleton.mp h]; rfl
  case pulsed ho => 
    refine ⟨resetPulse s.snap, ?_, fun hl e he => (pulse_legal hl e he).2, .inl ⟨?_, fun e he => ⟨pulse_inSession e he, ho⟩⟩⟩ <;> split_ifs <;> rfl
  case rawCmd _ ho => exact ⟨_, rfl, fun _ e he => (writeCommand_inSession e he).2, .inl ⟨rfl, fun e he => ⟨(writeCommand_inSession e he).1, ho⟩⟩⟩
  case rawData _ ho _ _ => exact ⟨_, rfl, fun _ e he => (writeData_inSession e he).2, .inl ⟨rfl, fun e he => ⟨(writeData_inSession e he).1, ho⟩⟩⟩
  case committed _ ho => 
    have : ∀ e ∈ writeBank (Config.pcmd .wro) .full s ++ writeBank (Config.pcmd .wrn) .full s, e.inSession = true ∧ e.legal = true := by
      intro e he
      rcases List.mem_append.mp he with h | h <;> exact writeBank_legal _ _ _ e h
    exact ⟨_, by simp only [State.finish_bus, State.setSession_bus, State.setBytes_bus, State.emit_bus], fun _ e he => (this e he).2, .inl ⟨by simp, fun e he => ⟨(this e he).1, ho⟩⟩⟩
  case slept _ ho =>
    have : ∀ e ∈ deepSleep, e.inSession = true ∧ e.legal = true := issuePanel_inSession
    exact ⟨_, rfl, fun _ e he => (this e he).2, .inl ⟨rfl, fun e he => ⟨(this e he).1, ho⟩⟩⟩
  case timedOut ho =>
    refine ⟨beforeWait i s ++ [.wait (waitBound i s) (s.waitResult (waitBound i s))], by simp [restAfter_append, Event.rest], fun hl e he => ?_, .inl ⟨rfl, fun e he => ⟨?_, ‹_›⟩⟩⟩
    · rcases List.mem_append.mp he with h | h
      · exact beforeWait_legal i hl e h
      · rw [List.mem_singleton.mp h]; rfl
    · rcases List.mem_append.mp he with h | h
      · exact beforeWait_inSession i s e h
      · rw [List.mem_singleton.mp h]; rfl
  case waited =>
    rename hasWait i = true => hi
    have ho : s.session.xportOpen = true := by assumption
    have key : ∃ fs, (∀ e ∈ fs, e.inSession = true ∧ e.legal = true) ∧ ∀ u : State, (afterIdle i s u).bus = ⟨restAfter u.bus.lines fs, u.bus.trace ++ fs⟩ ∧ (afterIdle i s u).session.xportOpen = u.session.xportOpen := by
      cases i <;> simp only [hasWait, Bool.false_eq_true] at hi
      case initFull => exact ⟨_, initSeq_legal _, fun u => ⟨rfl, rfl⟩⟩
      case initFast => exact ⟨_, initSeq_legal _, fun u => ⟨rfl, rfl⟩⟩
      all_goals exact ⟨[], by simp, fun u => ⟨by simp [afterIdle], by simp [afterIdle]⟩⟩
    obtain ⟨fs, hfs, hk⟩ := key
    refine ⟨beforeWait i s ++ [.wait (waitBound i s) (s.waitResult (waitBound i s))] ++ fs, ?_, fun hl e he => ?_, .inl ⟨?_, fun e he => ⟨?_, ‹_›⟩⟩⟩
    · rw [(hk _).1]; simp [restAfter_append, Event.rest]
    · rcases List.mem_append.mp he with he | h
      · rcases List.mem_append.mp he with h | h
        · exact beforeWait_legal i hl e h
        · rw [List.mem_singleton.mp h]; rfl
      · exact (hfs e h).2
    · rw [(hk _).2]; rfl
    · rcases List.mem_append.mp he with he | h
      · rcases List.mem_append.mp he with h | h
        · exact beforeWait_inSession i s e h
        · rw [List.mem_singleton.mp h]; rfl
      · exact (hfs e h).1
  case cleared => exact ⟨[], by simp⟩
  case read => exact ⟨[], by simp⟩
  case drew => rw [drawShape_eq]; exact ⟨[], by simp⟩

theorem runCommand_events {s t : State} (h : runCommand s = .next t) : ∃ es, t.bus.trace = s.bus.trace ++ es ∧ (s.holdsLegal → ∀ e ∈ es, e.legal = true) := by
  rcases runCommand_cases h with ⟨i, -, hr⟩ | rfl
  · obtain ⟨es, hb, hl, -⟩ := ran_events hr
    exact ⟨es, by rw [hb], hl⟩
  · exact ⟨[], by simp⟩

theorem runEvents_legal {s : State} (hl : s.holdsLegal) : ∀ e ∈ s.runEvents, e.legal = true := by
  unfold State.runEvents
  split_ifs
  · obtain ⟨t, ht⟩ := runCommand_next s
    obtain ⟨es, h1, h2⟩ := runCommand_events ht
    rw [completed_eq ht, h1, List.drop_left]
    exact h2 hl
  · simp

/-! ### The events before the last block reset -/

/-- No command changes what was on the trace before the last block reset. -/
theorem ran_earlier {i : Instr} {s t : State} (h : Ran i s t) : t.earlier = s.earlier := by
  cases h
  case pulsed => split_ifs <;> rfl
  case drew => rw [drawShape_eq]; rfl
  case waited hw _ _ _ =>
    cases i <;> simp only [hasWait, Bool.false_eq_true] at hw
    all_goals simp [afterIdle]
  all_goals simp

theorem runCommand_earlier {s t : State} (h : runCommand s = .next t) : t.earlier = s.earlier := by
  rcases runCommand_cases h with ⟨i, -, hr⟩ | rfl
  · exact ran_earlier hr
  · rfl

theorem hostAccess_earlier (a : Access) (s : State) : (s.hostAccess a).earlier = s.earlier := by
  rcases hostAccess_cases a s with h | ⟨off, w, r, -, -, -, h⟩ | ⟨off, n, w, -, -, -, h⟩
  · rw [h]
  · rw [h]
    rcases writeReg_cases w s r with ⟨-, -, h'⟩ | ⟨h', -⟩ <;> rw [h'] <;> rfl
  · rw [h]
    rcases writeBytes_cases off.toNat n w s with ⟨-, -, h'⟩ | ⟨-, h'⟩
    · rw [h']
    · rw [h', storeBytes_eq]

/-! ### The trace inside a running command -/

theorem runEvents_idle {s : State} (h : s.seq = .idle) : s.runEvents = [] := by
  simp [State.runEvents, (busy_eq_false s).mpr h]

/-- The events of a run are events of an open session, or `Drive`, or end in `Release`. -/
theorem runEvents_shape (s : State) :
    (∀ e ∈ s.runEvents, e.inSession = true ∧ s.session.xportOpen = true) ∨
      (s.session.xportOpen = false ∧ s.runEvents = [.drive]) ∨
      (s.session.xportOpen = true ∧ ∃ fs, s.runEvents = fs ++ [.release] ∧ ∀ e ∈ fs, e.inSession = true) := by
  unfold State.runEvents
  split_ifs
  · obtain ⟨t, ht⟩ := runCommand_next s
    rw [completed_eq ht]
    rcases runCommand_cases ht with ⟨i, -, hr⟩ | rfl
    · obtain ⟨es, hb, -, h⟩ := ran_events hr
      simp only [hb, List.drop_left]
      rcases h with ⟨-, h⟩ | ⟨h1, -, h2⟩ | ⟨h1, -, h2⟩
      · exact .inl h
      · exact .inr (.inl ⟨h1, h2⟩)
      · exact .inr (.inr ⟨h1, h2⟩)
    · exact .inl (by simp)
  · exact .inl (by simp)

/-- Events of an open session leave the lines driven. -/
theorem inSession_driven (es : List Event) (l : Lines) (h : ∀ e ∈ es, e.inSession = true) :
    drivenAfter true es = true ∧ (restAfter l es).sclk = l.sclk := by
  induction es generalizing l with
  | nil => exact ⟨rfl, rfl⟩
  | cons e es ih =>
    have h0 := h e List.mem_cons_self
    have := fun l' => ih l' fun x hx => h x (List.mem_cons_of_mem _ hx)
    cases e <;> first | exact absurd h0 (by decide) | exact ⟨(this l).1, (this _).2⟩

/-- Inside a run the lines are driven exactly when they are not released. -/
theorem drivenNow_iff {s : State} (h : s.linesLegal) : s.drivenNow = true ↔ s.restNow ≠ Lines.allReleased := by
  have hopen : s.session.xportOpen = true → s.bus.lines.sclk = .low := by
    intro ho
    rw [State.linesLegal, if_pos ho] at h
    rw [h.1]; rfl
  have ne : ∀ l : Lines, l.sclk = .low → l ≠ Lines.allReleased := by
    intro l hl he
    rw [he] at hl; cases hl
  unfold State.drivenNow State.restNow
  rcases runEvents_shape s with hs | ⟨ho, hs⟩ | ⟨ho, fs, hs, hf⟩
  · by_cases ho : s.session.xportOpen = true
    · have := inSession_driven (s.runEvents.take s.pos.events) s.bus.lines fun e he => (hs e (List.mem_of_mem_take he)).1
      rw [ho]
      exact ⟨fun _ => ne _ (this.2.trans (hopen ho)), fun _ => this.1⟩
    · have hn : s.runEvents = [] := List.eq_nil_iff_forall_not_mem.mpr fun e he => ho (hs e he).2
      rw [State.linesLegal, if_neg ho] at h
      simp [hn, drivenAfter, restAfter, h, ho]
  · rw [State.linesLegal, if_neg (by simp [ho])] at h
    rw [hs, h, ho]
    cases s.pos.events <;> simp [drivenAfter, restAfter, Event.rest, Lines.atIdle, Lines.allReleased]
  · by_cases hp : s.pos.events ≤ fs.length
    · have := inSession_driven (fs.take s.pos.events) s.bus.lines fun e he => hf e (List.mem_of_mem_take he)
      rw [hs, List.take_append_of_le_length hp, ho]
      exact ⟨fun _ => ne _ (this.2.trans (hopen ho)), fun _ => this.1⟩
    · rw [hs, List.take_of_length_le (by simp; omega)]
      simp [drivenAfter, restAfter, Event.rest]

theorem traceNow_idle {s : State} (h : s.seq = .idle) : s.traceNow = s.bus.trace := by
  simp [State.traceNow, runEvents_idle h]

theorem SameRun.runEvents {s u : State} (h : SameRun s u) (hq : u.seq = s.seq) : u.runEvents = s.runEvents := by
  obtain ⟨t, v, h1, h2, h3, -⟩ := h.runCommand
  unfold State.runEvents State.busy
  rw [completed_eq h1, completed_eq h2, h3.bus, h.bus, hq]

theorem SameRun.traceNow {s u : State} (h : SameRun s u) (hq : u.seq = s.seq) (hp : u.pos = s.pos) : u.traceNow = s.traceNow := by
  simp only [State.traceNow, h.runEvents hq, h.bus, hp]

end Sys2Proof.Machine
end

