-- ==== Sys2Proof/Laws/Wire.lean ====
section
/-! SUPPORT. The lengths of the waveforms, and what the synchronizer hands a wait. -/

namespace Sys2Proof.Machine

theorem byteWave_length (h : Nat) (l : Lines) (b : Byte) : (byteWave h l b).length = 16 * h := by
  simp [byteWave, wireBits, bitWave]; omega

theorem flatMap_byteWave_length (h : Nat) (l : Lines) (bs : List Byte) :
    (bs.flatMap (byteWave h l)).length = 16 * h * bs.length := by
  induction bs with
  | nil => rfl
  | cons b bs ih => rw [List.flatMap_cons, List.length_append, byteWave_length, ih, List.length_cons]; ring

/-- The synchronizer after the edges of a list of levels: the second stage is two levels behind (10_state.md R26). -/
theorem clk_sync2 (pins : List Bool) (p : Panel) :
    some (pins.foldl (fun q b => q.clk b) p).sync2 = (p.sync2 :: p.sync1 :: pins)[pins.length]? := by
  induction pins generalizing p with
  | nil => rfl
  | cons b bs ih => rw [List.foldl_cons, ih]; simp [Panel.clk]

@[simp] theorem busySamples_length (pins : List Bool) (p : Panel) : (busySamples p pins).length = pins.length + 1 := by
  induction pins generalizing p with
  | nil => rfl
  | cons b bs ih => simp [busySamples, ih]

/-- A wait's samples are the second stage after each number of edges. -/
theorem busySamples_eq (pins : List Bool) (p : Panel) :
    busySamples p pins = ((p.sync2 :: p.sync1 :: pins).take (pins.length + 1)).map (· == Config.busyActive) := by
  induction pins generalizing p with
  | nil => rfl
  | cons b bs ih => rw [busySamples, ih]; simp [Panel.clk]

end Sys2Proof.Machine
end

