-- ==== Sys2Proof/Tests/Slice0.lean ====
section
/-! SUPPORT. The model's own tests. Expected results come from the opcode map (30_encoding.md R92, R107) and from
95_test_vectors.md, whose vector is named beside each test; `witness_…` shows states and operands that meet the hypotheses of
an obligation. -/

namespace Sys2Proof.Tests

open Sys2Proof Sys2Proof.Machine

/-! ### Helpers -/

/-- A state in which a command runs: the session, the operands and the bytes listed in memory. -/
def cmdState (f : Fsm) (isOpen : Bool) (a0 a1 a2 : Word) (m : Memory) : State :=
  { State.reset with
    session := ⟨f, isOpen, f == .partialActive, 0#16⟩
    bus := ⟨if isOpen then Lines.atIdle else Lines.allReleased, []⟩
    snap := { Snap.reset with arg0 := a0, arg1 := a1, arg2 := a2 }
    seq := .running
    mem := m }

/-- Does the answer hold a next state with the property? -/
def nextIs (a : Answer) (p : State → Bool) : Bool :=
  match a with
  | .next t => p t
  | .fault _ => false
  | .refused _ => false

/-- `n` rows of FB, from row `r`, all bytes `b`. -/
def rows (r n : Nat) (b : Byte) : Memory := cellsFrom (fbStart + 16 * r) (List.replicate (16 * n) b)

theorem of_nextIs {a : Answer} {p : State → Bool} (h : nextIs a p = true) : ∃ t, a = .next t ∧ p t = true := by
  cases a with
  | next t => exact ⟨t, rfl, h⟩
  | fault f => cases h
  | refused r => cases h

/-- The bytes of FB at the indices. -/
def fbAt (t : State) (is : List Nat) : List Byte := is.map t.fb

/-- The same state in landscape. -/
def landscape (s : State) : State := { s with snap := { s.snap with orient := true } }

/-- The same state with these answers of the panel to come. -/
def answering (l : List (Option Nat)) (s : State) : State := { s with panel := { s.panel with answers := l } }

theorem answered_at_once (l : List (Option Nat)) (s : State) (T : Nat) :
    (answering (some 0 :: l) s).waitResult T = .idle := by simp [State.waitResult, waitOutcome, Panel.next, answering]

theorem never_answered (l : List (Option Nat)) (s : State) (T : Nat) :
    (answering (none :: l) s).waitResult T = .timeout := rfl

/-- The same state with this PLIMIT in the snapshot and PCOUNT. -/
def counting (limit count : Half) (s : State) : State :=
  { s with snap := { s.snap with plimit := limit }, session := { s.session with pcount := count } }

/-- Is the completion this one: code, FSM, XPORT_OPEN, and as many events more? -/
def ends (c : Code) (f : Fsm) (o : Bool) (n : Nat) (t : State) : Bool :=
  t.flags.lastCode == c && t.session.fsm == f && t.session.xportOpen == o && t.bus.trace.length == n

/-! ### WellFormed refuses each ill-formed term (30_encoding.md R105) -/

theorem test_wf_signed : (CmdStmt.pixel true 32768 0).wf = false ∧ (CmdStmt.line false 0 0 0 (-32769)).wf = false ∧
    (CmdStmt.pixel true 32767 (-32768)).wf = true := by decide

theorem test_wf_unsigned : (CmdStmt.rawWaitIdle 65536).wf = false ∧ (CmdStmt.circle true 0 0 (-1)).wf = false ∧
    (CmdStmt.displayPartial 0 0 (-1) 1).wf = false ∧ (CmdStmt.rawWaitIdle 65535).wf = true := by decide

theorem test_wf_byte : (CmdStmt.rawCmd 256).wf = false ∧ (CmdStmt.rawCmd (-1)).wf = false ∧
    (CmdStmt.rawData [1, 256]).wf = false ∧ (CmdStmt.rawCmd 255).wf = true := by decide

theorem test_wf_count : (CmdStmt.rawData []).wf = false ∧ (CmdStmt.rawData [1, 2, 3, 4, 5]).wf = false ∧
    (CmdStmt.rawData [1, 2, 3, 4]).wf = true := by decide

theorem test_wf_access : (Stmt.w32 0 4294967296).wf = false ∧ (Stmt.r32 16384).wf = false ∧ (Stmt.w8 0x1000 256).wf = false ∧
    (Stmt.w32 16380 4294967295).wf = true := by decide

theorem test_assemble_refuses : assemble (.cmd (.rawCmd 256)) = none ∧ assemble (.hline true 0 40000 0) = none := by decide

/-! ### Decoding: every constructor, from the word of its opcode (30_encoding.md R91, R92) -/

theorem test_decode_transport : decode 0x00000000#32 = .ok .nop ∧ decode 0x00000001#32 = .ok .openBus ∧
    decode 0x00000002#32 = .ok .closeBus ∧ decode 0x00000003#32 = .ok .rawReset ∧ decode 0x00000004#32 = .ok .rawCmd ∧
    decode 0x00000005#32 = .ok .rawData ∧ decode 0x00000006#32 = .ok .rawWaitIdle := by decide

theorem test_decode_refresh : decode 0x00000010#32 = .ok .initFull ∧ decode 0x00000011#32 = .ok .initFast ∧
    decode 0x00000012#32 = .ok .commitBase ∧ decode 0x00000013#32 = .ok .displayFull ∧
    decode 0x00000014#32 = .ok .displayFast ∧ decode 0x00000015#32 = .ok .displayPartial ∧
    decode 0x00000016#32 = .ok .sleep := by decide

theorem test_decode_drawing : decode 0x00000020#32 = .ok (.clear false) ∧ decode 0x00000121#32 = .ok (.pixel true) ∧
    decode 0x00000022#32 = .ok .getPixel ∧ decode 0x00000123#32 = .ok (.line true) ∧
    decode 0x00000024#32 = .ok (.rect false) ∧ decode 0x00000324#32 = .ok (.rectf true) ∧
    decode 0x00000025#32 = .ok (.circle false) ∧ decode 0x00000325#32 = .ok (.circlef true) ∧
    decode 0x00000026#32 = .ok (.blit false) := by decide

/-- The fields RSV, FILL, COLOR and OP, written out one by one. -/
theorem test_decode_fields : decode (0#22 ++ 0#1 ++ 0#1 ++ 0b00000110#8) = .ok .rawWaitIdle ∧
    decode (0#22 ++ 0#1 ++ 0#1 ++ 0b00010101#8) = .ok .displayPartial ∧
    decode (0#22 ++ 1#1 ++ 0#1 ++ 0b00100100#8) = .ok (.rectf false) ∧
    decode (0#22 ++ 0#1 ++ 1#1 ++ 0b00100110#8) = .ok (.blit true) := by decide

/-- E2 to E9: reserved words. -/
theorem test_decode_reserved : (decode 0x00000100#32).toOption = none ∧ (decode 0x80000021#32).toOption = none ∧
    (decode 0x00000017#32).toOption = none ∧ (decode 0x000000FF#32).toOption = none ∧
    (decode 0x00000110#32).toOption = none ∧ (decode 0x00000320#32).toOption = none ∧
    (decode 0x00000226#32).toOption = none := by decide

theorem test_decodeTableWord : decodeTableWord 32 0x00000224 = some (.rectf false) ∧ decodeTableWord 32 0x00000030 = none := by
  decide

/-! ### The assembler (30_encoding.md R105 to R107) -/

theorem test_assemble_line : assemble (.cmd (.line false 0 0 5 2)) = some
    [write32 0x010#14 0x00000000#32, write32 0x014#14 0x00020005#32, write32 0x00C#14 0x00000023#32] := by decide

theorem test_assemble_rectf : assemble (.cmd (.rectf true (-3) 4 10 20)) = some
    [write32 0x010#14 0x0004FFFD#32, write32 0x014#14 0x0014000A#32, write32 0x00C#14 0x00000324#32] := by decide

theorem test_assemble_blit : assemble (.cmd (.blit false 4 10 3 2 2)) = some
    [write32 0x010#14 0x000A0004#32, write32 0x014#14 0x00020003#32, write32 0x018#14 0x00000002#32,
     write32 0x00C#14 0x00000026#32] := by decide

theorem test_assemble_rawData : assemble (.cmd (.rawData [1, 0, 249])) = some
    [write32 0x010#14 0x00F90001#32, write32 0x014#14 0x00000003#32, write32 0x00C#14 0x00000005#32] := by decide

theorem test_assemble_ack : assemble .ack = some [write32 0x008#14 0x0000001E#32] := by decide

/-! ### Transport commands (vectors T1 to T26) -/

/-- ST1: NOP completes OK. -/
theorem test_nop : nextIs (exec .nop (cmdState .cold false 0 0 0 [])) (fun t =>
    ends .ok .cold false 0 t && t.flags.done && t.seq == .idle) = true := by decide

/-- T1. -/
theorem test_open : nextIs (exec .openBus (cmdState .cold false 0 0 0 [])) (fun t =>
    ends .ok .cold true 1 t && t.bus == ⟨⟨.low, .low, .high, .low, .high⟩, [.drive]⟩) = true := by decide

/-- T2. -/
theorem test_open_twice : nextIs (exec .openBus (cmdState .cold true 0 0 0 [])) (ends .resourceUnavailable .cold true 0) =
    true := by decide

/-- T8: FAULT stays FAULT and the sleep's refusal is AUX_CODE. -/
theorem test_close_fault : nextIs (exec .closeBus (cmdState .fault true 0 0 0 [])) (fun t =>
    ends .ok .fault false 1 t && t.flags.auxCode == .invalidTransition && t.flags.auxValid && !t.flags.err) = true := by
  decide

/-- T3. -/
theorem test_close_closed : nextIs (exec .closeBus (cmdState .cold false 0 0 0 [])) (fun t =>
    ends .ok .cold false 0 t && !t.flags.auxValid) = true := by decide

/-- T10. -/
theorem test_rawReset : nextIs (exec .rawReset (cmdState .readyFast true 0 0 0 [])) (fun t =>
    ends .ok .cold true 1 t && t.bus.trace == [.pulse 10 10]) = true := by decide

/-- T11. -/
theorem test_rawReset_fault : nextIs (exec .rawReset (cmdState .fault true 0 0 0 [])) (ends .ok .fault true 1) = true := by
  decide

/-- T13: ARG0[31:8] is ignored. -/
theorem test_rawCmd : nextIs (exec .rawCmd (cmdState .cold true 0xFFFFFF12#32 0 0 [])) (fun t =>
    t.bus.trace == [.xact false [0x12#8]]) = true := by decide

/-- T15. -/
theorem test_rawCmd_closed : nextIs (exec .rawCmd (cmdState .cold false 0 0 0 [])) (ends .notOpen .cold false 0) = true := by
  decide

/-- T17. -/
theorem test_rawData : nextIs (exec .rawData (cmdState .cold true 0xDDCCBBAA#32 4#32 0 [])) (fun t =>
    t.bus.trace == [.xact true [0xAA#8, 0xBB#8, 0xCC#8, 0xDD#8]]) = true := by decide

/-- T20: NOT_OPEN comes before INVALID_ARGUMENT. -/
theorem test_rawData_order : nextIs (exec .rawData (cmdState .cold false 0 0 0 [])) (ends .notOpen .cold false 0) = true := by
  decide

/-- T24. -/
theorem test_rawWaitIdle_timeout : nextIs (exec .rawWaitIdle (answering [none] (cmdState .readyFull true 100#32 0 0 [])))
    (fun t => ends .hardwareTimeout .fault true 1 t && t.bus.trace == [.wait 100 .timeout]) = true := by decide

/-- T23. -/
theorem test_rawWaitIdle : nextIs (exec .rawWaitIdle (answering [some 0] (cmdState .readyFull true 100#32 0 0 [])))
    (fun t => ends .ok .readyFull true 1 t && t.bus.trace == [.wait 100 .idle]) = true := by decide

/-! ### Refresh commands (vectors M and O) -/

/-- M1: the state and the two events before the sequence. -/
theorem test_initFull : nextIs (exec .initFull (answering [some 0] (cmdState .cold true 0 0 0 []))) (fun t =>
    t.flags.lastCode == .ok && t.session.fsm == .readyFull && t.bus.trace.take 2 == [.pulse 10 10, .wait 2000 .idle]) =
    true := by decide +kernel

/-- M2: nothing of the sequence is sent. -/
theorem test_initFull_timeout : nextIs (exec .initFull (answering [none] (cmdState .cold true 0 0 0 []))) (fun t =>
    ends .hardwareTimeout .fault true 2 t && t.bus.trace == [.pulse 10 10, .wait 2000 .timeout]) = true := by decide

/-- M-I2, PARTIAL_ACTIVE cell. -/
theorem test_initFast_refused : nextIs (exec .initFast (cmdState .partialActive true 0 0 0 []))
    (ends .invalidTransition .partialActive true 0) = true := by decide

/-- M3. -/
theorem test_initFast : nextIs (exec .initFast (answering [some 0] (cmdState .asleep true 0 0 0 []))) (fun t =>
    t.flags.lastCode == .ok && t.session.fsm == .readyFast) = true := by decide +kernel

/-- M5. -/
theorem test_commitBase : nextIs (exec .commitBase (cmdState .readyFull true 0 0 0 (rows 0 1 0x5A#8))) (fun t =>
    ends .ok .partialActive true 20 t && t.session.baseValid && t.base 3 == 0x5A#8) = true := by decide +kernel

/-- M-C2. -/
theorem test_commitBase_refused : nextIs (exec .commitBase (cmdState .readyFast true 0 0 0 []))
    (ends .invalidTransition .readyFast true 0) = true := by decide

/-- M6: the last event is the wait of 2000 ms. -/
theorem test_displayFull : nextIs (exec .displayFull (answering [some 0] (cmdState .readyFull true 0 0 0 []))) (fun t =>
    t.flags.lastCode == .ok && t.session.fsm == .readyFull) = true := by decide +kernel

/-- M8. -/
theorem test_displayFull_fault : nextIs (exec .displayFull (cmdState .fault true 0 0 0 []))
    (ends .invalidTransition .fault true 0) = true := by decide

/-- M7. -/
theorem test_displayFast_timeout : nextIs (exec .displayFast (answering [none] (cmdState .readyFast true 0 0 0 [])))
    (fun t => t.flags.lastCode == .hardwareTimeout && t.session == ⟨.fault, true, false, 0#16⟩) = true := by decide

/-- M9: the window's bytes of FB reach BASE and PCOUNT counts. -/
theorem test_displayPartial : nextIs (exec .displayPartial (answering [some 0]
      (cmdState .partialActive true 0x000A0008#32 0x00040010#32 0 (rows 10 4 0x5A#8)))) (fun t =>
    t.flags.lastCode == .ok && t.session.pcount == 1#16 && [161, 210].map t.base == [0x5A#8, 0x5A#8]) = true := by decide +kernel

/-- O4: INVALID_ARGUMENT before PARTIAL_LIMIT. -/
theorem test_displayPartial_order : nextIs (exec .displayPartial
      (counting 1#16 1#16 (cmdState .partialActive true 4#32 0x00010008#32 0 [])))
    (ends .invalidArgument .partialActive true 0) = true := by decide

/-- M11. -/
theorem test_sleep : nextIs (exec .sleep (cmdState .partialActive true 0 0 0 [])) (fun t =>
    t.flags.lastCode == .ok && t.session == ⟨.asleep, true, false, 0#16⟩) = true := by decide

/-- W1, W3, W7, W8 and W11. -/
theorem test_windows : validWindow 0 0 122 250 = true ∧ validWindow 120 0 2 1 = true ∧ validWindow 4 0 8 1 = false ∧
    validWindow 8 0 12 1 = false ∧ validWindow (-8) 0 8 1 = false := by decide

/-! ### Drawing commands (vectors F) -/

/-- F-C1, padding included, on a small part of FB. -/
theorem test_clear : nextIs (exec (.clear false) (cmdState .cold false 0 0 0 [])) (fun t =>
    fbAt t [0, 15] == [0x00#8, 0x00#8]) = true := by decide

/-- F-P1 and F-P2's byte: the leftmost pixel is bit 7. -/
theorem test_pixel : nextIs (exec (.pixel false) (cmdState .cold false 0 0 0 (rows 0 1 0xFF#8))) (fun t =>
    fbAt t [0, 1] == [0x7F#8, 0xFF#8]) = true := by decide

/-- F-L3: landscape. -/
theorem test_pixel_landscape : nextIs (exec (.pixel false)
      (landscape (cmdState .cold false 0x0005000A#32 0 0 (rows 10 1 0xFF#8)))) (fun t => fbAt t [174] == [0xF7#8]) = true := by
  decide

/-- F-G1. -/
theorem test_getPixel : nextIs (exec .getPixel (cmdState .cold false 1#32 0 0 (rows 0 1 0x7F#8))) (fun t =>
    t.regs.result == 1#32) = true := by decide

/-- F-G2. -/
theorem test_getPixel_outside : nextIs (exec .getPixel (cmdState .cold false 0x0000007A#32 0 0 [])) (fun t =>
    t.regs.result == 0x80000000#32) = true := by decide

/-- F-N1. -/
theorem test_line : nextIs (exec (.line false) (cmdState .cold false 0 0x00020005#32 0 (rows 0 3 0xFF#8))) (fun t =>
    fbAt t [0, 16, 32] == [0x3F#8, 0xCF#8, 0xF3#8]) = true := by decide

/-- F-N4: a line clipped on both axes. -/
theorem test_line_clipped : nextIs (exec (.line false) (cmdState .cold false 0xFFFDFFFD#32 0x00020002#32 0 (rows 0 3 0xFF#8)))
    (fun t => fbAt t [0, 16, 32] == [0x7F#8, 0xBF#8, 0xDF#8]) = true := by decide

/-- F-R2: corners in either order. -/
theorem test_rect : nextIs (exec (.rect false) (cmdState .cold false 0x00020009#32 0 0 (rows 0 3 0xFF#8))) (fun t =>
    fbAt t [0, 1, 16, 17, 32, 33] == [0x00#8, 0x3F#8, 0x7F#8, 0xBF#8, 0x00#8, 0x3F#8]) = true := by decide +kernel

/-- F-R3. -/
theorem test_rectf : nextIs (exec (.rectf false) (cmdState .cold false 0 0x00020009#32 0 (rows 0 3 0xFF#8))) (fun t =>
    fbAt t [0, 1, 16, 17, 32, 33] == [0x00#8, 0x3F#8, 0x00#8, 0x3F#8, 0x00#8, 0x3F#8]) = true := by decide +kernel

/-- F-K1. -/
theorem test_circle : nextIs (exec (.circle false) (cmdState .cold false 0x00030003#32 2#32 0 (rows 0 6 0xFF#8))) (fun t =>
    fbAt t [0, 16, 32, 48, 64, 80] == [0xFF#8, 0xC7#8, 0xBB#8, 0xBB#8, 0xBB#8, 0xC7#8]) = true := by decide +kernel

/-- F-K5. -/
theorem test_circle_white : nextIs (exec (.circle true) (cmdState .cold false 0x00010001#32 1#32 0 (rows 0 3 0x00#8))) (fun t =>
    fbAt t [0, 16, 32] == [0x40#8, 0xA0#8, 0x40#8]) = true := by decide

/-- F-K2. -/
theorem test_circlef : nextIs (exec (.circlef false) (cmdState .cold false 0x00030003#32 2#32 0 (rows 0 6 0xFF#8))) (fun t =>
    fbAt t [0, 16, 32, 48, 64, 80] == [0xFF#8, 0xC7#8, 0x83#8, 0x83#8, 0x83#8, 0xC7#8]) = true := by decide +kernel

/-- F-B1. -/
theorem test_blit : nextIs (exec (.blit false) (cmdState .cold false 0x000A0004#32 0x00020003#32 2#32
      (rows 8 2 0xFF#8 ++ [(0x3000, 0xA0#8), (0x3001, 0x40#8)]))) (fun t => fbAt t [128, 144] == [0xF5#8, 0xFB#8]) = true := by
  decide

/-- F-B5: whole bytes a row. -/
theorem test_blit_size : nextIs (exec (.blit false) (cmdState .cold false 0 0x01010009#32 0 []))
    (ends .invalidArgument .cold false 0) = true := by decide

/-! ### The host bus, steps and reset -/

/-- A1: little-endian lanes. -/
theorem test_lanes : (State.reset.hostAccess (.write 0x1000#14 4 0x11223344#32)).mem =
    [(0x1000, 0x44#8), (0x1001, 0x33#8), (0x1002, 0x22#8), (0x1003, 0x11#8)] := by decide

/-- A15 and A16: the floor of the hold times. -/
theorem test_hold : (State.reset.writeReg 3#32 .tRstLow).readReg .tRstLow = 0x0000000A#32 ∧
    (State.reset.writeReg 0x00010020#32 .tRstLow).readReg .tRstLow = 0x00000020#32 := by decide

/-- A10: a byte access to a register is a bus error. -/
theorem test_bus_error : (State.reset.hostAccess (.read 0x008#14 1)).resp = .busError := by decide

/-- E15: the accepted word stays in CMD, and its run completes INVALID_COMMAND. -/
theorem test_step_undecodable : nextIs (step (State.reset.withFetchWord 32 0x400)) (fun t =>
    t.regs.cmd == 0x400#32 && t.flags.lastCode == .invalidCommand && t.flags.firstErr == .invalidCommand) = true := by decide

/-- `withFetchWord` runs the word in the next step. -/
theorem test_step_word : nextIs (step (State.reset.withFetchWord 32 0x00000001)) (fun t =>
    t.session.xportOpen && t.regs.cmd == 1#32) = true := by decide

/-- RS10: reset in the low phase of INIT_FULL's pulse leaves no `Pulse`; the trace shows `Release`. -/
theorem test_reset_in_pulse :
    ({ answering [none] (cmdState .cold true 0 0 0 []) with
      snap := { Snap.reset with cmd := 0x10#32 }, pos := ⟨0, 0⟩ } : State).blockReset.bus.trace = [.release] := by decide

/-- RS9, on a RAW_DATA at SPI_DIV = 4 with one of its two bytes fully out. -/
theorem test_reset_in_transaction :
    ({ cmdState .cold true 0x3412#32 2 0 [] with
      snap := { Snap.reset with cmd := 5#32, arg0 := 0x3412#32, arg1 := 2#32 }, pos := ⟨0, 100⟩ } : State).blockReset.bus.trace =
      [.cut true [0x12#8], .release] := by decide

/-- R129: a wait that is over has used its answer, also when block reset abandons its command. -/
theorem test_reset_uses_the_draw :
    ({ answering [some 0, none] (cmdState .cold true 0 0 0 []) with
      snap := { Snap.reset with cmd := 0x10#32 }, pos := ⟨2, 0⟩ } : State).blockReset.panel.answers = [none] := by decide +kernel

/-- The serial timing table: 95 and 335 cycles at SPI_DIV = 4. -/
theorem test_cycles : Event.cycles 5 (.xact false [0x12#8]) = 95 ∧ Event.cycles 5 (.xact true [1#8, 2#8, 3#8, 4#8]) = 335 := by
  decide

/-! ### Witnesses: states and operands that meet the hypotheses of each obligation, clause by clause -/

/-- An idle state with these inputs pending. -/
def pending (l : List Input) : State := { State.reset with inputs := l }

/-- A state in which this command word runs, with these inputs pending. -/
def running (w : Word) (l : List Input) : State := { State.reset.issue w with inputs := l }

theorem witness_WordDecodesExactlyWhenRowMatches :
    ∃ r ∈ opcodeTable, 0x00000123#32 &&& r.mask = r.pattern :=
  ⟨opcodeTable[17], List.getElem_mem (by decide), by decide⟩

theorem witness_UndecodableWordCompletesInvalidCommand :
    (0x00000400#32).extractLsb' 10 22 ≠ 0#22 ∧ (0x80000021#32).extractLsb' 10 22 ≠ 0#22 ∧
    (∀ i : Instr, i.op ≠ (0x00000007#32).extractLsb' 0 8) ∧
    ((0x00000100#32).getLsbD 8 = true ∧ ∀ i : Instr, i.op = (0x00000100#32).extractLsb' 0 8 → i.color = false) ∧
    ((0x00000220#32).getLsbD 9 = true ∧ ∀ i : Instr, i.op = (0x00000220#32).extractLsb' 0 8 → i.fill = false) ∧
    (running 0x400#32 []).inputs = [] ∧ (running 0x400#32 []).seq = .running ∧
    decode (running 0x400#32 []).snap.cmd = .error .reservedBits := by
  refine ⟨by decide, by decide, ?_, ⟨by decide, ?_⟩, ⟨by decide, ?_⟩, by decide, by decide, by decide⟩
  all_goals intro i; cases i <;> first | decide | (rename_i b; cases b <;> decide)

theorem witness_StepRunsTheDecodedInstruction :
    (running 0#32 []).seq = .running ∧ decode (running 0#32 []).snap.cmd = .ok .nop ∧ (running 0#32 []).inputs = [] ∧
    (running 0#32 [.complete, .wait]).inputs = .complete :: [.wait] ∧ (running 0#32 [.wait]).inputs = .wait :: [] := by decide

theorem witness_CmdWriteIssuesOrOverruns :
    (pending [.access (.write 0x00C#14 4 0x21#32)]).inputs = [.access (.write 0x00C#14 4 0x21#32)] ∧
    (pending [.access (.write 0x00C#14 4 0x21#32)]).inReset = false ∧
    (pending [.access (.write 0x00C#14 4 0x21#32)]).seq = .idle ∧
    (running 0#32 [.access (.write 0x00C#14 4 0x21#32)]).inReset = false ∧
    (running 0#32 [.access (.write 0x00C#14 4 0x21#32)]).seq = .running := by decide

theorem witness_HostAccessNeverReachesARunningCommand :
    (running 0x00000001#32 []).seq = .running ∧ ∃ t, runCommand (running 0x00000001#32 []) = .next t :=
  ⟨rfl, runCommand_next _⟩

/-- The host's program of 70_reset_and_hazards.md R246: operand, command, WAIT, a store, the next command. -/
theorem witness_PacedHostLosesNothing :
    paced false [.access (.write 0x010#14 4 0#32), .access (.write 0x00C#14 4 0x21#32), .wait,
      .access (.write 0x1000#14 1 0#32), .access (.write 0x00C#14 4 0#32)] = true ∧
    paced true [.access (.write 0x00C#14 4 0#32)] = false ∧ ∃ t, step (running 0#32 [.wait]) = .next t :=
  ⟨by decide, by decide, _, rfl⟩

theorem witness_IllegalAccessIsABusErrorWithoutEffect :
    State.reset.inReset = false ∧ ((0x006#14).toNat < 0x1000 ∧ (4 ≠ 4 ∨ (0x006#14).toNat % 4 ≠ 0)) ∧
    ((0x008#14).toNat < 0x1000 ∧ (1 ≠ 4 ∨ (0x008#14).toNat % 4 ≠ 0)) ∧
    (0x1000 ≤ (0x1001#14).toNat ∧ ((4 ≠ 1 ∧ 4 ≠ 2 ∧ 4 ≠ 4) ∨ (0x1001#14).toNat % 4 ≠ 0)) ∧
    (0x1000 ≤ (0x3FF8#14).toNat ∧ ((8 ≠ 1 ∧ 8 ≠ 2 ∧ 8 ≠ 4) ∨ (0x3FF8#14).toNat % 8 ≠ 0)) := by decide

theorem witness_ReservedRegistersReadZeroAndIgnoreWrites :
    State.reset.inReset = false ∧ (0x044#14).toNat < 0x1000 ∧ (0x044#14).toNat % 4 = 0 ∧ 0x044 ≤ (0x044#14).toNat ∧
    (0xFFC#14).toNat < 0x1000 ∧ (0xFFC#14).toNat % 4 = 0 ∧ 0x044 ≤ (0xFFC#14).toNat ∧ (0x020#14).toNat % 4 = 0 := by decide

theorem witness_RegisterWritesReadBack :
    State.reset.inReset = false ∧ (0x00C#14, 0#32) ∈ State.reset.registerWords ∧ (0x020#14, 0#32) ∈ State.reset.registerWords ∧
    (0x03C#14, { Regs.reset with tPartial := 5#16 }) ∈ State.reset.registerStores 5#32 ∧
    (0x03C#14 : BitVec 14) ≠ 0x030#14 := by decide

theorem witness_StatusWriteClearsTheNamedBits :
    State.reset.inReset = false ∧ (0x00000004#32).getLsbD 2 = true ∧ (0x0000001A#32).getLsbD 2 = false := by decide

theorem witness_MemoryWriteThenRead :
    State.reset.inReset = false ∧ State.reset.seq = .idle ∧ (0x1F9E#14).toNat % 2 = 0 ∧
    (∀ k < 2, isFb ((0x1F9E#14).toNat + k) = true) ∧ (0x31FC#14).toNat % 4 = 0 ∧
    (∀ k < 4, isGlyph ((0x31FC#14).toNat + k) = true) := by decide

theorem witness_StoresWhileRunningAreDropped :
    (running 0#32 []).inReset = false ∧ (running 0#32 []).seq = .running ∧ (0x1000#14).toNat % 4 = 0 ∧
    (∃ k < 4, isFb ((0x1000#14).toNat + k) = true ∨ isGlyph ((0x1000#14).toNat + k) = true) ∧
    (∃ k < 1, isFb ((0x31FF#14).toNat + k) = true ∨ isGlyph ((0x31FF#14).toNat + k) = true) :=
  ⟨rfl, rfl, rfl, ⟨0, by decide, by decide⟩, ⟨0, by decide, by decide⟩⟩

theorem witness_TailsAndBaseIgnoreWrites :
    State.reset.inReset = false ∧ (0x1FA0#14).toNat % 4 = 0 ∧ (0x1FA0 ≤ (0x1FA0#14).toNat ∧ (0x1FA0#14).toNat < 0x3000) ∧
    (0x1FA0 ≤ (0x2FFF#14).toNat ∧ (0x2FFF#14).toNat < 0x3000) ∧ 0x3200 ≤ (0x3FFF#14).toNat ∧
    (0x1FA0 ≤ (0x1FFC#14).toNat ∧ (0x1FFC#14).toNat < 0x2000) ∧
    (0x2FA0 ≤ (0x2FA0#14).toNat ∧ (0x2FA0#14).toNat < 0x3000) := by decide

/-- Idle at the ends of BASE, an undecodable word, and CLEAR over a byte it does not write. -/
theorem witness_ReadWhileRunningIsOldOrNew :
    State.reset.inReset = false ∧ State.reset.seq = .idle ∧ 0x1000 ≤ (0x2000#14).toNat ∧ (0x2F9F#14).toNat % 1 = 0 ∧
    decode (running 0x400#32 []).snap.cmd = .error .reservedBits ∧
    (running 0x20#32 []).inReset = false ∧ (running 0x20#32 []).seq = .running ∧
    decode (running 0x20#32 []).snap.cmd = .ok (.clear false) ∧ 0x1000 ≤ (0x3000#14).toNat ∧ (0x3000#14).toNat % 4 = 0 ∧
    (isFb ((0x3000#14).toNat + 3) = true → writesFb (.clear false) = false) ∧
    (isBase ((0x3000#14).toNat + 3) = true → writesBase (.clear false) = false) := by decide

theorem witness_InterruptFollowsDoneAndEnable :
    (0x00000002#32).getLsbD 1 = true ∧ (State.reset.finish .ok).flags.done = true := by decide

/-- Idle; a RAW_CMD with chip-select asserted and one before that; an INIT_FULL in its pulse; an OPEN that has driven the
lines. -/
theorem witness_BlockResetAbandonsAndReleases :
    ((pending [.resetAssert]).inputs = .resetAssert :: [] ∧ (pending [.resetAssert]).linesLegal ∧
      (pending [.resetAssert]).seq = .idle) ∧
    (∃ s : State, s.inputs = .resetAssert :: [] ∧ s.linesLegal ∧ s.eventNow = some (.xact false [0x12#8]) ∧
      s.half ≤ s.pos.cycle) ∧
    (∃ s : State, s.inputs = .resetAssert :: [] ∧ s.linesLegal ∧ s.eventNow = some (.xact false [0x12#8]) ∧
      s.pos.cycle < s.half) ∧
    (∃ s : State, s.inputs = .resetAssert :: [] ∧ s.linesLegal ∧ s.eventNow = some (.pulse 10 10) ∧
      s.restNow ≠ Lines.allReleased) ∧
    ∃ s : State, s.inputs = .resetAssert :: [] ∧ s.linesLegal ∧ s.eventNow = none ∧ s.restNow = Lines.atIdle :=
  ⟨⟨rfl, rfl, rfl⟩,
    ⟨{ cmdState .cold true 0 0 0 [] with
        snap := { Snap.reset with cmd := 4#32, arg0 := 0x12#32 }, pos := ⟨0, 5⟩, inputs := [.resetAssert] },
      rfl, ⟨rfl, by decide⟩, rfl, by decide⟩,
    ⟨{ cmdState .cold true 0 0 0 [] with
        snap := { Snap.reset with cmd := 4#32, arg0 := 0x12#32 }, pos := ⟨0, 4⟩, inputs := [.resetAssert] },
      rfl, ⟨rfl, by decide⟩, rfl, by decide⟩,
    ⟨{ answering [none] (cmdState .cold true 0 0 0 []) with
        snap := { Snap.reset with cmd := 0x10#32 }, inputs := [.resetAssert] },
      rfl, ⟨rfl, by decide⟩, by decide, by decide⟩,
    { cmdState .cold false 0 0 0 [] with snap := { Snap.reset with cmd := 1#32 }, pos := ⟨1, 0⟩, inputs := [.resetAssert] },
    rfl, rfl, by decide, by decide⟩

theorem witness_NopOnlyCompletes :
    (running 0x400#32 []).snap.cmd.extractLsb' 0 8 = 0#8 ∧ (running 0x400#32 []).snap.cmd ≠ 0#32 := by decide

theorem witness_OpenDrivesTheLines :
    (cmdState .cold true 0 0 0 []).session.xportOpen = true ∧ State.reset.session.xportOpen = false := by decide

theorem witness_CloseSleepsAndReleases :
    State.reset.session.xportOpen = false ∧ (cmdState .readyFast true 0 0 0 []).session.xportOpen = true ∧
    (cmdState .readyFast true 0 0 0 []).sleepOwed = true ∧ (cmdState .asleep true 0 0 0 []).session.fsm = .asleep ∧
    (cmdState .asleep true 0 0 0 []).session.xportOpen = true ∧ (cmdState .fault true 0 0 0 []).session.fsm = .fault ∧
    (cmdState .fault true 0 0 0 []).sleepOwed = false := by decide

theorem witness_RawResetPulsesAndReturnsToCold :
    State.reset.session.xportOpen = false ∧ (cmdState .fault true 0 0 0 []).session.xportOpen = true ∧
    (cmdState .fault true 0 0 0 []).session.fsm = .fault ∧ (cmdState .asleep true 0 0 0 []).session.fsm ≠ .fault := by decide

theorem witness_RawTrafficOnlyInCold :
    (cmdState .readyFull true 0 0 0 []).session.fsm ≠ .cold ∧ State.reset.session.fsm = .cold ∧
    State.reset.session.xportOpen = false ∧ (cmdState .cold true 0 0 0 []).session.xportOpen = true ∧
    (cmdState .cold true 0 0 0 []).lowArg1 < 1 ∧ 4 < (cmdState .cold true 0 5 0 []).lowArg1 ∧
    1 ≤ (cmdState .cold true 0 0xFFFF0001 0 []).lowArg1 ∧ (cmdState .cold true 0 4 0 []).lowArg1 ≤ 4 := by decide

/-- A wait answered at its first sample is Idle; one that is never answered is a timeout. -/
theorem witness_RawWaitIdleWaitsOnce :
    State.reset.session.xportOpen = false ∧ (cmdState .asleep true 0 0 0 []).session.xportOpen = true ∧
    (∀ T, (answering [some 0] (cmdState .asleep true 0 0 0 [])).waitResult T = .idle) ∧
    ∀ T, (answering [none] (cmdState .asleep true 0 0 0 [])).waitResult T = .timeout :=
  ⟨rfl, rfl, answered_at_once _ _, never_answered _ _⟩

theorem witness_InitLoadsTheLut :
    (cmdState .partialActive true 0 0 0 []).session.fsm = .partialActive ∧ State.reset.session.fsm = .cold ∧
    State.reset.session.xportOpen = false ∧ (cmdState .fault true 0 0 0 []).session.fsm = .fault ∧
    (answering [some 0] (cmdState .fault true 0 0 0 [])).waitResult 2000 = .idle ∧
    (answering [none] (cmdState .fault true 0 0 0 [])).waitResult 2000 = .timeout :=
  ⟨rfl, rfl, rfl, rfl, answered_at_once _ _ _, never_answered _ _ _⟩

theorem witness_CommitBaseCopiesFbToBase :
    State.reset.session.fsm ≠ .readyFull ∧ (cmdState .readyFull false 0 0 0 []).session.fsm = .readyFull ∧
    (cmdState .readyFull false 0 0 0 []).session.xportOpen = false ∧
    (cmdState .readyFull true 0 0 0 []).session.xportOpen = true ∧ isBase 0x1FFF = false ∧ isBase 0x2FA0 = false := by decide

theorem witness_DisplayWritesTheNewBankAndTriggers :
    (cmdState .readyFast true 0 0 0 []).session.fsm ≠ .readyFull ∧ (cmdState .readyFast false 0 0 0 []).session.fsm = .readyFast ∧
    (cmdState .readyFull true 0 0 0 []).session.xportOpen = true ∧
    (answering [some 0] (cmdState .readyFull true 0 0 0 [])).waitResult 2000 = .idle ∧
    (answering [none] (cmdState .readyFull true 0 0 0 [])).waitResult 2000 = .timeout :=
  ⟨by decide, rfl, rfl, answered_at_once _ _ _, never_answered _ _ _⟩

/-- W2 and W7, and the limit of O5 and O6. -/
theorem witness_DisplayPartialUpdatesTheWindow :
    State.reset.session.fsm ≠ .partialActive ∧ (cmdState .partialActive false 0 0 0 []).session.xportOpen = false ∧
    (cmdState .partialActive true 112#32 0x0001000A#32 0 []).pt0 = (112, 0) ∧
    (cmdState .partialActive true 112#32 0x0001000A#32 0 []).lowArg1 = 10 ∧
    (cmdState .partialActive true 112#32 0x0001000A#32 0 []).highArg1 = 1 ∧ ValidWindow 112 0 10 1 ∧ ¬ ValidWindow 4 0 8 1 ∧
    (counting 1#16 1#16 (cmdState .partialActive true 0 0 0 [])).snap.plimit ≠ 0#16 ∧
    (counting 1#16 1#16 (cmdState .partialActive true 0 0 0 [])).snap.plimit ≤
      (counting 1#16 1#16 (cmdState .partialActive true 0 0 0 [])).session.pcount ∧
    (counting 2#16 1#16 (cmdState .partialActive true 0 0 0 [])).session.pcount <
      (counting 2#16 1#16 (cmdState .partialActive true 0 0 0 [])).snap.plimit ∧
    inWindow 112 0 10 1 15 ∧ ¬ inWindow 112 0 10 1 16 := by
  refine ⟨by decide, rfl, by decide, by decide, by decide, ?_, ?_, by decide, by decide, by decide, ?_, ?_⟩ <;>
    simp [ValidWindow, inWindow]

theorem witness_SleepPutsThePanelToSleep :
    State.reset.session.fsm = .cold ∧ (cmdState .readyFull false 0 0 0 []).session.fsm = .readyFull ∧
    (cmdState .readyFull false 0 0 0 []).session.xportOpen = false ∧
    (cmdState .readyFull true 0 0 0 []).session.xportOpen = true := by decide

/-- A refused transition, an OK completion, a timeout and another code. -/
theorem witness_FsmMovesOnlyByTheTable :
    (∃ t, exec .sleep (cmdState .cold true 0 0 0 []) = .next t ∧ t.flags.lastCode = .invalidTransition) ∧
    (∃ t, exec .sleep (cmdState .readyFast true 0 0 0 []) = .next t ∧ t.flags.lastCode = .ok) ∧
    (∃ t, exec .rawWaitIdle (answering [none] (cmdState .cold true 0 0 0 [])) = .next t ∧
      t.flags.lastCode = .hardwareTimeout) ∧
    ∃ t, exec .openBus (cmdState .cold true 0 0 0 []) = .next t ∧ t.flags.lastCode = .resourceUnavailable :=
  ⟨⟨_, rfl, rfl⟩, ⟨_, rfl, rfl⟩, ⟨_, rfl, rfl⟩, ⟨_, rfl, rfl⟩⟩

/-- O1, T2, T15, T20's command with the transport open, O5, and a command that passes. -/
theorem witness_FirstFailedCheckIsTheOnlyEffect :
    FirstCheck .displayPartial (cmdState .cold false 4#32 0 0 []) .invalidTransition ∧
    FirstCheck .openBus (cmdState .cold true 0 0 0 []) .resourceUnavailable ∧
    FirstCheck .rawCmd (cmdState .cold false 0 0 0 []) .notOpen ∧
    FirstCheck .rawData (cmdState .cold true 0 0 0 []) .invalidArgument ∧
    FirstCheck .displayPartial (counting 1#16 1#16 (cmdState .partialActive true 0 0x00080008#32 0 [])) .partialLimit ∧
    FirstCheck .nop State.reset .ok := by
  refine ⟨.invalidTransition rfl, .resourceUnavailable rfl rfl, .notOpen (by decide) rfl rfl,
    .invalidArgument (by decide) (fun _ => rfl) (.inl (by decide)),
    .partialLimit (by decide) (fun _ => rfl) (not_not.mpr ?_) ⟨rfl, by decide, by decide⟩,
    .passed (by decide) (fun h => nomatch h) id (fun h => nomatch h.1) (fun h => nomatch h)⟩
  show ValidWindow 0 0 8 8
  simp [ValidWindow]

theorem witness_TimeoutEntersFaultAndSendsNothingMore :
    ∃ t, exec .rawWaitIdle (answering [none] (cmdState .asleep true 0 0 0 [])) = .next t ∧
      t.flags.lastCode = .hardwareTimeout ∧
      t.bus.trace = (answering [none] (cmdState .asleep true 0 0 0 [])).bus.trace ++ [.wait 0 .timeout] :=
  ⟨_, rfl, rfl, rfl⟩

theorem witness_EveryCompletionWritesItsFields :
    (∃ t, exec .nop State.reset = .next t ∧ t.flags.lastCode = .ok) ∧
    ∃ t, exec .sleep State.reset = .next t ∧ t.flags.lastCode ≠ .ok :=
  ⟨⟨_, rfl, rfl⟩, ⟨_, rfl, by decide⟩⟩

theorem witness_EventsPerCommand :
    (∃ t es, exec .commitBase (cmdState .readyFull true 0 0 0 []) = .next t ∧ t.flags.lastCode = .ok ∧
      t.bus.trace = (cmdState .readyFull true 0 0 0 []).bus.trace ++ es) ∧ usesBus (.clear true) = false :=
  ⟨⟨_, _, rfl, rfl, rfl⟩, rfl⟩

theorem witness_TraceOnlyGrows :
    (∃ t, step (pending [.resetAssert]) = .next t) ∧ (∃ t, step (running 0#32 []) = .next t) ∧
    ∀ rest, (running 0#32 []).inputs ≠ .resetAssert :: rest := ⟨⟨_, rfl⟩, ⟨_, rfl⟩, fun _ h => by cases h⟩

/-- F-P4, F-P6 and F-L1: the corners of the frame. -/
theorem witness_PixelWritesOneBit :
    (cmdState .cold false 0x00F90079#32 0 0 []).pt0 = (121, 249) ∧ (cmdState .cold false 0x0000FFFF#32 0 0 []).pt0 = (-1, 0) ∧
    ((121 : Nat) : Int) = (if (landscape (cmdState .cold false 0 0 0 [])).snap.orient then 121 - 0 else 0) := by decide

theorem witness_GetPixelReadsOneBit :
    (cmdState .cold false 0x00F90079#32 0 0 []).pt0 = (121, 249) ∧ (cmdState .cold false 0xFFFF0000#32 0 0 []).pt0 = (0, -1) := by
  decide

theorem witness_LineWalkEndsAndIsSymmetric :
    ((0, 5) : Point).2 = ((7, 5) : Point).2 ∧ ((3, 0) : Point).1 = ((3, -4) : Point).1 ∧
    |((2, 2) : Point).1 - ((-3, -3) : Point).1| = |((2, 2) : Point).2 - ((-3, -3) : Point).2| := by decide

/-- F-B5 and F-B5a. -/
theorem witness_BlitDrawsTheInk :
    ((cmdState .cold false 0 0x01010009#32 0 []).lowArg1 + 7) / 8 * (cmdState .cold false 0 0x01010009#32 0 []).highArg1 > 512 ∧
    ((cmdState .cold false 0 0x01000009#32 0 []).lowArg1 + 7) / 8 * (cmdState .cold false 0 0x01000009#32 0 []).highArg1 ≤
      512 := by decide

/-- F-P6 `PIXEL.B 122, 0`. -/
theorem witness_ClippedShapeChangesNoByte :
    isShape (.pixel false) = true ∧ ∀ p, shapeOf (.pixel false) (cmdState .cold false 122#32 0 0 []) p →
      ¬ (0 ≤ p.1 ∧ p.1 < (if (cmdState .cold false 122#32 0 0 []).snap.orient then 250 else 122) ∧
        0 ≤ p.2 ∧ p.2 < (if (cmdState .cold false 122#32 0 0 []).snap.orient then 122 else 250)) := by
  refine ⟨rfl, fun p hp => ?_⟩
  have hp : p = (122, 0) := hp
  subst hp
  decide

/-- Two states that differ in the transport and in RESULT. -/
theorem witness_DrawingDependsOnlyOnItsInputs :
    isShape (.line true) = true ∧ Instr.clear true = .clear (Instr.clear true).color ∧
    (∀ k < 4000, (cmdState .fault true 1 2 3 []).fb k = (cmdState .cold false 1 2 3 []).fb k) ∧
    (∀ k < 512, (cmdState .fault true 1 2 3 []).glyph k = (cmdState .cold false 1 2 3 []).glyph k) :=
  ⟨rfl, rfl, fun _ _ => rfl, fun _ _ => rfl⟩

theorem witness_PackingRoundTrip :
    ∀ p ∈ [((0, 0) : Point), (121, 249), (0, 0)], 0 ≤ p.1 ∧ p.1 < (if State.reset.snap.orient then 250 else 122) ∧
      0 ≤ p.2 ∧ p.2 < (if State.reset.snap.orient then 122 else 250) := by decide

theorem witness_StepKeepsTheSessionInvariants :
    (cmdState .partialActive true 0 0 0 []).session.legal ∧ ∃ t, step (cmdState .partialActive true 0 0 0 []) = .next t :=
  ⟨⟨by decide, by decide, by decide⟩, _, rfl⟩

theorem witness_StepKeepsTheLinesLegal :
    (cmdState .asleep true 0 0 0 []).linesLegal ∧ State.reset.linesLegal ∧ ∃ t, step (cmdState .asleep true 0 0 0 []) = .next t :=
  ⟨⟨rfl, by decide⟩, rfl, _, rfl⟩

theorem witness_StepKeepsMemoryCanonical :
    (cmdState .cold false 0 0 0 [(0x1000, 0#8), (0x31FF, 1#8)]).mem.wf ∧
    ∃ t, step (cmdState .cold false 0 0 0 [(0x1000, 0#8), (0x31FF, 1#8)]) = .next t :=
  ⟨by decide, _, rfl⟩

theorem witness_StepKeepsRegistersAndTraceLegal :
    State.reset.holdsLegal ∧ State.reset.traceLegal ∧ State.reset.flags.legal ∧ (running 0#32 []).seqLegal ∧
    State.reset.resultLegal ∧ ∃ t, step (running 0#32 []) = .next t := by
  refine ⟨by unfold State.holdsLegal; decide, by simp [State.traceLegal, State.reset], ⟨fun _ => rfl, fun _ => rfl⟩,
    ⟨fun _ => ⟨rfl, rfl, rfl⟩, fun h => by cases h⟩, by unfold State.resultLegal; decide, _, rfl⟩

theorem witness_AssembledCommandIsIssuedWithItsOperands :
    (CmdStmt.blit true (-3) 4 10 20 65535).wf = true ∧ State.reset.seq = .idle ∧ State.reset.inReset = false ∧
    (pending (CmdStmt.blit true (-3) 4 10 20 65535).writes).inputs = (CmdStmt.blit true (-3) 4 10 20 65535).writes := by decide

theorem witness_WireCarriesTheBytes :
    1 ≤ 1 ∧ [0xA5#8] ≠ [] ∧ Lines.atIdle = { Lines.atIdle with dc := Lines.atIdle.dc } := by decide

theorem witness_WaitEndsWithinItsBound :
    (pending [.clk true]).inputs = .clk true :: [] ∧ (pending [.clk true, .clk true]).inputs = .clk true :: .clk true :: [] ∧
    (answering [firstIdle (busySamples State.reset.panel [true, false])] State.reset).panel.answers =
      firstIdle (busySamples State.reset.panel [true, false]) :: [] ∧
    ([true, !Config.busyActive, true, true] : List Bool)[1]? = some (!Config.busyActive) ∧
    (!Config.busyActive) ≠ Config.busyActive ∧ 1 + 2 ≤ [true, !Config.busyActive, true, true].length ∧
    1 + 2 ≤ 3 * Config.msDiv :=
  ⟨rfl, rfl, rfl, rfl, by cases Config.busyActive <;> decide, by decide, by unfold Config.msDiv; omega⟩

/-- The scenario runs: INIT_FULL, COMMIT_BASE and DISPLAY_PARTIAL of window 8, 10, 16, 4, the panel answering at once. -/
theorem witness_PartialUpdateScenarioKeepsF1Outside :
    ∃ (s0 s1 s2 s3 : State), exec .initFull s0 = .next s1 ∧ s1.flags.lastCode = .ok ∧ exec .commitBase s1 = .next s2 ∧
      exec .displayPartial s2 = .next s3 ∧ s3.flags.lastCode = .ok ∧ s2.pt0 = (8, 10) ∧ s2.lowArg1 = 16 ∧ s2.highArg1 = 4 := by
  have h : nextIs (exec .initFull (answering [some 0, some 0] (cmdState .cold true 0x000A0008#32 0x00040010#32 0 [])))
      (fun s1 => s1.flags.lastCode == .ok && nextIs (exec .commitBase s1) fun s2 =>
        s2.pt0 == (8, 10) && s2.lowArg1 == 16 && s2.highArg1 == 4 &&
          nextIs (exec .displayPartial s2) fun s3 => s3.flags.lastCode == .ok) = true := by decide +kernel
  obtain ⟨s1, h1, h⟩ := of_nextIs h
  simp only [Bool.and_eq_true, beq_iff_eq] at h
  obtain ⟨s2, h2, h'⟩ := of_nextIs h.2
  simp only [Bool.and_eq_true, beq_iff_eq] at h'
  obtain ⟨s3, h3, h''⟩ := of_nextIs h'.2
  exact ⟨_, s1, s2, s3, h1, h.1, h2, h3, by simpa using h'', h'.1.1.1, h'.1.1.2, h'.1.2⟩

end Sys2Proof.Tests
end

namespace Sys2Proof.Machine

/-! ### A host access beside a running command (10_state.md R46) -/

/-- Two states that run alike complete with the same panel side when their pins agree. -/
theorem sameRun_panel {s u t v : State} (h : SameRun t v) (hp : u.panel = s.panel) (ht : runCommand s = .next t)
    (hv : runCommand u = .next v) : v.panel = t.panel := by
  obtain ⟨s1, s2, s3⟩ := runCommand_pins ht
  obtain ⟨u1, u2, u3⟩ := runCommand_pins hv
  exact panel_ext (by rw [u1, s1, hp]) (by rw [u2, s2, hp]) (by rw [u3, s3, hp]) h.answers h.draws

/-- Settles O8: the access leaves everything the command reads as it was (`sameRun_hostAccess`), and a command does the same in
two such states. -/
theorem hostAccessNeverReachesARunningCommand : Obligations.HostAccessNeverReachesARunningCommand := by
  intro s t a hs ht
  obtain ⟨t', v, h1, h2, hv, hc⟩ := (sameRun_hostAccess hs a).runCommand
  obtain rfl : t = t' := Host.Outcome.next.inj (ht.symm.trans h1)
  have hp : v.panel = t.panel := sameRun_panel hv (hostAccess_panel a s) h1 h2
  exact ⟨v, h2, hv.mem, hv.bus, hv.session, hp, hv.result, hc, hv.auxCode, hv.auxValid⟩

/-! ### The session invariants (10_state.md R23) -/

/-- The states the FSM may be in while the transport is closed (I-b). -/
def Fsm.mayClose (f : Fsm) : Prop := f = .cold ∨ f = .asleep ∨ f = .fault

/-- Entering a state other than PARTIAL_ACTIVE ends the refresh session, so only I-b is left to check. -/
theorem enter_legal {s : State} {f : Fsm} (hf : f ≠ .partialActive) (hb : s.session.xportOpen = false → f.mayClose) :
    (s.enter f).session.legal where
  baseValid := by simp [hf]
  closed := hb
  pcount _ := rfl

/-- The sleep of CLOSE leaves the FSM where the transport may be closed. -/
theorem closeSleep_legal {s : State} (h : s.session.legal) (ho : s.session.xportOpen = true) :
    (closeSleep s).1.session.legal ∧ (closeSleep s).1.session.fsm.mayClose := by
  unfold closeSleep
  split
  case h_4 hf => exact ⟨h, .inr (.inl hf)⟩
  case h_5 hf => exact ⟨h, .inl hf⟩
  case h_6 hf => exact ⟨h, .inr (.inr hf)⟩
  all_goals exact ⟨enter_legal (s := s.emit deepSleep) (by decide) (by simp [ho]), .inr (.inl rfl)⟩

/-- DISPLAY_PARTIAL passes its checks in PARTIAL_ACTIVE only. -/
theorem partialActive_of_passed {s : State} (h : FirstCheck .displayPartial s .ok) : s.session.fsm = .partialActive := by
  obtain _ | _ | _ | _ | _ | ⟨hf, -⟩ := h
  revert hf
  cases s.session.fsm <;> simp [fsmTable]

/-- Every command keeps the session invariants. -/
theorem ran_session_legal {i : Instr} {s t : State} (h : Ran i s t) (hl : s.session.legal) : t.session.legal := by
  cases h
  case opened => exact ⟨hl.baseValid, nofun, hl.pcount⟩
  case closed ho =>
    obtain ⟨hc, hf⟩ := closeSleep_legal hl ho
    exact ⟨hc.baseValid, fun _ => hf, hc.pcount⟩
  case pulsed ho =>
    split_ifs
    · exact hl
    · exact enter_legal (s := s.emit _) (by decide) fun _ => .inl rfl
  case committed ho => exact ⟨by simp, fun h => by simp [ho] at h, fun h => absurd rfl h⟩
  case slept => exact enter_legal (s := s.emit _) (by decide) fun _ => .inr (.inl rfl)
  case timedOut => exact enter_legal (s := (s.emit _).waitIdle _) (by decide) fun _ => .inr (.inr rfl)
  case waited =>
    rename hasWait i = true => hi
    rename FirstCheck i s .ok => hc
    have ho : s.session.xportOpen = true := by assumption
    cases i <;> simp only [hasWait, Bool.false_eq_true] at hi
    case initFull => exact enter_legal (s := (State.waitIdle _ _).emit _) (by decide) (by simp [ho])
    case initFast => exact enter_legal (s := (State.waitIdle _ _).emit _) (by decide) (by simp [ho])
    case displayPartial =>
      have hf := partialActive_of_passed hc
      simp only [afterIdle, State.finish_session, State.setSession_session, commitWindow_session, State.waitIdle_session,
        State.emit_session]
      exact ⟨hl.baseValid, hl.closed, fun h => absurd hf h⟩
    all_goals exact hl
  case drew => rw [drawShape_eq]; exact hl
  all_goals exact hl

theorem reset_session_legal : State.reset.session.legal := ⟨by decide, fun _ => .inl rfl, fun _ => rfl⟩

/-- Settles O53: reset by its values; a step by the commands, since nothing else but block reset writes the session. -/
theorem stepKeepsTheSessionInvariants : Obligations.StepKeepsTheSessionInvariants := by
  refine ⟨reset_session_legal, fun s t hs h => ?_⟩
  refine step_keeps (P := fun u => u.session.legal) (fun _ _ h => h) (run_keeps (fun _ _ _ => ran_session_legal) fun _ h => h)
    ?_ ?_ (fun _ _ h => h) (fun _ _ => reset_session_legal) (fun _ h => h) h hs
  · intro a u hu; rwa [(hostAccess_session_bus a u).1]
  · intro n c u hu; rwa [advance_eq]

/-! ### The lines (10_state.md R25) -/

theorem linesLegal_of_open {s : State} (h : s.session.xportOpen = true) : s.linesLegal ↔ s.bus.lines.ready := by
  rw [State.linesLegal, if_pos h]; rfl

theorem linesLegal_of_closed {s : State} (h : s.session.xportOpen = false) :
    s.linesLegal ↔ s.bus.lines = Lines.allReleased := by
  rw [State.linesLegal, if_neg (by simp [h])]

/-- The invariant reads the session and the bus alone. -/
theorem linesLegal_congr {s t : State} (hx : t.session = s.session) (hb : t.bus = s.bus) : t.linesLegal ↔ s.linesLegal := by
  simp only [State.linesLegal, hx, hb]

theorem atIdle_ready : Lines.atIdle.ready := ⟨rfl, by decide⟩

/-- Every command keeps the lines legal: its events are those of an open session, or `Drive`, or they end in `Release`. -/
theorem ran_linesLegal {i : Instr} {s t : State} (h : Ran i s t) (hl : s.linesLegal) : t.linesLegal := by
  obtain ⟨es, hb, -, ⟨ho, hes⟩ | ⟨-, ho, rfl⟩ | ⟨-, ho, fs, rfl, -⟩⟩ := ran_events h
  · cases hs : s.session.xportOpen
    · obtain rfl : es = [] := List.eq_nil_iff_forall_not_mem.mpr fun e he => by simpa [hs] using (hes e he).2
      rw [linesLegal_of_closed (ho.trans hs), hb]
      exact (linesLegal_of_closed hs).mp hl
    · rw [linesLegal_of_open (ho.trans hs), hb]
      exact restAfter_ready ((linesLegal_of_open hs).mp hl) fun e he => (hes e he).1
  · rw [linesLegal_of_open ho, hb]
    exact atIdle_ready
  · rw [linesLegal_of_closed ho, hb]
    simp [restAfter_append, Event.rest]

theorem blockReset_linesLegal (s : State) : s.blockReset.linesLegal := (linesLegal_of_closed rfl).mpr rfl

/-- Settles O54: only commands and block reset write the lines or XPORT_OPEN. -/
theorem stepKeepsTheLinesLegal : Obligations.StepKeepsTheLinesLegal := by
  intro s t hs h
  refine step_keeps (P := State.linesLegal) (fun _ _ h => h) (run_keeps (fun _ _ _ => ran_linesLegal) fun _ h => h)
    ?_ ?_ (fun _ _ h => h) (fun u _ => blockReset_linesLegal u) (fun _ h => h) h hs
  · intro a u hu
    exact (linesLegal_congr (hostAccess_session_bus a u).1 (hostAccess_session_bus a u).2).mpr hu
  · intro n c u hu; rwa [advance_eq]

end Sys2Proof.Machine

namespace Sys2Proof.Machine

/-! ### A host access keeps what each kind of access keeps -/

/-- A write to the memory regions writes the bytes and, of the rest, at most DROPPED. -/
theorem writeBytes_frame (off n : Nat) (w : Word) (s : State) :
    ∃ d m, s.writeBytes off n w = { s with flags := { s.flags with dropped := d }, mem := m } := by
  rcases writeBytes_cases off n w s with ⟨-, -, h⟩ | ⟨-, h⟩ <;> rw [h]
  · exact ⟨true, s.mem, rfl⟩
  · exact ⟨s.flags.dropped, _, storeBytes_eq off n w s⟩

/-- A property that an answer on the bus, a write to a register and a write to the memory regions keep is kept by every host
access. -/
theorem hostAccess_keeps {P : State → Prop} (hans : ∀ s r d, P s → P { s with resp := r, readDraws := d })
    (hreg : ∀ w r s, s.inReset = false → P s → P (s.writeReg w r))
    (hmem : ∀ s d m, P s → P { s with flags := { s.flags with dropped := d }, mem := m }) (a : Access) (s : State)
    (hp : P s) : P (s.hostAccess a) := by
  rcases hostAccess_cases a s with h | ⟨off, w, r, -, -, hr, h⟩ | ⟨off, n, w, -, -, -, h⟩ <;> rw [h]
  · exact hans s _ _ hp
  · exact hans _ .done _ (hreg w r s hr hp)
  · obtain ⟨d, m, hb⟩ := writeBytes_frame off.toNat n w s
    rw [hb]
    exact hans _ .done _ (hmem s d m hp)

/-! ### Hold times and the trace (10_state.md R42, 40_transport.md R120, R128) -/

/-- The stored hold time is at least 10 ms, whatever the word written. -/
theorem le_holdTime (w : Word) : 10#16 ≤ holdTime w := by
  unfold holdTime
  split_ifs with h
  · exact BitVec.le_refl _
  · exact BitVec.not_lt.mp h

theorem issue_holdsLegal {s : State} (w : Word) (h : s.holdsLegal) : (s.issue w).holdsLegal := by
  obtain ⟨h1, h2, -, -⟩ := h
  exact ⟨h1, h2, h1, h2⟩

theorem writeCmd_holdsLegal {s : State} (w : Word) (h : s.holdsLegal) : (s.writeCmd w).holdsLegal := by
  rcases writeCmd_cases w s with ⟨-, h'⟩ | ⟨-, h'⟩ <;> rw [h']
  · exact issue_holdsLegal w h
  · exact h

theorem writeReg_holdsLegal (w : Word) (r : Reg) {s : State} (h : s.holdsLegal) : (s.writeReg w r).holdsLegal := by
  obtain ⟨h1, h2, h3, h4⟩ := h
  cases r
  case tRstLow => exact ⟨le_holdTime w, h2, h3, h4⟩
  case tRstSettle => exact ⟨h1, le_holdTime w, h3, h4⟩
  case cmd => exact writeCmd_holdsLegal w ⟨h1, h2, h3, h4⟩
  all_goals exact ⟨h1, h2, h3, h4⟩

/-- No command writes a hold time, of the registers or of the snapshot. -/
theorem ran_holdsLegal {i : Instr} {s t : State} (h : Ran i s t) (hl : s.holdsLegal) : t.holdsLegal := by
  obtain ⟨c, f, hc, -, hr, -⟩ := ran_completes h
  rw [State.holdsLegal, hc.snap, hr]
  exact hl

/-- The trace, that before the last block reset included, after legal events are appended. -/
theorem traceLegal_append {s t : State} {es : List Event} (he : t.earlier ++ t.bus.trace = s.earlier ++ s.bus.trace ++ es)
    (hes : ∀ e ∈ es, e.legal = true) (h : s.traceLegal) : t.traceLegal := by
  intro e hm
  rw [he] at hm
  exact (List.mem_append.mp hm).elim (h e) (hes e)

theorem ran_traceLegal {i : Instr} {s t : State} (h : Ran i s t) (hh : s.holdsLegal) (hl : s.traceLegal) : t.traceLegal := by
  obtain ⟨es, hb, hes, -⟩ := ran_events h
  exact traceLegal_append (by rw [ran_earlier h, hb, List.append_assoc]) (hes hh) hl

/-- What block reset records of an event it cuts is a `Cut`, if anything. -/
theorem cutOf_legal (h c : Nat) (e : Event) : ∀ f ∈ cutOf h c e, f.legal = true := by
  cases e
  case xact dc bs =>
    rw [cutOf]
    split_ifs <;> simp [Event.legal]
  all_goals exact nofun

theorem cutNow_legal (s : State) : ∀ e ∈ s.cutNow, e.legal = true := by
  unfold State.cutNow
  cases s.eventNow with
  | none => exact nofun
  | some e => exact cutOf_legal _ _ e

/-- Block reset appends the events of the run already over, a `Cut` and a `Release`. -/
theorem blockReset_traceLegal {s : State} (hh : s.holdsLegal) (hl : s.traceLegal) : s.blockReset.traceLegal := by
  refine traceLegal_append (es := s.runEvents.take s.pos.events ++ (s.cutNow ++ if s.drivenNow then [.release] else [])) ?_ ?_ hl
  · simp [State.blockReset, State.traceNow]
  · intro e he
    rcases List.mem_append.mp he with he | he
    · exact runEvents_legal hh e (List.mem_of_mem_take he)
    · rcases List.mem_append.mp he with he | he
      · exact cutNow_legal s e he
      · split_ifs at he
        · obtain rfl := List.mem_singleton.mp he; rfl
        · cases he

theorem hostAccess_traceLegal {s : State} (a : Access) (h : s.traceLegal) : (s.hostAccess a).traceLegal := by
  rw [State.traceLegal, hostAccess_earlier, (hostAccess_session_bus a s).2]; exact h

theorem reset_holdsLegal : State.reset.holdsLegal := by unfold State.holdsLegal; decide

/-- Hold times and trace together: a legal pulse needs the snapshot's hold times. -/
theorem step_keeps_holds_trace {s t : State} (h : step s = .next t) (hs : s.holdsLegal ∧ s.traceLegal) :
    t.holdsLegal ∧ t.traceLegal := by
  refine step_keeps (P := fun u => u.holdsLegal ∧ u.traceLegal) (fun _ _ h => h) (run_keeps ?_ fun _ h => h) ?_ ?_
    (fun _ _ h => h) ?_ (fun _ h => h) h hs
  · rintro i u v hr ⟨hh, hl⟩; exact ⟨ran_holdsLegal hr hh, ran_traceLegal hr hh hl⟩
  · rintro a u ⟨hh, hl⟩
    exact ⟨hostAccess_keeps (fun _ _ _ h => h) (fun w r _ _ => writeReg_holdsLegal w r) (fun _ _ _ h => h) a u hh,
      hostAccess_traceLegal a hl⟩
  · intro n c u hu; rwa [advance_eq]
  · rintro u ⟨hh, hl⟩; exact ⟨reset_holdsLegal, blockReset_traceLegal hh hl⟩

/-! ### FIRST_ERR (10_state.md R35, R36) -/

theorem complete_legal {f : Flags} (c : Code) (h : f.legal) : (f.complete c).legal := by
  by_cases hc : c = .ok
  · subst hc; simpa [Flags.legal] using h
  · cases he : f.err
    · simp [Flags.legal, hc, he]
    · have : f.firstErr ≠ .ok := fun h' => by simpa [he] using h.mpr h'
      simp [Flags.legal, hc, he, this]

theorem writeOneToClear_legal {f : Flags} (w : Word) (h : f.legal) : (f.writeOneToClear w).legal := by
  simp only [Flags.legal, Flags.writeOneToClear]
  split_ifs
  · simp
  · exact h

theorem writeReg_flags_legal (w : Word) (r : Reg) {s : State} (h : s.flags.legal) : (s.writeReg w r).flags.legal := by
  cases r
  case status => exact writeOneToClear_legal w h
  case cmd => rcases writeCmd_cases w s with ⟨-, h'⟩ | ⟨-, h'⟩ <;> simp only [State.writeReg, h'] <;> exact h
  all_goals exact h

theorem ran_flags_legal {i : Instr} {s t : State} (h : Ran i s t) (hl : s.flags.legal) : t.flags.legal := by
  obtain ⟨c, f, hc, hf, -⟩ := ran_completes h
  rw [hc.flags]
  rcases hf with rfl | ⟨-, a, rfl⟩
  · exact complete_legal c hl
  · exact complete_legal c (f := { s.flags with auxCode := a, auxValid := true }) hl

theorem reset_flags_legal : State.reset.flags.legal := ⟨fun _ => rfl, fun _ => rfl⟩

theorem step_keeps_flags {s t : State} (h : step s = .next t) (hs : s.flags.legal) : t.flags.legal := by
  refine step_keeps (P := fun u => u.flags.legal) (fun _ _ h => h)
    (run_keeps (fun _ _ _ => ran_flags_legal) fun _ => complete_legal _)
    (hostAccess_keeps (fun _ _ _ h => h) (fun w r _ _ => writeReg_flags_legal w r) (fun _ _ _ h => h)) ?_
    (fun _ _ h => h) (fun _ _ => reset_flags_legal) (fun _ h => h) h hs
  intro n c u hu; rwa [advance_eq]

/-! ### The running command (60_exceptions.md R217, 10_state.md R37) -/

/-- Once idle at the start place, the invariant holds whatever the flags and registers are. -/
theorem seqLegal_of_idle {s : State} (hs : s.seq = .idle) (hp : s.pos = ⟨0, 0⟩) : s.seqLegal :=
  ⟨fun h => by simp [hs] at h, fun _ => hp⟩

theorem ran_seqLegal {i : Instr} {s t : State} (h : Ran i s t) : t.seqLegal := by
  obtain ⟨c, f, hc, -⟩ := ran_completes h
  exact seqLegal_of_idle hc.seq hc.pos

/-- An accepted write to CMD: DONE is cleared, CMD and the snapshot take the same word. -/
theorem issue_seqLegal {s : State} (w : Word) (hr : s.inReset = false) : (s.issue w).seqLegal :=
  ⟨fun _ => ⟨rfl, rfl, hr⟩, nofun⟩

theorem writeReg_seqLegal (w : Word) (r : Reg) {s : State} (hr : s.inReset = false) (h : s.seqLegal) :
    (s.writeReg w r).seqLegal := by
  obtain ⟨hrun, hidle⟩ := h
  cases r
  case status =>
    refine ⟨fun hs => ?_, hidle⟩
    obtain ⟨h1, h2, h3⟩ := hrun hs
    exact ⟨by simp [State.writeReg, Flags.writeOneToClear, h1], h2, h3⟩
  case cmd =>
    rcases writeCmd_cases w s with ⟨-, h'⟩ | ⟨-, h'⟩ <;> simp only [State.writeReg, h']
    · exact issue_seqLegal w hr
    · exact ⟨hrun, hidle⟩
  all_goals exact ⟨hrun, hidle⟩

/-- The place moves only inside a running command. -/
theorem advance_idle {n c : Nat} {s : State} (h : s.seq = .idle) : s.advance n c = s := by
  simp [State.advance, State.holds, (busy_eq_false s).mpr h]

theorem advance_seqLegal {s : State} (n c : Nat) (h : s.seqLegal) : (s.advance n c).seqLegal := by
  cases hs : s.seq
  · rwa [advance_idle hs]
  · rw [advance_eq]
    exact ⟨fun _ => h.1 hs, fun hi => by simp [hs] at hi⟩

theorem step_keeps_seq {s t : State} (h : step s = .next t) (hs : s.seqLegal) : t.seqLegal := by
  refine step_keeps (P := State.seqLegal) (fun _ _ h => h)
    (run_keeps (fun _ _ _ hr _ => ran_seqLegal hr) fun _ _ => seqLegal_of_idle rfl rfl)
    (hostAccess_keeps (fun _ _ _ h => h) (fun w r _ => writeReg_seqLegal w r) (fun _ _ _ h => h))
    (fun n c _ => advance_seqLegal n c) (fun _ _ h => h) (fun _ _ => seqLegal_of_idle rfl rfl) ?_ h hs
  rintro u ⟨hrun, hidle⟩
  exact ⟨fun h => ⟨(hrun h).1, (hrun h).2.1, rfl⟩, hidle⟩

/-! ### RESULT (10_state.md R39) -/

/-- The word of a GET_PIXEL has its reserved bits 0. -/
theorem resultWord_legal (o : Option Bool) : (resultWord o).extractLsb' 1 30 = 0#30 := by
  rcases o with _ | _ | _ <;> decide

/-- GET_PIXEL alone writes RESULT. -/
theorem ran_resultLegal {i : Instr} {s t : State} (h : Ran i s t) (hl : s.resultLegal) : t.resultLegal := by
  by_cases hi : i = .getPixel
  · subst hi
    cases h
    case read => exact resultWord_legal _
    case drew => rw [drawShape_eq]; exact hl
    all_goals exact hl
  · obtain ⟨c, f, -, -, -, hr⟩ := ran_completes h
    rw [State.resultLegal, hr hi]; exact hl

/-- RESULT is read-only to the host (R32). -/
theorem writeReg_resultLegal (w : Word) (r : Reg) {s : State} (h : s.resultLegal) : (s.writeReg w r).resultLegal := by
  rcases writeReg_cases w s r with ⟨-, -, hw⟩ | ⟨-, -, hw⟩
  · rw [hw]; exact h
  · rwa [State.resultLegal, hw]

theorem reset_resultLegal : State.reset.resultLegal := show (0#32).extractLsb' 1 30 = 0#30 by decide

theorem step_keeps_result {s t : State} (h : step s = .next t) (hs : s.resultLegal) : t.resultLegal := by
  refine step_keeps (P := State.resultLegal) (fun _ _ h => h) (run_keeps (fun _ _ _ => ran_resultLegal) fun _ h => h)
    (hostAccess_keeps (fun _ _ _ h => h) (fun w r _ _ => writeReg_resultLegal w r) (fun _ _ _ h => h)) ?_
    (fun _ _ h => h) (fun _ _ => reset_resultLegal) (fun _ h => h) h hs
  intro n c u hu; rwa [advance_eq]

/-- Settles O56: the four invariants, each kept by every part of a step. -/
theorem stepKeepsRegistersAndTraceLegal : Obligations.StepKeepsRegistersAndTraceLegal := fun _ _ h =>
  ⟨fun hh hl => step_keeps_holds_trace h ⟨hh, hl⟩, step_keeps_flags h, step_keeps_seq h, step_keeps_result h⟩

end Sys2Proof.Machine

namespace Sys2Proof.Machine

/-! ### The register map on the host bus (10_state.md R31 to R44) -/

/-- The aperture offset of a register as an access names it. -/
def Reg.addr (r : Reg) : BitVec 14 := BitVec.ofNat 14 r.offset

theorem Reg.addr_toNat (r : Reg) : r.addr.toNat = r.offset := by cases r <;> rfl

theorem Reg.offset_aligned (r : Reg) : r.offset < 0x1000 ∧ r.offset % 4 = 0 := by cases r <;> decide

theorem Reg.offset_le (r : Reg) : r.offset ≤ 0x040 := by cases r <;> decide

theorem regAt_offset (r : Reg) : regAt r.offset = some r := by cases r <;> rfl

/-- Past SPI_DIV no register is defined (R31, R32). -/
theorem regAt_eq_none {off : Nat} (h : 0x044 ≤ off) : regAt off = none := by
  refine List.find?_eq_none.mpr fun r _ => ?_
  have := r.offset_le
  simp; omega

/-- A 32-bit aligned read in the register region (R62). -/
theorem hostAccess_read_register {s : State} {off : BitVec 14} (hr : s.inReset = false) (h1 : off.toNat < 0x1000)
    (h2 : off.toNat % 4 = 0) : s.hostAccess (.read off 4) = { s with resp := .data (s.readRegister off.toNat) } := by
  simp [State.hostAccess, State.hostRead, hr, legalAccess, h1, h2]

/-- A 32-bit aligned write in the register region (R62). -/
theorem hostAccess_write_register {s : State} {off : BitVec 14} (hr : s.inReset = false) (h1 : off.toNat < 0x1000)
    (h2 : off.toNat % 4 = 0) (w : Word) :
    s.hostAccess (.write off 4 w) = { s.writeRegister off.toNat w with resp := .done } := by
  simp [State.hostAccess, State.hostWrite, hr, legalAccess, h1, h2]

theorem hostAccess_read_reg {s : State} (hr : s.inReset = false) (r : Reg) :
    s.hostAccess (.read r.addr 4) = { s with resp := .data (s.readReg r) } := by
  obtain ⟨h1, h2⟩ := r.offset_aligned
  rw [hostAccess_read_register hr (by rwa [r.addr_toNat]) (by rwa [r.addr_toNat]), r.addr_toNat,
    readRegister_eq (regAt_offset r)]

theorem hostAccess_write_reg {s : State} (hr : s.inReset = false) (r : Reg) (w : Word) :
    s.hostAccess (.write r.addr 4 w) = { s.writeReg w r with resp := .done } := by
  obtain ⟨h1, h2⟩ := r.offset_aligned
  rw [hostAccess_write_register hr (by rwa [r.addr_toNat]) (by rwa [r.addr_toNat]), r.addr_toNat,
    writeRegister_eq (regAt_offset r)]

/-! ### The words of the registers -/

/-- A register narrower than a word reads 0 above its width. -/
theorem setWidth_and_eq_zero {n : Nat} (x : BitVec n) (m : Word) (h : ∀ i < n, m.getLsbD i = false) :
    x.setWidth 32 &&& m = 0#32 := by
  refine BitVec.eq_of_getLsbD_eq fun i _ => ?_
  rw [BitVec.getLsbD_and, BitVec.getLsbD_setWidth, BitVec.getLsbD_zero]
  by_cases hi : i < n
  · simp [h i hi]
  · simp [BitVec.getLsbD_of_ge x i (by omega)]

theorem wide_and_eq_zero (x : Half) : wide x &&& 0xFFFF0000#32 = 0#32 := setWidth_and_eq_zero x _ (by decide)

/-- The low bits of a word, read back as a register. -/
theorem setWidth_extract_low (w : Word) {n : Nat} (h : n ≤ 32) :
    (w.extractLsb' 0 n).setWidth 32 = w &&& BitVec.ofNat 32 (2 ^ n - 1) := by
  apply BitVec.eq_of_toNat_eq
  have hn : 2 ^ n ≤ 2 ^ 32 := Nat.pow_le_pow_right (by decide) h
  have : w.toNat % 2 ^ n < 2 ^ n := Nat.mod_lt _ (Nat.two_pow_pos n)
  have h1 : 2 ^ n - 1 < 2 ^ 32 := by omega
  rw [BitVec.toNat_setWidth, BitVec.extractLsb'_toNat, BitVec.toNat_and, BitVec.toNat_ofNat, Nat.shiftRight_zero,
    Nat.mod_eq_of_lt h1, Nat.and_two_pow_sub_one_eq_mod, Nat.mod_eq_of_lt (by omega)]

theorem wide_lo16 (w : Word) : wide (lo16 w) = w &&& 0xFFFF#32 := setWidth_extract_low w (by decide)

theorem lo16_toNat (w : Word) : (lo16 w).toNat = (w &&& 0xFFFF#32).toNat := by
  rw [← wide_lo16, wide, BitVec.toNat_setWidth, Nat.mod_eq_of_lt (by have := (lo16 w).isLt; omega)]

/-- The stored hold time in numbers (R42). -/
theorem holdTime_eq_max (w : Word) : holdTime w = BitVec.ofNat 16 (max (w.extractLsb' 0 16).toNat 10) := by
  unfold holdTime
  change _ = BitVec.ofNat 16 (max (lo16 w).toNat 10)
  split_ifs with h
  · rw [Nat.max_eq_right (by have := BitVec.lt_def.mp h; simp at this; omega)]
  · rw [Nat.max_eq_left (by have := BitVec.le_def.mp (BitVec.not_lt.mp h); simpa using this), BitVec.ofNat_toNat,
      BitVec.setWidth_eq]

theorem wide_holdTime (w : Word) :
    wide (holdTime w) = if (w &&& 0xFFFF#32).toNat < 10 then 10#32 else w &&& 0xFFFF#32 := by
  have h : lo16 w < 10#16 ↔ (w &&& 0xFFFF#32).toNat < 10 := by rw [← lo16_toNat]; exact BitVec.lt_def
  unfold holdTime
  by_cases hw : lo16 w < 10#16
  · rw [if_pos hw, if_pos (h.mp hw)]; rfl
  · rw [if_neg hw, if_neg (mt h.mpr hw), wide_lo16]

/-- CTRL reads back its two low bits (R34). -/
theorem ctrl_word (w : Word) : (0#30 ++ BitVec.ofBool (w.getLsbD 1) ++ BitVec.ofBool (w.getLsbD 0) : Word) = w &&& 0x3#32 := by
  refine BitVec.eq_of_getLsbD_eq fun i hi => ?_
  have hm : ∀ j < 32, 2 ≤ j → (0x3#32).getLsbD j = false := by decide
  rw [BitVec.getLsbD_append, BitVec.getLsbD_append, BitVec.getLsbD_and]
  match i with
  | 0 => simp
  | 1 => simp
  | i + 2 => simp [hm (i + 2) hi (by omega)]

/-- The reserved bits of CTRL read 0 (R32). -/
theorem ctrl_reserved (a b : Bool) :
    (0#30 ++ BitVec.ofBool a ++ BitVec.ofBool b : Word) &&& 0xFFFFFFFC#32 = 0#32 := by cases a <;> cases b <;> decide

/-! ### The STATUS word (10_state.md R35) -/

theorem getLsbD_of_extract_eq_zero {w : Word} {k l i : Nat} (h : w.extractLsb' k l = 0#l) (h1 : k ≤ i) (h2 : i < k + l) :
    w.getLsbD i = false := by
  have := congrArg (·.getLsbD (i - k)) h
  simpa [BitVec.getLsbD_extractLsb', show i - k < l by omega, Nat.add_sub_cancel' h1] using this

/-- The fields of more than one bit. -/
theorem statusWord_extract (s : State) :
    s.statusWord.extractLsb' 5 3 = 0#3 ∧ s.statusWord.extractLsb' 8 4 = s.flags.lastCode.num ∧
      s.statusWord.extractLsb' 12 3 = s.session.fsm.code ∧ s.statusWord.extractLsb' 18 4 = s.flags.auxCode.num ∧
      s.statusWord.extractLsb' 24 4 = s.flags.firstErrField ∧ s.statusWord.extractLsb' 28 4 = 0#4 := by
  unfold State.statusWord
  refine ⟨?_, ?_, ?_, ?_, ?_, ?_⟩ <;> rw [BitVec.extractLsb'_append_eq_of_le (by decide)] <;>
    simp only [BitVec.extractLsb'_append_eq_of_le, BitVec.extractLsb'_append_eq_of_add_le, BitVec.extractLsb'_eq_self,
      Nat.reduceLeDiff, Nat.reduceSub]

/-- The single bits. -/
theorem statusWord_getLsbD (s : State) :
    s.statusWord.getLsbD 0 = s.busy ∧ s.statusWord.getLsbD 1 = s.flags.done ∧ s.statusWord.getLsbD 2 = s.flags.err ∧
      s.statusWord.getLsbD 3 = s.flags.overrun ∧ s.statusWord.getLsbD 4 = s.flags.dropped ∧
      s.statusWord.getLsbD 15 = s.session.xportOpen ∧ s.statusWord.getLsbD 16 = s.session.baseValid ∧
      s.statusWord.getLsbD 17 = s.panelBusy ∧ s.statusWord.getLsbD 22 = s.flags.auxValid ∧
      s.statusWord.getLsbD 23 = false := by
  unfold State.statusWord
  refine ⟨?_, ?_, ?_, ?_, ?_, ?_, ?_, ?_, ?_, ?_⟩ <;> rw [BitVec.getLsbD_append] <;>
    simp only [BitVec.getLsbD_append, BitVec.getLsbD_ofBool, BitVec.getLsbD_zero, Nat.reduceLT, Nat.reduceSub, ↓reduceIte,
      decide_true, Bool.true_and]

/-- The reserved bits of STATUS read 0: they are the fields 7:5, 23 and 31:28. -/
theorem statusWord_reserved (s : State) : s.statusWord &&& 0xF08000E0#32 = 0#32 := by
  obtain ⟨h5, -, -, -, -, h28⟩ := statusWord_extract s
  obtain ⟨-, -, -, -, -, -, -, -, -, h23⟩ := statusWord_getLsbD s
  have hm : ∀ i < 32, (5 ≤ i ∧ i < 5 + 3) ∨ i = 23 ∨ (28 ≤ i ∧ i < 28 + 4) ∨ (0xF08000E0#32).getLsbD i = false := by
    decide
  refine BitVec.eq_of_getLsbD_eq fun i hi => ?_
  rw [BitVec.getLsbD_and, BitVec.getLsbD_zero]
  rcases hm i hi with ⟨h1, h2⟩ | rfl | ⟨h1, h2⟩ | h
  · rw [getLsbD_of_extract_eq_zero h5 h1 h2, Bool.false_and]
  · rw [h23, Bool.false_and]
  · rw [getLsbD_of_extract_eq_zero h28 h1 h2, Bool.false_and]
  · rw [h, Bool.and_false]

theorem Code.num_inj {c d : Code} : c.num = d.num ↔ c = d := by cases c <;> cases d <;> decide

theorem Fsm.code_inj {f g : Fsm} : f.code = g.code ↔ f = g := by cases f <;> cases g <;> decide

/-- Settles O14: each field of the word, and that codes and FSM states have different numbers. -/
theorem statusWordHoldsTheFields : Obligations.StatusWordHoldsTheFields := by
  intro s
  obtain ⟨h5, h8, h12, h18, h24, h28⟩ := statusWord_extract s
  obtain ⟨b0, b1, b2, b3, b4, b15, b16, b17, b22, b23⟩ := statusWord_getLsbD s
  refine ⟨fun p hp => ?_, fun he => ?_, fun p hp => ?_, b0, b1, b2, b3, b4, h5, b15, b16, b17, b22, b23, h28⟩
  · have hn : p.2 = p.1.num := by revert p; decide
    rw [h8, h18, h24, hn, Code.num_inj, Code.num_inj]
    refine ⟨Iff.rfl, Iff.rfl, fun he => ?_⟩
    rw [Flags.firstErrField, if_pos he, Code.num_inj]
  · rw [h24, Flags.firstErrField, if_neg (by simp [he])]
  · have hn : p.2 = p.1.code := by revert p; decide
    rw [h12, hn, Fsm.code_inj]

/-! ### The obligations on the register map -/

/-- Settles O11: no register is defined past SPI_DIV, a read-only one ignores a write, and each word is 0 in its reserved
bits. -/
theorem reservedRegistersReadZeroAndIgnoreWrites : Obligations.ReservedRegistersReadZeroAndIgnoreWrites := by
  intro s off v hr h1 h2
  refine ⟨fun h => ⟨?_, ?_⟩, ?_, ?_, ctrl_reserved _ _, statusWord_reserved s, wide_and_eq_zero _, wide_and_eq_zero _,
    wide_and_eq_zero _, wide_and_eq_zero _, wide_and_eq_zero _, wide_and_eq_zero _, wide_and_eq_zero _, wide_and_eq_zero _,
    setWidth_and_eq_zero _ _ (by decide)⟩
  · rw [hostAccess_read_register hr h1 h2, readRegister_none (regAt_eq_none h)]
  · rw [hostAccess_write_register hr h1 h2, writeRegister_none (regAt_eq_none h)]
  · rintro (rfl | rfl | rfl)
    · exact hostAccess_write_reg hr .id v
    · exact hostAccess_write_reg hr .result v
    · exact hostAccess_write_reg hr .pcount v
  · rintro rfl
    exact hostAccess_read_reg hr .id

/-- Settles O13: the write to STATUS is `Flags.writeOneToClear`. -/
theorem statusWriteClearsTheNamedBits : Obligations.StatusWriteClearsTheNamedBits := by
  intro s w hr
  have key : ∀ a b : Bool, (if a = true then false else b) = (b && !a) := by decide
  exact ⟨_, hostAccess_write_reg hr .status w, rfl, key _ _, key _ _, key _ _, key _ _, fun h => if_pos h,
    fun h => if_neg (by rw [h]; decide), rfl, rfl, rfl⟩

/-- The registers a host write stores into (R34, R38, R41 to R44). -/
def Reg.stores : List Reg :=
  [.ctrl, .arg0, .arg1, .arg2, .plimit, .tRstLow, .tRstSettle, .tInit, .tFull, .tFast, .tPartial, .spiDiv]

theorem registerWords_eq (s : State) : s.registerWords = Reg.all.map fun r => (r.addr, s.readReg r) := rfl

theorem registerStores_eq (s : State) (w : Word) :
    s.registerStores w = Reg.stores.map fun r => (r.addr, (s.writeReg w r).regs) := by
  simp only [State.registerStores, ← holdTime_eq_max]; rfl

/-- Such a write changes its register and nothing else. -/
theorem writeReg_stores {r : Reg} (h : r ∈ Reg.stores) (w : Word) (s : State) :
    s.writeReg w r = { s with regs := (s.writeReg w r).regs } := by
  fin_cases h <;> rfl

/-- What the next read of the register returns. -/
theorem readReg_writeReg_same (s : State) (w : Word) :
    Reg.stores.map (fun r => (r.addr, (s.writeReg w r).readReg r)) =
      [(0x004#14, w &&& 0x3#32), (0x010#14, w), (0x014#14, w), (0x018#14, w), (0x024#14, w &&& 0xFFFF#32),
        (0x028#14, if (w &&& 0xFFFF#32).toNat < 10 then 10#32 else w &&& 0xFFFF#32),
        (0x02C#14, if (w &&& 0xFFFF#32).toNat < 10 then 10#32 else w &&& 0xFFFF#32),
        (0x030#14, w &&& 0xFFFF#32), (0x034#14, w &&& 0xFFFF#32), (0x038#14, w &&& 0xFFFF#32),
        (0x03C#14, w &&& 0xFFFF#32), (0x040#14, w &&& 0xFF#32)] := by
  have hb : (w.extractLsb' 0 8).setWidth 32 = w &&& 0xFF#32 := setWidth_extract_low w (by decide)
  rw [← wide_holdTime, ← wide_lo16, ← ctrl_word, ← hb]
  rfl

/-- Every other register reads as before. -/
theorem readReg_writeReg_ne {r q : Reg} (h : r ∈ Reg.stores) (hq : q ≠ r) (w : Word) (s : State) :
    (s.writeReg w r).readReg q = s.readReg q := by
  rw [writeReg_stores h]
  fin_cases h <;> cases q <;> first | rfl | exact absurd rfl hq

/-- Settles O12: the three tables are the register map over `readReg` and `writeReg`. -/
theorem registerWritesReadBack : Obligations.RegisterWritesReadBack := by
  intro s w hr
  rw [registerWords_eq, registerStores_eq, ← readReg_writeReg_same s w]
  simp only [List.forall_mem_map]
  refine ⟨fun r _ => hostAccess_read_reg hr r, fun r h => ?_, fun r h => ?_⟩
  · rw [hostAccess_write_reg hr, writeReg_stores h]
  · have ht : ({ s.writeReg w r with resp := .done } : State).inReset = false := by rw [writeReg_stores h]; exact hr
    refine ⟨_, hostAccess_write_reg hr r w, by rw [writeReg_stores h], ?_, fun q _ hq => ?_⟩
    · rw [hostAccess_read_reg ht]; rfl
    · rw [hostAccess_read_reg ht]
      exact congrArg Resp.data (readReg_writeReg_ne h (fun he => hq (by rw [he])) w s)

end Sys2Proof.Machine

namespace Sys2Proof.Machine

/-! ### The reset state (10_state.md R49, 70_reset_and_hazards.md R242) -/

/-- STATUS after reset is 0 but for PANEL_BUSY, which the parameter BUSY_ACTIVE decides. -/
theorem reset_statusWord : State.reset.statusWord &&& 0xFFFDFFFF#32 = 0#32 := by
  unfold State.statusWord
  generalize State.reset.panelBusy = b
  cases b <;> decide

/-- Settles O21: each value is that of `State.reset`. -/
theorem resetHoldsTheSpecValues : Obligations.ResetHoldsTheSpecValues :=
  ⟨rfl, rfl, rfl, rfl, rfl, reset_statusWord, rfl, rfl, rfl, rfl, rfl, rfl, rfl, rfl, rfl, rfl, rfl, rfl, rfl, rfl, rfl, rfl⟩

theorem reset_linesLegal : State.reset.linesLegal := (linesLegal_of_closed rfl).mpr rfl

theorem reset_traceLegal : State.reset.traceLegal := nofun

/-- Settles O57: one lemma for each invariant. -/
theorem resetMeetsEveryInvariant : Obligations.ResetMeetsEveryInvariant :=
  ⟨reset_session_legal, reset_linesLegal, reset_mem_wf, reset_holdsLegal, reset_traceLegal, reset_flags_legal,
    seqLegal_of_idle rfl rfl, reset_resultLegal⟩

/-! ### The busy synchronizer and the bounded wait (10_state.md R26, 40_transport.md R129) -/

/-- One clock edge (R26). -/
theorem step_clk {s : State} {b : Bool} {rest : List Input} (h : s.inputs = .clk b :: rest) :
    step s = .next { s with panel := s.panel.clk b, inputs := rest } := by
  simp only [step, h, serve]

/-- Two edges at one level bring it to PANEL_BUSY. -/
theorem run_two_clk {s : State} {b : Bool} {rest : List Input} (h : s.inputs = .clk b :: .clk b :: rest) :
    Sys2Proof.core.run 2 s = .next { s with panel := (s.panel.clk b).clk b, inputs := rest } := by
  have h2 := step_clk (s := { s with panel := s.panel.clk b, inputs := .clk b :: rest }) rfl
  simp only [Host.Core.run, Sys2Proof.core, step_clk h, h2]

/-- A wait answered by the first idle sample ends Idle exactly when some sample up to its bound reads not busy. -/
theorem waitOutcome_firstIdle (t : Nat) (l : List Bool) :
    waitOutcome t (firstIdle l) = .idle ↔ ∃ c ≤ t * Config.msDiv, l[c]? = some false := by
  cases h : firstIdle l with
  | none =>
    have hn : ∀ x ∈ l, (x == false) = false := List.findIdx?_eq_none_iff.mp h
    refine ⟨nofun, fun ⟨c, _, hc⟩ => ?_⟩
    cases hn false (List.mem_of_getElem? hc)
  | some k =>
    obtain ⟨hk, hb, hlt⟩ := List.findIdx?_eq_some_iff_getElem.mp h
    have hk' : l[k]? = some false := by rw [List.getElem?_eq_getElem hk]; exact congrArg some (beq_iff_eq.mp hb)
    have hmin : ∀ c, l[c]? = some false → k ≤ c := by
      intro c hc
      by_contra hck
      have hc' := (List.getElem?_eq_some_iff.mp hc).2
      exact hlt c (by omega) (by rw [hc']; rfl)
    simp only [waitOutcome]
    split_ifs with hgt
    · exact ⟨nofun, fun ⟨c, h1, hc⟩ => absurd (hmin c hc) (by omega)⟩
    · exact ⟨fun _ => ⟨k, by omega, hk'⟩, fun _ => rfl⟩

/-- The sample of cycle `c`, for each cycle the levels of the pin are given for: the two stages first, then the pin two cycles
before. -/
theorem busySamples_getElem? (p : Panel) (pins : List Bool) (c : Nat) :
    (busySamples p pins)[c]? =
      if c ≤ pins.length then ((p.sync2 :: p.sync1 :: pins)[c]?).map (· == Config.busyActive) else none := by
  rw [busySamples_eq, List.getElem?_map, List.getElem?_take]
  simp only [Nat.lt_succ_iff]
  split_ifs <;> rfl

/-- The second stage of the synchronizer after `c` edges. -/
theorem clk_take_sync2 (p : Panel) (pins : List Bool) {c : Nat} (h : c ≤ pins.length) :
    (p.sync2 :: p.sync1 :: pins)[c]? = some ((pins.take c).foldl (fun q b => q.clk b) p).sync2 := by
  rw [clk_sync2, List.length_take, Nat.min_eq_left h]
  match c with
  | 0 | 1 => rfl
  | c + 2 => simp

/-- A sample reads not busy exactly when its level is not BUSY_ACTIVE. -/
theorem busySamples_idle (p : Panel) (pins : List Bool) (c : Nat) :
    (busySamples p pins)[c]? = some false ↔
      c ≤ pins.length ∧ ∃ b, (p.sync2 :: p.sync1 :: pins)[c]? = some b ∧ b ≠ Config.busyActive := by
  rw [busySamples_getElem?]
  split_ifs with h <;> simp [h]

theorem timeout_iff_ne_idle (r : WaitOutcome) : r = .timeout ↔ ¬ r = .idle := by cases r <;> simp

theorem Panel.afterWait_answers {p : Panel} {a : Option Nat} {rest : List (Option Nat)} (h : p.answers = a :: rest) :
    p.next = a ∧ p.afterWait.answers = rest := by
  simp [Panel.next, Panel.afterWait, h]

/-- The wait in the terms of the pin: Idle exactly when a level up to the bound is not BUSY_ACTIVE. -/
theorem waitResult_idle_iff {s : State} {p : Panel} {pins : List Bool} {rest : List (Option Nat)}
    (h : s.panel.answers = firstIdle (busySamples p pins) :: rest) (t : Nat) :
    s.waitResult t = .idle ↔ ∃ c ≤ t * Config.msDiv, c ≤ pins.length ∧
      ∃ b, (p.sync2 :: p.sync1 :: pins)[c]? = some b ∧ b ≠ Config.busyActive := by
  rw [State.waitResult, (Panel.afterWait_answers h).1, waitOutcome_firstIdle]
  simp only [busySamples_idle]

/-- Settles O60: the answer is the first idle sample, and a sample is the pin two cycles before. -/
theorem waitEndsWithinItsBound : Obligations.WaitEndsWithinItsBound := by
  refine ⟨fun s b rest => ⟨step_clk, fun h => ⟨_, run_two_clk h, ?_⟩⟩, fun s p pins rest t h => ?_⟩
  · obtain ⟨-, -, -, -, -, -, -, h17, -, -⟩ := statusWord_getLsbD
      { s with panel := (s.panel.clk b).clk b, inputs := rest }
    exact h17
  have hidle := waitResult_idle_iff h t
  refine ⟨fun c hc => ?_, hidle, ?_, fun k b hk hb h1 h2 => ?_, rfl, (Panel.afterWait_answers h).2⟩
  · have hs := clk_take_sync2 p pins hc
    rw [busySamples_getElem?, if_pos hc, hs]
    exact ⟨rfl, rfl⟩
  · rw [timeout_iff_ne_idle, hidle]
    push Not
    rfl
  · exact hidle.mpr ⟨k + 2, h2, h1, b, hk, hb⟩

end Sys2Proof.Machine

namespace Sys2Proof.Machine

/-! ### The canonical form of the memory (log entry 3) -/

/-- Settles O55: a command and a host access keep the canonical form, block reset lists nothing, and nothing else writes a
byte. -/
theorem stepKeepsMemoryCanonical : Obligations.StepKeepsMemoryCanonical := by
  intro s t hs h
  refine step_keeps (P := fun u => u.mem.wf) (fun _ _ h => h) (fun _ _ _ => runCommand_wf) (fun _ _ => hostAccess_wf) ?_
    (fun _ _ h => h) (fun _ _ => wf_nil) (fun _ h => h) h hs
  intro n c u hu; rwa [advance_eq]

/-! ### The aperture in numbers (20_memory.md R61) -/

theorem isFb_iff (a : Nat) : isFb a = true ↔ 0x1000 ≤ a ∧ a < 0x1FA0 := decide_eq_true_iff

theorem isBase_iff (a : Nat) : isBase a = true ↔ 0x2000 ≤ a ∧ a < 0x2FA0 := decide_eq_true_iff

theorem isGlyph_iff (a : Nat) : isGlyph a = true ↔ 0x3000 ≤ a ∧ a < 0x3200 := decide_eq_true_iff

theorem isStored_iff (a : Nat) : isStored a = true ↔ isFb a = true ∨ isGlyph a = true := by
  rw [isStored, Bool.or_eq_true]

theorem isArray_iff (a : Nat) : isArray a = true ↔ isFb a = true ∨ isBase a = true ∨ isGlyph a = true := by
  rw [isArray, Bool.or_eq_true, Bool.or_eq_true, or_assoc]

/-- No byte of an aligned write into the FB tail, the BASE window or past GLYPH is stored: the write does not leave its
region (R64, R65, R67). -/
theorem isStored_eq_false_of_aligned {off n k : Nat} (hn : n = 1 ∨ n = 2 ∨ n = 4) (ha : off % n = 0) (hk : k < n)
    (h : (0x1FA0 ≤ off ∧ off < 0x3000) ∨ 0x3200 ≤ off) : isStored (off + k) = false := by
  rw [← Bool.not_eq_true, isStored_iff, isFb_iff, isGlyph_iff]
  rcases hn with rfl | rfl | rfl <;> omega

/-- No byte of an aligned access to the tails or the unmapped offsets lies in an array. -/
theorem isArray_eq_false_of_aligned {off n k : Nat} (hn : n = 1 ∨ n = 2 ∨ n = 4) (ha : off % n = 0) (hk : k < n)
    (h : (0x1FA0 ≤ off ∧ off < 0x2000) ∨ (0x2FA0 ≤ off ∧ off < 0x3000) ∨ 0x3200 ≤ off) : isArray (off + k) = false := by
  rw [← Bool.not_eq_true, isArray_iff, isFb_iff, isBase_iff, isGlyph_iff]
  rcases hn with rfl | rfl | rfl <;> omega

/-! ### Which accesses are legal (20_memory.md R62, R63, R67) -/

theorem legalAccess_register {off n : Nat} (h : off < 0x1000) : legalAccess off n = true ↔ n = 4 ∧ off % 4 = 0 := by
  simp [legalAccess, h]

theorem legalAccess_region {off n : Nat} (h : 0x1000 ≤ off) :
    legalAccess off n = true ↔ (n = 1 ∨ n = 2 ∨ n = 4) ∧ off % n = 0 := by
  simp [legalAccess, show ¬ off < 0x1000 by omega, or_assoc]

/-- An illegal access answers a bus error and does nothing else (R68). -/
theorem hostAccess_illegal {s : State} {off : BitVec 14} {n : Nat} (hr : s.inReset = false)
    (h : ¬ legalAccess off.toNat n = true) (v : Word) :
    s.hostAccess (.read off n) = { s with resp := .busError } ∧
      s.hostAccess (.write off n v) = { s with resp := .busError } := by
  simp [State.hostAccess, State.hostRead, State.hostWrite, hr, h]

/-- A legal read of the memory regions. -/
theorem hostAccess_read_region {s : State} {off : BitVec 14} {n : Nat} (hr : s.inReset = false) (h : 0x1000 ≤ off.toNat)
    (hn : n = 1 ∨ n = 2 ∨ n = 4) (ha : off.toNat % n = 0) :
    s.hostAccess (.read off n) =
      { s with resp := .data (s.readBytes off.toNat n), readDraws := s.readDraws + n } := by
  have hl := (legalAccess_region h).mpr ⟨hn, ha⟩
  simp [State.hostAccess, State.hostRead, hr, hl, show ¬ off.toNat < 0x1000 by omega]

/-- A legal write to the memory regions. -/
theorem hostAccess_write_region {s : State} {off : BitVec 14} {n : Nat} (hr : s.inReset = false) (h : 0x1000 ≤ off.toNat)
    (hn : n = 1 ∨ n = 2 ∨ n = 4) (ha : off.toNat % n = 0) (v : Word) :
    s.hostAccess (.write off n v) = { s.writeBytes off.toNat n v with resp := .done } := by
  have hl := (legalAccess_region h).mpr ⟨hn, ha⟩
  simp [State.hostAccess, State.hostWrite, hr, hl, show ¬ off.toNat < 0x1000 by omega]

/-- Settles O10: the hypothesis says that the access is not legal, in either region. -/
theorem illegalAccessIsABusErrorWithoutEffect : Obligations.IllegalAccessIsABusErrorWithoutEffect := by
  intro s off n v hr h
  refine hostAccess_illegal hr ?_ v
  rcases h with ⟨ho, h⟩ | ⟨ho, h⟩
  · rw [legalAccess_register ho]; tauto
  · rw [legalAccess_region ho]; tauto

/-- Settles O18: of the ways an access can go, the two that write are not reads. -/
theorem readsHaveNoSideEffect : Obligations.ReadsHaveNoSideEffect := by
  intro s off n
  rcases hostAccess_cases (.read off n) s with h | ⟨_, _, _, hw, -⟩ | ⟨_, _, _, hw, -⟩
  · exact ⟨_, rfl, h⟩
  · cases hw
  · cases hw

/-! ### The data lanes of a read (20_memory.md R63) -/

/-- Bit `i` of joined bytes is bit `i mod 8` of byte `i div 8`; past the bytes it is 0. -/
theorem joinBytes_getLsbD (bs : List Byte) (i : Nat) :
    (joinBytes bs).getLsbD i = (decide (i < 32) && (bs.getD (i / 8) 0#8).getLsbD (i % 8)) := by
  induction bs generalizing i with
  | nil => simp [joinBytes]
  | cons b bs ih =>
    rw [joinBytes, BitVec.getLsbD_or, BitVec.getLsbD_shiftLeft, BitVec.getLsbD_setWidth, ih]
    by_cases h : i < 8
    · simp [h, Nat.div_eq_of_lt h, Nat.mod_eq_of_lt h, show i < 32 by omega]
    · have hd : i / 8 = (i - 8) / 8 + 1 := by omega
      have hm : (i - 8) % 8 = i % 8 := by omega
      rw [BitVec.getLsbD_of_ge b i (by omega), Bool.and_false, Bool.or_false, hd, hm, List.getD_cons_succ]
      by_cases h32 : i < 32
      · simp [h, h32, show i - 8 < 32 by omega]
      · simp [h32]

/-- Bit `i` of a read is bit `i mod 8` of the byte seen on lane `i div 8`, if the read has that lane. -/
theorem readBytes_getLsbD (s : State) (off n i : Nat) :
    (s.readBytes off n).getLsbD i =
      (decide (i < 32) && (decide (i / 8 < n) && (s.seenByte (s.readDraws + i / 8) (off + i / 8)).getLsbD (i % 8))) := by
  rw [State.readBytes, joinBytes_getLsbD]
  by_cases h : i / 8 < n <;> simp [h]

/-- The lane of byte `k` of a read holds the byte seen at `off + k`. -/
theorem readBytes_lane (s : State) (off : Nat) {n k : Nat} (hn : n ≤ 4) (hk : k < n) :
    (s.readBytes off n).extractLsb' (8 * k) 8 = s.seenByte (s.readDraws + k) (off + k) := by
  refine BitVec.eq_of_getLsbD_eq fun i hi => ?_
  have h1 : (8 * k + i) / 8 = k := by omega
  have h2 : (8 * k + i) % 8 = i := by omega
  rw [BitVec.getLsbD_extractLsb', readBytes_getLsbD, h1, h2]
  simp [hi, hk, show 8 * k + i < 32 by omega]

/-- The lanes above the width of a read are 0 (log entry 25). -/
theorem readBytes_above (s : State) (off : Nat) {n i : Nat} (h : 8 * n ≤ i) : (s.readBytes off n).getLsbD i = false := by
  rw [readBytes_getLsbD, decide_eq_false (p := i / 8 < n) (by omega), Bool.false_and, Bool.and_false]

/-! ### The byte a read sees (20_memory.md R63 to R67, R70) -/

theorem regionByte_of_array {s : State} {a : Nat} (h : isArray a = true) : s.regionByte a = s.byteAt a := if_pos h

theorem regionByte_of_not_array {s : State} {a : Nat} (h : isArray a = false) : s.regionByte a = 0#8 := by
  simp [State.regionByte, h]

/-- Every byte seen is the one at issue or the one at completion. -/
theorem seenByte_old_or_new (s : State) (d a : Nat) :
    s.seenByte d a = s.regionByte a ∨ s.seenByte d a = s.completed.regionByte a := by
  unfold State.seenByte
  split_ifs
  · exact .inr rfl
  · exact .inl rfl

theorem seenByte_of_not_racing {s : State} {a : Nat} (h : s.racing a = false) (d : Nat) :
    s.seenByte d a = s.regionByte a := by
  simp [State.seenByte, h]

/-- Outside the arrays every read sees 0, during a run too. -/
theorem seenByte_of_not_array {a : Nat} (h : isArray a = false) (s : State) (d : Nat) : s.seenByte d a = 0#8 := by
  rcases seenByte_old_or_new s d a with hs | hs <;> rw [hs, regionByte_of_not_array h]

theorem racing_idle {s : State} (h : s.seq = .idle) (a : Nat) : s.racing a = false := by
  simp [State.racing, (busy_eq_false s).mpr h]

theorem racing_error {s : State} {e : DecodeError} (h : decode s.snap.cmd = .error e) (a : Nat) : s.racing a = false := by
  simp [State.racing, h]

/-- A command races with the reads of the arrays it writes and no others. -/
theorem racing_of_not_written {s : State} {i : Instr} (h : decode s.snap.cmd = .ok i) {a : Nat}
    (hf : isFb a = true → writesFb i = false) (hb : isBase a = true → writesBase i = false) : s.racing a = false := by
  have h1 : (isFb a && writesFb i) = false := by simpa using hf
  have h2 : (isBase a && writesBase i) = false := by simpa using hb
  simp [State.racing, h, h1, h2]

/-- A read that sees no array byte returns 0. -/
theorem readBytes_of_not_array (s : State) {off n : Nat} (h : ∀ k < n, isArray (off + k) = false) :
    s.readBytes off n = 0#32 := by
  refine BitVec.eq_of_getLsbD_eq fun i _ => ?_
  rw [readBytes_getLsbD, BitVec.getLsbD_zero]
  by_cases hi : i / 8 < n
  · simp [seenByte_of_not_array (h _ hi)]
  · simp [hi]

/-- Settles O19: each lane is the byte seen there, and which byte that is follows from whether the command races. -/
theorem readWhileRunningIsOldOrNew : Obligations.ReadWhileRunningIsOldOrNew := by
  intro s off n hr h hn ha
  refine ⟨s.readBytes off.toNat n, by rw [hostAccess_read_region hr h hn ha], fun _ => readBytes_above s _, fun k hk => ?_⟩
  rw [readBytes_lane s off.toNat (by omega) hk]
  refine ⟨fun hq => ?_, fun i _ hi => ⟨seenByte_old_or_new s _ _, fun hf hb => ?_⟩⟩
  swap
  · exact seenByte_of_not_racing (racing_of_not_written hi hf hb) _
  rcases hq with hq | ⟨e, he⟩
  · exact seenByte_of_not_racing (racing_idle hq _) _
  · exact seenByte_of_not_racing (racing_error he _) _

/-! ### Writes to the memory regions (20_memory.md R63 to R69) -/

/-- A write of bytes none of which is stored is ignored, in a run too (R64, R65, R67). -/
theorem writeBytes_ignored {off n : Nat} {s : State} (h : ∀ k < n, isStored (off + k) = false) (v : Word) :
    s.writeBytes off n v = s := by
  rcases writeBytes_cases off n v s with ⟨-, ⟨k, hk, hs⟩, -⟩ | ⟨-, hw⟩
  · simp [h k hk] at hs
  · rw [hw, storeBytes_none h]

/-- While a command runs, a write of a byte that would be stored is dropped whole (R69). -/
theorem writeBytes_dropped {off n : Nat} {s : State} (hs : s.seq = .running) (h : ∃ k < n, isStored (off + k) = true)
    (v : Word) : s.writeBytes off n v = { s with flags := { s.flags with dropped := true } } := by
  rcases writeBytes_cases off n v s with ⟨-, -, hw⟩ | ⟨hk, -⟩
  · exact hw
  · obtain ⟨k, hkn, hst⟩ := h
    simp [hk hs k hkn] at hst

theorem writeBytes_idle {off n : Nat} {s : State} (hs : s.seq = .idle) (v : Word) :
    s.writeBytes off n v = s.storeBytes off n v := by
  rcases writeBytes_cases off n v s with ⟨hs', -, -⟩ | ⟨-, hw⟩
  · simp [hs] at hs'
  · exact hw

/-- Settles O17: an aligned access there reaches no byte that is stored, or no array byte. -/
theorem tailsAndBaseIgnoreWrites : Obligations.TailsAndBaseIgnoreWrites := by
  intro s off n v hr hn ha
  refine ⟨fun h => ?_, fun h => ?_⟩
  · rw [hostAccess_write_region hr (by omega) hn ha,
      writeBytes_ignored fun k hk => isStored_eq_false_of_aligned hn ha hk h]
  · rw [hostAccess_read_region hr (by omega) hn ha,
      readBytes_of_not_array s fun k hk => isArray_eq_false_of_aligned hn ha hk h]

/-- An aligned access that reaches a byte that would be stored begins in the memory regions (R61). -/
theorem region_of_isStored {off n k : Nat} (hn : n = 1 ∨ n = 2 ∨ n = 4) (ha : off % n = 0) (hk : k < n)
    (h : isStored (off + k) = true) : 0x1000 ≤ off := by
  rw [isStored_iff, isFb_iff, isGlyph_iff] at h
  rcases hn with rfl | rfl | rfl <;> omega

/-- Settles O16: the write is a legal one of the memory regions, and one of its bytes would be stored. -/
theorem storesWhileRunningAreDropped : Obligations.StoresWhileRunningAreDropped := by
  intro s off n v hr hs hn ha ⟨k, hk, h⟩
  have hst := (isStored_iff _).mpr h
  rw [hostAccess_write_region hr (region_of_isStored hn ha hk hst) hn ha, writeBytes_dropped hs ⟨k, hk, hst⟩]

/-- A read while no command runs returns the bytes that the arrays hold, on their lanes. -/
theorem readBytes_lane_idle {s : State} (hs : s.seq = .idle) {off n k : Nat} (hn : n ≤ 4) (hk : k < n)
    (ha : isArray (off + k) = true) : (s.readBytes off n).extractLsb' (8 * k) 8 = s.byteAt (off + k) := by
  rw [readBytes_lane s off hn hk, seenByte_of_not_racing (racing_idle hs _), regionByte_of_array ha]

/-- Settles O15: while no command runs the write is a store, and the read is not racing. -/
theorem memoryWriteThenRead : Obligations.MemoryWriteThenRead := by
  intro s off n v hr hs hn ha h
  have hst : ∀ k < n, isStored (off.toNat + k) = true := fun k hk =>
    (isStored_iff _).mpr (h.imp (fun h => h k hk) (fun h => h k hk))
  have ho : 0x1000 ≤ off.toNat := region_of_isStored (k := 0) hn ha (by omega) (hst 0 (by omega))
  have hb : ∀ k < n, (s.storeBytes off.toNat n v).byteAt (off.toNat + k) = v.extractLsb' (8 * k) 8 := by
    intro k hk
    rw [byteAt_storeBytes, if_pos ⟨by omega, by omega, hst k hk⟩, Nat.add_sub_cancel_left, laneByte]
  have ht : ({ s.storeBytes off.toNat n v with resp := .done } : State) =
      { s with mem := (s.storeBytes off.toNat n v).mem, resp := .done } := by rw [storeBytes_eq]
  refine ⟨_, by rw [hostAccess_write_region hr ho hn ha, writeBytes_idle hs], ht, hb, fun a hout => ?_, ?_⟩
  · exact (byteAt_storeBytes off.toNat n v s a).trans (if_neg (by omega))
  · refine ⟨_, by rw [hostAccess_read_region (by rw [ht]; exact hr) ho hn ha], fun k hk => ?_, fun _ => readBytes_above _ _⟩
    exact (readBytes_lane_idle (by rw [ht]; exact hs) (by omega) hk (isArray_of_isStored (hst k hk))).trans (hb k hk)

end Sys2Proof.Machine

namespace Sys2Proof.Machine

open Sys2Proof.Laws

/-! ### The fields of a command word (30_encoding.md R91) -/

theorem encode_rsv (i : Instr) : (encode i).extractLsb' 10 22 = 0#22 := by
  unfold encode
  rw [BitVec.extractLsb'_append_eq_of_le (by decide), BitVec.extractLsb'_append_eq_of_le (by decide),
    BitVec.extractLsb'_append_eq_of_le (by decide)]
  exact BitVec.extractLsb'_eq_self

theorem encode_op (i : Instr) : (encode i).extractLsb' 0 8 = i.op := by
  unfold encode
  rw [BitVec.extractLsb'_append_eq_of_add_le (by decide), BitVec.extractLsb'_eq_self]

theorem encode_color (i : Instr) : (encode i).getLsbD 8 = i.color := by
  simp only [encode, BitVec.getLsbD_append, BitVec.getLsbD_ofBool, Nat.reduceLT, Nat.reduceSub, ↓reduceIte, decide_true,
    Bool.true_and]

theorem encode_fill (i : Instr) : (encode i).getLsbD 9 = i.fill := by
  simp only [encode, BitVec.getLsbD_append, BitVec.getLsbD_ofBool, Nat.reduceLT, Nat.reduceSub, ↓reduceIte, decide_true,
    Bool.true_and]

/-! ### A row of the opcode table against a word (30_encoding.md R93) -/

theorem takes_iff {r : Row} {w : Word} : r.takes w = true ↔ w &&& r.mask = r.pattern := beq_iff_eq

/-- The COLOR bit in its place. -/
def colorBit (c : Bool) : Word := if c then 0x00000100#32 else 0x00000000#32

theorem and_maskAll (w : Word) : w &&& maskAll = w := BitVec.and_allOnes

theorem colorBit_and_maskColor (c : Bool) : colorBit c &&& maskColor = 0#32 := by cases c <;> decide

/-- `maskColor` takes the COLOR bit off a word and nothing else. -/
theorem and_maskColor_or_colorBit (w : Word) : w &&& maskColor ||| colorBit (w.getLsbD 8) = w := by
  have hm : ∀ i < 32, maskColor.getLsbD i = decide (i ≠ 8) := by decide
  have hc : ∀ c, ∀ i < 32, (colorBit c).getLsbD i = (c && decide (i = 8)) := by decide
  refine BitVec.eq_of_getLsbD_eq fun i hi => ?_
  rw [BitVec.getLsbD_or, BitVec.getLsbD_and, hm i hi, hc _ i hi]
  by_cases h : i = 8
  · simp [h]
  · simp [h]

/-- The rows as `encode` sees them: the pattern is the word with COLOR 0, and the mask leaves the COLOR bit out exactly where
the instruction takes it. -/
theorem row_encode : ∀ r ∈ opcodeTable,
    (r.mask = maskAll ∧ ∀ c, (r.build c).color = false ∧ encode (r.build c) = r.pattern) ∨
      (r.mask = maskColor ∧ r.pattern &&& maskColor = r.pattern ∧
        ∀ c, (r.build c).color = c ∧ encode (r.build c) = r.pattern ||| colorBit c) := by decide

/-- A row takes a word exactly when the word is the encoding of what the row builds from its COLOR bit. -/
theorem takes_iff_encode {r : Row} (hr : r ∈ opcodeTable) (w : Word) :
    r.takes w = true ↔ encode (r.build (w.getLsbD 8)) = w := by
  rw [takes_iff]
  rcases row_encode r hr with ⟨hm, he⟩ | ⟨hm, hp, he⟩
  · rw [hm, (he _).2, and_maskAll, eq_comm]
  · rw [hm, (he _).2]
    refine ⟨fun h => by rw [← h, and_maskColor_or_colorBit], fun h => ?_⟩
    rw [← h, BitVec.and_or_distrib_right, hp, colorBit_and_maskColor, BitVec.or_zero]

/-- Every instruction has its row. -/
theorem rowMatch (i : Instr) : RowMatch.Statement i := by
  cases i
  exacts [RowMatch.nop, RowMatch.openBus, RowMatch.closeBus, RowMatch.rawReset, RowMatch.rawCmd, RowMatch.rawData,
    RowMatch.rawWaitIdle, RowMatch.initFull, RowMatch.initFast, RowMatch.commitBase, RowMatch.displayFull,
    RowMatch.displayFast, RowMatch.displayPartial, RowMatch.sleep, RowMatch.clear _, RowMatch.pixel _, RowMatch.getPixel,
    RowMatch.line _, RowMatch.rect _, RowMatch.rectf _, RowMatch.circle _, RowMatch.circlef _, RowMatch.blit _]

/-- No two rows take one word. -/
theorem row_unique {r r' : Row} {w : Word} (hr : r ∈ opcodeTable) (hr' : r' ∈ opcodeTable) (h : r.takes w = true)
    (h' : r'.takes w = true) : r' = r := by
  obtain ⟨hone, -⟩ := rowMatch (r.build (w.getLsbD 8))
  rw [(takes_iff_encode hr w).mp h] at hone
  obtain ⟨q, hq⟩ := List.length_eq_one_iff.mp hone
  have hmem : ∀ p ∈ opcodeTable, p.takes w = true → p = q := fun p hp ht =>
    List.mem_singleton.mp (hq ▸ List.mem_filter.mpr ⟨hp, ht⟩)
  rw [hmem r hr h, hmem r' hr' h']

theorem decode_of_takes {r : Row} {w : Word} (hr : r ∈ opcodeTable) (h : r.takes w = true) :
    decode w = .ok (r.build (w.getLsbD 8)) := by
  unfold decode
  cases hf : opcodeTable.find? (·.takes w) with
  | none => exact absurd h (List.find?_eq_none.mp hf r hr)
  | some q => rw [row_unique hr (List.mem_of_find?_eq_some hf) h (List.find?_some (p := (Row.takes · w)) hf)]

/-- A word decodes by the one row that takes it (R93). -/
theorem decode_ok_iff {w : Word} {i : Instr} :
    decode w = .ok i ↔ ∃ r ∈ opcodeTable, r.takes w = true ∧ r.build (w.getLsbD 8) = i := by
  refine ⟨fun h => ?_, fun ⟨r, hr, ht, hb⟩ => hb ▸ decode_of_takes hr ht⟩
  unfold decode at h
  cases hf : opcodeTable.find? (·.takes w) with
  | none => simp [hf] at h
  | some q =>
    rw [hf] at h
    exact ⟨q, List.mem_of_find?_eq_some hf, List.find?_some (p := (Row.takes · w)) hf, Except.ok.inj h⟩

theorem encode_of_decode {w : Word} {i : Instr} (h : decode w = .ok i) : encode i = w := by
  obtain ⟨r, hr, ht, rfl⟩ := decode_ok_iff.mp h
  exact (takes_iff_encode hr w).mp ht

theorem decode_encode (i : Instr) : decode (encode i) = .ok i := by
  obtain ⟨-, r, hr, ht, hb, -⟩ := rowMatch i
  exact decode_ok_iff.mpr ⟨r, hr, ht, by rw [encode_color, hb]⟩

/-- Settles O2: the row that takes a word builds the instruction the word encodes, and every encoding has its row. -/
theorem decodeInvertsEncodeOnEveryWord : Obligations.DecodeInvertsEncodeOnEveryWord := by
  intro w i
  exact ⟨encode_of_decode, fun h => h ▸ decode_encode i⟩

/-- Settles O3: `takes_iff_encode` with `decode` the inverse of `encode`, and the rows' own words. -/
theorem wordDecodesExactlyWhenRowMatches : Obligations.WordDecodesExactlyWhenRowMatches := by
  intro w r hr
  refine ⟨?_, ?_, ?_, fun r' hr' h h' => ?_⟩
  · rw [← takes_iff, takes_iff_encode hr, decodeInvertsEncodeOnEveryWord]
  · rcases row_encode r hr with ⟨-, he⟩ | ⟨-, -, he⟩
    · exact (he false).2.symm
    · rw [(he false).2]; exact BitVec.or_zero.symm
  · rcases row_encode r hr with ⟨hm, he⟩ | ⟨hm, -, he⟩
    · rw [hm, (he true).1]; rfl
    · rw [hm, (he true).1]; rfl
  · rw [row_unique hr hr' (takes_iff.mpr h) (takes_iff.mpr h')]

/-! ### Reserved encodings (30_encoding.md R94) -/

/-- The fields of a word that decodes are those of its instruction. -/
theorem fields_of_decode {w : Word} {i : Instr} (h : decode w = .ok i) :
    w.extractLsb' 10 22 = 0#22 ∧ i.op = w.extractLsb' 0 8 ∧ i.color = w.getLsbD 8 ∧ i.fill = w.getLsbD 9 := by
  rw [← encode_of_decode h]
  exact ⟨encode_rsv i, (encode_op i).symm, (encode_color i).symm, (encode_fill i).symm⟩

theorem exists_decodeError {w : Word} (h : ∀ i, decode w ≠ .ok i) : ∃ e, decode w = .error e := by
  cases hd : decode w with
  | ok i => exact absurd hd (h i)
  | error e => exact ⟨e, rfl⟩

/-- What a completion with INVALID_COMMAND writes (60_exceptions.md R211). -/
theorem complete_invalidCommand (f : Flags) : f.complete .invalidCommand =
    { f with lastCode := .invalidCommand, done := true, err := true,
             firstErr := if f.err then f.firstErr else .invalidCommand } := by
  cases h : f.err <;> simp [Flags.complete, h]

/-- With no input pending the running command completes. -/
theorem step_runs {s : State} (hi : s.inputs = []) (hs : s.seq = .running) : step s = runCommand s := by
  simp [step, hi, controllerTurn, hs]

/-- Settles O4: a word that decodes has the fields of its instruction, and a word that does not completes. -/
theorem undecodableWordCompletesInvalidCommand : Obligations.UndecodableWordCompletesInvalidCommand := by
  refine ⟨fun w => ⟨fun hr => ?_, fun ho => ?_, fun hw hc => ?_, fun hw hf => ?_⟩, fun s e hi hs he => ?_⟩
  case refine_5 =>
    rw [step_runs hi hs, runCommand_error he, State.finish, complete_invalidCommand]
  all_goals
    refine exists_decodeError fun i h => ?_
    obtain ⟨hrsv, hop, hcolor, hfill⟩ := fields_of_decode h
  · exact hr hrsv
  · exact ho i hop
  · simp only [hc i hop, hw, Bool.false_eq_true] at hcolor
  · simp only [hf i hop, hw, Bool.false_eq_true] at hfill

/-- Settles O1: each word by evaluation. -/
theorem writtenWordsDecode : Obligations.WrittenWordsDecode := by
  unfold Obligations.WrittenWordsDecode
  decide

/-! ### Steps and the issue of a command (30_encoding.md R101 to R103) -/

/-- Settles O5: each of the three steps is the running command's run, which is `exec` of the decoded instruction. -/
theorem stepRunsTheDecodedInstruction : Obligations.StepRunsTheDecodedInstruction := by
  intro s i rest hs hd
  refine ⟨fun hi => ?_, fun hi => ?_, fun hi => ?_⟩
  · rw [step_runs hi hs, runCommand_ok hd]
  · rw [← runCommand_ok (s := { s with inputs := rest }) hd]
    simp [step, hi, serve, controllerTurn, hs]
  · have hq : ({ s with inputs := .wait :: rest } : State) = s := by rw [← hi]
    rw [← runCommand_ok hd]
    simp only [step, hi, serve, State.waitLoop, hq, (busy_iff { s with inputs := rest }).mpr hs, ↓reduceIte]

theorem step_access {s : State} {a : Access} {rest : List Input} (h : s.inputs = .access a :: rest) :
    step s = .next (({ s with inputs := rest } : State).hostAccess a) := by
  simp only [step, h, serve]

/-- A 32-bit write to a register at the head of the queue. -/
theorem step_writeReg {s : State} {r : Reg} {w : Word} {rest : List Input}
    (h : s.inputs = .access (.write r.addr 4 w) :: rest) (hr : s.inReset = false) :
    step s = .next { ({ s with inputs := rest } : State).writeReg w r with resp := .done } := by
  rw [step_access h, hostAccess_write_reg (s := { s with inputs := rest }) hr]

/-- Settles O7: the write reaches the register CMD, and `writeCmd` issues or sets OVERRUN. -/
theorem cmdWriteIssuesOrOverruns : Obligations.CmdWriteIssuesOrOverruns := by
  intro s w rest hi hr
  rw [step_writeReg (r := .cmd) hi hr]
  refine ⟨fun hs => ?_, fun hs => ?_⟩ <;>
    rcases writeCmd_cases w { s with inputs := rest } with ⟨hq, hw⟩ | ⟨hq, hw⟩
  · rw [State.writeReg, hw]; rfl
  · simp [hs] at hq
  · simp [hs] at hq
  · rw [State.writeReg, hw]

end Sys2Proof.Machine

namespace Sys2Proof.Machine

/-! ### A run of register writes (30_encoding.md R105) -/

theorem run_succ {s t : State} (h : step s = .next t) (n : Nat) :
    Sys2Proof.core.run (n + 1) s = Sys2Proof.core.run n t := by
  simp only [Host.Core.run, Sys2Proof.core, h]

/-- One register write of the host, answered. -/
def State.answerWrite (s : State) (p : Reg × Word) : State := { s.writeReg p.2 p.1 with resp := .done }

theorem answerWrite_inReset (s : State) (p : Reg × Word) : (s.answerWrite p).inReset = s.inReset := by
  unfold State.answerWrite
  rcases writeReg_cases p.2 s p.1 with ⟨-, -, h⟩ | ⟨h, -⟩
  · rw [h]; rfl
  · rw [h]

/-- The pending inputs do not matter to a register write. -/
theorem answerWrite_inputs (s : State) (p : Reg × Word) (l : List Input) :
    ({ s with inputs := l } : State).answerWrite p = { s.answerWrite p with inputs := l } := by
  obtain ⟨r, w⟩ := p
  cases r
  case cmd => cases hs : s.seq <;> simp [State.answerWrite, State.writeReg, State.writeCmd, State.busy, hs, State.issue]
  all_goals rfl

/-- The state after these register writes of the host. -/
def State.answerWrites (l : List (Reg × Word)) (s : State) : State := l.foldl State.answerWrite s

theorem answerWrites_concat (l : List (Reg × Word)) (p : Reg × Word) (s : State) :
    s.answerWrites (l ++ [p]) = (s.answerWrites l).answerWrite p := List.foldl_concat ..

/-- The inputs of these register writes. -/
def regInputs (l : List (Reg × Word)) : List Input := l.map fun p => write32 p.1.addr p.2

/-- A queue of register writes is served one a step. -/
theorem run_regInputs (l : List (Reg × Word)) {s : State} (hr : s.inReset = false) (h : s.inputs = regInputs l) :
    Sys2Proof.core.run l.length s = .next (({ s with inputs := [] } : State).answerWrites l) := by
  induction l generalizing s with
  | nil => rw [← (show s.inputs = [] from h)]; rfl
  | cons p l ih =>
    have hstep : step s = .next { s.answerWrite p with inputs := regInputs l } :=
      (step_writeReg (r := p.1) (w := p.2) h hr).trans (congrArg _ (answerWrite_inputs s p _))
    have hrun := ih (s := { s.answerWrite p with inputs := regInputs l }) ((answerWrite_inReset s p).trans hr) rfl
    have hq := congrArg (fun u => (.next (u.answerWrites l) : Answer)) (answerWrite_inputs s p [])
    exact (run_succ hstep _).trans (hrun.trans hq.symm)

/-! ### The writes of a command statement -/

/-- The registers a command statement writes before CMD, with the words. -/
def argWrites (args : List Word) : List (Reg × Word) := [Reg.arg0, .arg1, .arg2].zip args

theorem writes_eq (c : CmdStmt) : c.writes = regInputs (argWrites c.args ++ [(.cmd, encode c.instr)]) := by
  have hoff : [0x010#14, 0x014#14, 0x018#14] = [Reg.arg0, .arg1, .arg2].map Reg.addr := rfl
  rw [regInputs, List.map_append, argWrites, CmdStmt.writes, hoff, List.zipWith_map_left, ← List.map_uncurry_zip_eq_zipWith]
  rfl

/-- Writes to registers that store change the registers and the answer. -/
theorem answerWrites_stores {l : List (Reg × Word)} (hl : ∀ p ∈ l, p.1 ∈ Reg.stores) (s : State) :
    ∃ g a, s.answerWrites l = { s with regs := g, resp := a } := by
  induction l generalizing s with
  | nil => exact ⟨s.regs, s.resp, rfl⟩
  | cons p l ih =>
    obtain ⟨hp, hl⟩ := List.forall_mem_cons.mp hl
    have hone : s.answerWrite p = { s with regs := (s.writeReg p.2 p.1).regs, resp := .done } := by
      rw [State.answerWrite, writeReg_stores hp]
    obtain ⟨g, a, h⟩ := ih hl (s.answerWrite p)
    exact ⟨g, a, by rw [State.answerWrites, List.foldl_cons, ← State.answerWrites, h, hone]⟩

theorem argWrites_stores (args : List Word) : ∀ p ∈ argWrites args, p.1 ∈ Reg.stores := fun _ hp =>
  (show ∀ r ∈ [Reg.arg0, .arg1, .arg2], r ∈ Reg.stores by decide) _ (List.of_mem_zip hp).1

/-- ARG0 to ARG2 of the snapshot hold these words, as far as there are any. -/
def Snap.holdArgs (p : Snap) : List Word → Prop
  | [] => True
  | [a] => p.arg0 = a
  | [a, b] => p.arg0 = a ∧ p.arg1 = b
  | a :: b :: c :: _ => p.arg0 = a ∧ p.arg1 = b ∧ p.arg2 = c

/-- An issue after those writes takes the words into the snapshot. -/
theorem snapshot_holdArgs (args : List Word) (s : State) (w : Word) :
    ((s.answerWrites (argWrites args)).regs.snapshot w).holdArgs args := by
  match args with
  | [] => trivial
  | [_] => rfl
  | [_, _] => exact ⟨rfl, rfl⟩
  | _ :: _ :: _ :: _ => exact ⟨rfl, rfl, rfl⟩

/-- A write to CMD while no command runs. -/
theorem answerWrite_cmd {s : State} (hs : s.seq = .idle) (w : Word) :
    s.answerWrite (.cmd, w) = { s.issue w with resp := .done } := by
  rcases writeCmd_cases w s with ⟨-, h⟩ | ⟨h, -⟩
  · rw [State.answerWrite, State.writeReg, h]
  · simp [hs] at h

/-- The writes of a command statement, made on an idle block, issue its instruction with its words. -/
theorem run_writes {s : State} {c : CmdStmt} (hs : s.seq = .idle) (hr : s.inReset = false) (h : s.inputs = c.writes) :
    ∃ t, Sys2Proof.core.run c.writes.length s = .next t ∧ t.inputs = [] ∧ t.seq = .running ∧
      t.snap.cmd = encode c.instr ∧ t.snap.holdArgs c.args ∧ t.mem = s.mem ∧ t.session = s.session ∧ t.bus = s.bus := by
  have hrun := run_regInputs _ hr (h.trans (writes_eq c))
  have hlen : (argWrites c.args ++ [(Reg.cmd, encode c.instr)]).length = c.writes.length := by
    rw [writes_eq, regInputs, List.length_map]
  have hargs := snapshot_holdArgs c.args { s with inputs := [] } (encode c.instr)
  obtain ⟨g, a, hu⟩ := answerWrites_stores (argWrites_stores c.args) { s with inputs := [] }
  rw [hu] at hargs
  rw [hlen, answerWrites_concat, hu] at hrun
  have hcmd := answerWrite_cmd (s := { s with inputs := [], regs := g, resp := a }) hs (encode c.instr)
  exact ⟨_, hrun.trans (congrArg _ hcmd), rfl, rfl, rfl, hargs, rfl, rfl, rfl⟩

/-! ### The operands in the words (30_encoding.md R96 to R98, R105) -/

theorem inSigned_toInt {v : Int} (h : inSigned v = true) : (BitVec.ofInt 16 v).toInt = v := by
  obtain ⟨h1, h2⟩ := of_decide_eq_true h
  exact BitVec.toInt_ofInt_eq_self (by decide) (by omega) (by omega)

/-- An unsigned operand in the low bits of a word of any width that holds it. -/
theorem toNat_extract_ofInt {v : Int} {n w : Nat} (hw : n ≤ w) (h1 : 0 ≤ v) (h2 : v < (2 ^ n : Nat)) :
    (((BitVec.ofInt w v).extractLsb' 0 n).toNat : Int) = v := by
  obtain ⟨m, rfl⟩ := Int.eq_ofNat_of_zero_le h1
  have hm : m < 2 ^ n := Int.ofNat_lt.mp h2
  have hle : 2 ^ n ≤ 2 ^ w := Nat.pow_le_pow_right (by decide) hw
  rw [BitVec.ofInt_natCast, BitVec.extractLsb'_toNat, BitVec.toNat_ofNat, Nat.shiftRight_zero,
    Nat.mod_eq_of_lt (hm.trans_le hle), Nat.mod_eq_of_lt hm]

theorem inUnsigned_toNat {v : Int} (h : inUnsigned v = true) :
    (((BitVec.ofInt 32 v).extractLsb' 0 16).toNat : Int) = v := by
  obtain ⟨h1, h2⟩ := of_decide_eq_true h
  exact toNat_extract_ofInt (by decide) h1 (by omega)

theorem inUnsigned_half_toNat {v : Int} (h : inUnsigned v = true) : ((BitVec.ofInt 16 v).toNat : Int) = v := by
  obtain ⟨h1, h2⟩ := of_decide_eq_true h
  have := toNat_extract_ofInt (n := 16) (w := 16) (by decide) h1 (by omega)
  rwa [BitVec.extractLsb'_eq_self] at this

theorem inByte_toNat {v : Int} (h : inByte v = true) : ((BitVec.ofInt 8 v).toNat : Int) = v := by
  obtain ⟨h1, h2⟩ := of_decide_eq_true h
  have := toNat_extract_ofInt (n := 8) (w := 8) (by decide) h1 (by omega)
  rwa [BitVec.extractLsb'_eq_self] at this

theorem packPair_low (x y : Int) : (packPair x y).extractLsb' 0 16 = BitVec.ofInt 16 x := by
  rw [packPair, BitVec.extractLsb'_append_eq_of_add_le (by decide), BitVec.extractLsb'_eq_self]

theorem packPair_high (x y : Int) : (packPair x y).extractLsb' 16 16 = BitVec.ofInt 16 y := by
  rw [packPair, BitVec.extractLsb'_append_eq_of_le (by decide)]
  exact BitVec.extractLsb'_eq_self

/-- A lane of joined bytes is the byte. -/
theorem joinBytes_lane (bs : List Byte) {k : Nat} (hk : k < 4) : (joinBytes bs).extractLsb' (8 * k) 8 = bs.getD k 0#8 := by
  refine BitVec.eq_of_getLsbD_eq fun i hi => ?_
  have hd : (8 * k + i) / 8 = k := by omega
  have hm : (8 * k + i) % 8 = i := by omega
  rw [BitVec.getLsbD_extractLsb', joinBytes_getLsbD, hd, hm]
  simp [hi, show 8 * k + i < 32 by omega]

section
variable {t : State} {x y : Int}

theorem pt0_of_packPair (h : t.snap.arg0 = packPair x y) (hx : inSigned x = true) (hy : inSigned y = true) :
    t.pt0 = (x, y) := by
  rw [State.pt0, h, packPair_low, packPair_high, inSigned_toInt hx, inSigned_toInt hy]

theorem pt1_of_packPair (h : t.snap.arg1 = packPair x y) (hx : inSigned x = true) (hy : inSigned y = true) :
    t.pt1 = (x, y) := by
  rw [State.pt1, h, packPair_low, packPair_high, inSigned_toInt hx, inSigned_toInt hy]

theorem size_of_packPair (h : t.snap.arg1 = packPair x y) (hx : inUnsigned x = true) (hy : inUnsigned y = true) :
    t.lowArg1 = x ∧ t.highArg1 = y := by
  rw [State.lowArg1, State.highArg1, h, packPair_low, packPair_high]
  exact ⟨inUnsigned_half_toNat hx, inUnsigned_half_toNat hy⟩

theorem lowArg1_of_ofInt (h : t.snap.arg1 = BitVec.ofInt 32 x) (hx : inUnsigned x = true) : t.lowArg1 = x := by
  rw [State.lowArg1, h, inUnsigned_toNat hx]

theorem lowArg2_of_ofInt (h : t.snap.arg2 = BitVec.ofInt 32 x) (hx : inUnsigned x = true) : t.lowArg2 = x := by
  rw [State.lowArg2, h, inUnsigned_toNat hx]

end

/-- The bytes of RAW_DATA on the lanes of ARG0, and their number. -/
theorem rawData_operands {t : State} {bs : List Int} (hlen : bs.length ≤ 4) (hbs : ∀ b ∈ bs, inByte b = true)
    (h0 : t.snap.arg0 = joinBytes (bs.map (BitVec.ofInt 8))) (h1 : t.snap.arg1 = BitVec.ofNat 32 bs.length) :
    t.holdsOperands (.rawData bs) := by
  refine ⟨?_, fun k hk => ?_⟩
  · rw [State.lowArg1, h1, BitVec.extractLsb'_toNat, BitVec.toNat_ofNat, Nat.shiftRight_zero]
    omega
  · rw [h0, joinBytes_lane _ (by omega), List.getElem?_eq_getElem hk, List.getD_eq_getElem _ _ (by simpa using hk),
      List.getElem_map, inByte_toNat (hbs _ (List.getElem_mem hk))]

/-- The words of a statement that the assembler accepts hold its operands. -/
theorem holdsOperands_of_holdArgs {t : State} {c : CmdStmt} (hc : c.wf = true) (h : t.snap.holdArgs c.args) :
    t.holdsOperands c := by
  cases c <;> simp only [CmdStmt.wf, Bool.and_eq_true] at hc
  case rawCmd b =>
    obtain ⟨h1, h2⟩ := of_decide_eq_true hc
    change ((t.snap.arg0.extractLsb' 0 8).toNat : Int) = b
    rw [show t.snap.arg0 = _ from h]
    exact toNat_extract_ofInt (by decide) h1 (by omega)
  case rawData bs =>
    obtain ⟨h0, h1⟩ := h
    obtain ⟨hl, hbs⟩ := hc
    exact rawData_operands (of_decide_eq_true hl).2 (List.all_eq_true.mp hbs) h0 h1
  case rawWaitIdle T =>
    change ((t.snap.arg0.extractLsb' 0 16).toNat : Int) = T
    rw [show t.snap.arg0 = _ from h, inUnsigned_toNat hc]
  case displayPartial =>
    obtain ⟨h0, h1⟩ := h
    obtain ⟨⟨⟨hx, hy⟩, hw⟩, hh⟩ := hc
    exact ⟨pt0_of_packPair h0 hx hy, size_of_packPair h1 hw hh⟩
  case pixel | getPixel => exact pt0_of_packPair h hc.1 hc.2
  case line | rect | rectf =>
    obtain ⟨h0, h1⟩ := h
    obtain ⟨⟨⟨hx0, hy0⟩, hx1⟩, hy1⟩ := hc
    exact ⟨pt0_of_packPair h0 hx0 hy0, pt1_of_packPair h1 hx1 hy1⟩
  case circle | circlef =>
    obtain ⟨h0, h1⟩ := h
    obtain ⟨⟨hx, hy⟩, hr⟩ := hc
    exact ⟨pt0_of_packPair h0 hx hy, lowArg1_of_ofInt h1 hr⟩
  case blit =>
    obtain ⟨h0, h1, h2⟩ := h
    obtain ⟨⟨⟨⟨hx, hy⟩, hw⟩, hh⟩, ha⟩ := hc
    obtain ⟨hwd, hht⟩ := size_of_packPair h1 hw hh
    exact ⟨pt0_of_packPair h0 hx hy, hwd, hht, lowArg2_of_ofInt h2 ha⟩
  all_goals trivial

/-- Settles O58: the writes are served one a step; those of the ARG words leave the block idle, so that the one to CMD issues
the encoding of the instruction and the snapshot takes the words. -/
theorem assembledCommandIsIssuedWithItsOperands : Obligations.AssembledCommandIsIssuedWithItsOperands := by
  intro s c hc hs hr hi
  obtain ⟨t, hrun, hq, hseq, hcmd, hargs, hframe⟩ := run_writes hs hr hi
  exact ⟨t, hrun, hq, hseq, hcmd ▸ decode_encode c.instr, holdsOperands_of_holdArgs hc hargs, hframe⟩

end Sys2Proof.Machine

namespace Sys2Proof.Machine

/-! ### The waveform of a transaction (40_transport.md R121, R122, R125) -/

/-- The bytes of a transaction are on the wire bit by bit. -/
theorem flatMap_byteWave (h : Nat) (l : Lines) (bs : List Byte) :
    bs.flatMap (byteWave h l) = (bs.flatMap wireBits).flatMap (bitWave h l) := List.flatMap_assoc.symm

theorem wireBits_eq_range (b : Byte) : wireBits b = (List.range 8).map fun k => b.getLsbD (7 - k) := rfl

theorem xactWave_length (h : Nat) (l : Lines) (dc : Bool) (bs : List Byte) :
    (xactWave h l dc bs).length = h * (16 * bs.length + 3) := by
  simp only [xactWave, List.length_append, List.length_replicate, flatMap_byteWave_length]
  ring

theorem levelOf_beq_high (b : Bool) : (levelOf b == .high) = b := by cases b <;> rfl

/-- Lines that stay as they are for some cycles give at most the one sample of their first cycle. -/
theorem sampledBits_replicate_append {n : Nat} (hn : 1 ≤ n) (c : Level) (l : Lines) (ls : List Lines) :
    sampledBits c (List.replicate n l ++ ls) =
      (if c = .low ∧ l.sclk = .high ∧ l.csN = .low then [l.mosi == .high] else []) ++ sampledBits l.sclk ls := by
  induction n, hn using Nat.le_induction generalizing c with
  | base =>
    simp only [List.replicate_one, List.singleton_append, sampledBits]
    split_ifs <;> rfl
  | succ n _ ih =>
    have hsteady : ¬ (l.sclk = .low ∧ l.sclk = .high ∧ l.csN = .low) := by
      rintro ⟨hlow, hhigh, -⟩; rw [hlow] at hhigh; cases hhigh
    simp only [List.replicate_succ, List.cons_append, sampledBits, ih, if_neg hsteady, List.nil_append]
    split_ifs <;> rfl

/-- With EPD_SCLK low there is no sample. -/
theorem sampledBits_low_append {n : Nat} (hn : 1 ≤ n) (c : Level) {l : Lines} (hl : l.sclk = .low) (ls : List Lines) :
    sampledBits c (List.replicate n l ++ ls) = sampledBits .low ls := by
  rw [sampledBits_replicate_append hn, hl]; simp

/-- The samples of a selected panel are the bits sent, where what follows has no sample. -/
theorem sampledBits_bitWaves {h : Nat} (hh : 1 ≤ h) {l : Lines} (hl : l.csN = .low) {ls : List Lines}
    (hls : ∀ c, sampledBits c ls = []) (bits : List Bool) (c : Level) :
    sampledBits c (bits.flatMap (bitWave h l) ++ ls) = bits := by
  induction bits generalizing c with
  | nil => exact hls c
  | cons b bits ih =>
    rw [List.flatMap_cons, bitWave, List.append_assoc, List.append_assoc, sampledBits_low_append hh c rfl,
      sampledBits_replicate_append hh, ih, if_pos ⟨rfl, rfl, hl⟩, levelOf_beq_high]
    rfl

/-- The panel receives the bytes, most significant bit first. -/
theorem sampledBits_xactWave {h : Nat} (hh : 1 ≤ h) {l : Lines} (hl : l.sclk = .low) (dc : Bool) (bs : List Byte) :
    sampledBits l.sclk (xactWave h l dc bs) = bs.flatMap wireBits := by
  simp only [xactWave, List.append_assoc, flatMap_byteWave]
  refine (sampledBits_low_append hh _ (by exact hl) _).trans (sampledBits_bitWaves hh rfl (fun c => ?_) _ _)
  rw [sampledBits_low_append hh c rfl, ← List.append_nil (List.replicate h _)]
  exact sampledBits_low_append hh _ (by exact hl) []

/-- EPD_DC is at its level in every cycle. -/
theorem xactWave_dc {h : Nat} {l w : Lines} {dc : Bool} {bs : List Byte} (hw : w ∈ xactWave h l dc bs) :
    w.dc = dcLevel dc := by
  simp only [xactWave, byteWave, bitWave, List.mem_append, List.mem_replicate, List.mem_flatMap] at hw
  obtain ((⟨-, rfl⟩ | ⟨_, -, _, -, ⟨-, rfl⟩ | ⟨-, rfl⟩⟩) | ⟨-, rfl⟩) | ⟨-, rfl⟩ := hw <;> rfl

/-- EPD_MOSI changes from a cycle to the next only where EPD_SCLK is then low. -/
def MosiSetup (a b : Lines) : Prop := a.mosi ≠ b.mosi → b.sclk = .low

/-- A wave that begins with EPD_SCLK low and keeps the set-up rule, so that any wave may stand before it. -/
def SetupWave (ls : List Lines) : Prop := ls.IsChain MosiSetup ∧ ∀ w ∈ ls.head?, w.sclk = .low

theorem setupWave_nil : SetupWave [] := ⟨.nil, nofun⟩

/-- Steady lines before a wave keep the rule where the wave's first cycle does. -/
theorem isChain_replicate_append {n : Nat} {l : Lines} {ls : List Lines} (hls : ls.IsChain MosiSetup)
    (hj : ∀ w ∈ ls.head?, MosiSetup l w) : (List.replicate n l ++ ls).IsChain MosiSetup := by
  refine List.isChain_append.mpr ⟨List.isChain_replicate_of_rel n fun hne => absurd rfl hne, hls, fun x hx w hw => ?_⟩
  rw [List.eq_of_mem_replicate (List.mem_of_getLast? hx)]
  exact hj w hw

theorem setupWave_low_append {n : Nat} (hn : 1 ≤ n) {l : Lines} (hl : l.sclk = .low) {ls : List Lines}
    (hls : SetupWave ls) : SetupWave (List.replicate n l ++ ls) := by
  obtain ⟨m, rfl⟩ := Nat.exists_eq_add_of_le' hn
  refine ⟨isChain_replicate_append hls.1 fun w hw _ => hls.2 w hw, fun w hw => ?_⟩
  rw [List.replicate_succ, List.cons_append, List.head?_cons, Option.mem_some_iff] at hw
  rwa [← hw]

/-- A bit's two halves have the same EPD_MOSI. -/
theorem setupWave_bitWave_append {h : Nat} (hh : 1 ≤ h) (l : Lines) (b : Bool) {ls : List Lines} (hls : SetupWave ls) :
    SetupWave (bitWave h l b ++ ls) := by
  obtain ⟨m, rfl⟩ := Nat.exists_eq_add_of_le' hh
  rw [bitWave, List.append_assoc]
  refine ⟨isChain_replicate_append (isChain_replicate_append hls.1 fun w hw _ => hls.2 w hw) fun w hw hne => ?_,
    fun w hw => ?_⟩ <;>
    rw [List.replicate_succ, List.cons_append, List.head?_cons, Option.mem_some_iff] at hw <;> subst hw
  · exact absurd rfl hne
  · rfl

theorem setupWave_bitWaves_append {h : Nat} (hh : 1 ≤ h) (l : Lines) {ls : List Lines} (hls : SetupWave ls)
    (bits : List Bool) : SetupWave (bits.flatMap (bitWave h l) ++ ls) := by
  induction bits with
  | nil => exact hls
  | cons b bits ih =>
    rw [List.flatMap_cons, List.append_assoc]
    exact setupWave_bitWave_append hh l b ih

/-- A transaction keeps the set-up rule throughout. -/
theorem setupWave_xactWave {h : Nat} (hh : 1 ≤ h) {l : Lines} (hl : l.sclk = .low) (dc : Bool) (bs : List Byte) :
    SetupWave (xactWave h l dc bs) := by
  simp only [xactWave, List.append_assoc, flatMap_byteWave]
  refine setupWave_low_append hh (by exact hl) (setupWave_bitWaves_append hh _ ?_ _)
  refine setupWave_low_append hh rfl ?_
  rw [← List.append_nil (List.replicate h _)]
  exact setupWave_low_append hh (by exact hl) setupWave_nil

theorem mosiSetup_of_getElem? {ls : List Lines} (hls : ls.IsChain MosiSetup) {k : Nat} {a b : Lines}
    (ha : ls[k]? = some a) (hb : ls[k + 1]? = some b) : MosiSetup a b := by
  obtain ⟨h1, rfl⟩ := List.getElem?_eq_some_iff.mp ha
  obtain ⟨h2, rfl⟩ := List.getElem?_eq_some_iff.mp hb
  exact hls.getElem k h2

/-- A transaction ends with chip-select released and EPD_MOSI low. -/
theorem xactWave_getLast? {h : Nat} (hh : 1 ≤ h) (l : Lines) (dc : Bool) (bs : List Byte) :
    (xactWave h l dc bs).getLast? = some { l with dc := dcLevel dc, csN := .high, mosi := .low } := by
  obtain ⟨m, rfl⟩ := Nat.exists_eq_add_of_le' hh
  rw [xactWave, List.getLast?_append_of_ne_nil _ (by simp), List.getLast?_replicate, if_neg (Nat.succ_ne_zero m)]

/-! ### The waveforms of the other events (40_transport.md R123, R128; 70_reset_and_hazards.md R252, R253) -/

/-- The waveform of an event has its span of cycles. -/
theorem wave_length (h : Nat) (l : Lines) (e : Event) : (e.wave h l).length = e.span h := by
  cases e with
  | xact dc bs => exact xactWave_length h l dc bs
  | pulse lo st => simp [Event.wave, Event.span, pulseWave, Nat.add_mul]
  | wait t r => exact List.length_replicate
  | drive | release | cut => rfl

/-- A reset pulse moves EPD_RST_N alone. -/
theorem pulseWave_getElem? {l w : Lines} {lo st k : Nat} (hw : (pulseWave l lo st)[k]? = some w) :
    w = { l with rstN := if k < lo * Config.msDiv then .low else .high } := by
  rw [pulseWave, List.getElem?_append, List.length_replicate] at hw
  split_ifs at hw ⊢ <;> exact List.eq_of_mem_replicate (List.mem_of_getElem? hw)

/-- Settles O59: the wave of a transaction is its bits, each sampled once, between steady lines; a pulse and a wait are steady
lines. -/
theorem wireCarriesTheBytes : Obligations.WireCarriesTheBytes := by
  intro h l hh hl
  have hclk : l.sclk = .low := by rw [hl]; rfl
  have hcs : l.csN = .high := by rw [hl]; rfl
  refine ⟨fun dc bs _ => ⟨xactWave_length h l dc bs, ?_, fun w hw _ => xactWave_dc hw, ?_, ?_⟩, fun lo st => ⟨?_, ?_⟩,
    fun t r w hw => ?_, fun e => ⟨wave_length h l e, ?_⟩⟩
  · exact sampledBits_xactWave hh hclk dc bs
  · exact fun k a b => mosiSetup_of_getElem? (setupWave_xactWave hh hclk dc bs).1
  · rw [xactWave_getLast? hh, hl]; rfl
  · exact wave_length h l (.pulse lo st)
  · intro k w hw
    obtain rfl := pulseWave_getElem? hw
    exact ⟨rfl, hcs⟩
  · obtain rfl := List.eq_of_mem_replicate hw
    exact ⟨rfl, hcs⟩
  · cases e <;> rfl

end Sys2Proof.Machine

namespace Sys2Proof.Machine

/-! ### The transport commands (40_transport.md R131 to R137) -/

/-- A word with OP 0x00 and any other bit set decodes to no instruction (30_encoding.md R94). -/
theorem decode_op_zero {w : Word} (hop : w.extractLsb' 0 8 = 0#8) (hw : w ≠ 0#32) : ∃ e, decode w = .error e := by
  refine exists_decodeError fun i hd => ?_
  have hi : i.op = 0#8 := (fields_of_decode hd).2.1.trans hop
  cases i with
  | nop => exact hw ((encode_of_decode hd).symm.trans (by decide))
  | _ => simp [Instr.op] at hi

/-- Settles O23: NOP is its completion, and a word with OP 0 that is not NOP's decodes to none. -/
theorem nopOnlyCompletes : Obligations.NopOnlyCompletes := by
  refine ⟨by decide, fun s => rfl, fun s hop hw => ?_⟩
  obtain ⟨e, he⟩ := decode_op_zero hop hw
  exact runCommand_error he

/-- A completion that writes the session, the bus and the panel's side at most. -/
theorem completes_of_transport (c : Code) (s : State) (x : Session) (b : Bus) (p : Panel) :
    Completes c s.flags s (State.finish c { s with session := x, bus := b, panel := p }) :=
  ⟨rfl, rfl, rfl, rfl, rfl, rfl, rfl, rfl, rfl⟩

/-- Settles O24: by the one check of OPEN. -/
theorem openDrivesTheLines : Obligations.OpenDrivesTheLines := by
  refine ⟨by decide, fun s => ⟨fun ho => if_pos ho, fun ho => ⟨_, if_neg (by simp [ho]), ?_⟩⟩⟩
  exact ⟨completes_of_transport .ok s _ _ s.panel, rfl, rfl, fun _ => rfl, rfl, rfl⟩

/-! ### CLOSE (40_transport.md R133) -/

theorem sleepOwed_iff (s : State) : s.sleepOwed = true ↔
    s.session.fsm = .readyFull ∨ s.session.fsm = .readyFast ∨ s.session.fsm = .partialActive := by
  simp [State.sleepOwed, or_assoc]

/-- CLOSE puts a panel that owes its sleep to sleep. -/
theorem closeSleep_of_owed {s : State} (h : s.sleepOwed = true) :
    closeSleep s = ((s.emit deepSleep).enter .asleep, .ok) := by
  rcases (sleepOwed_iff s).mp h with hf | hf | hf <;> simp only [closeSleep, hf]

/-- CLOSE leaves any other panel as it is. -/
theorem closeSleep_of_not_owed {s : State} (h : s.sleepOwed = false) :
    closeSleep s = (s, if s.session.fsm = .asleep then .ok else .invalidTransition) := by
  cases hf : s.session.fsm
  case cold | asleep | fault => simp [closeSleep, hf]
  all_goals simp [State.sleepOwed, hf] at h

theorem close_completes (s : State) : Completes .ok { s.flags with auxCode := (closeSleep s).2, auxValid := true } s
    (((closeSleep s).1.release (closeSleep s).2).finish .ok) := by
  constructor <;> simp

/-- Settles O25: with the transport open, by whether the panel owes its sleep. -/
theorem closeSleepsAndReleases : Obligations.CloseSleepsAndReleases := by
  refine ⟨by decide, fun s => ⟨fun ho => if_neg (by simp [ho]), fun ho => ⟨_, (closeSleep s).2, if_pos ho, ?_⟩⟩⟩
  refine ⟨close_completes s, rfl, rfl, ?_⟩
  cases hs : s.sleepOwed
  · rw [closeSleep_of_not_owed hs]
    refine ⟨hs, nofun, fun hf => if_pos hf, fun hf => if_neg ?_, fun _ => ⟨rfl, rfl⟩, fun _ => rfl, rfl, rfl⟩
    rcases hf with hf | hf <;> simp [hf]
  · rw [closeSleep_of_owed hs]
    refine ⟨rfl, fun _ => ⟨rfl, rfl, ?_⟩, fun _ => rfl, fun hf => ?_, nofun, fun _ => rfl, rfl, rfl⟩
    · simp only [State.finish_bus, release_bus, State.enter_bus, State.emit_bus, deepSleep, issuePanel_eq, issued,
        List.append_assoc]
    · rcases hf with hf | hf <;> simp [State.sleepOwed, hf] at hs

/-! ### RAW_RESET (40_transport.md R134) -/

/-- RAW_RESET with the transport open, in FAULT. -/
theorem exec_rawReset_fault {s : State} (ho : s.session.xportOpen = true) (hf : s.session.fsm = .fault) :
    exec .rawReset s = .next ((s.emit (resetPulse s.snap)).finish .ok) := by
  simp [exec, execRawReset, ho, hf]

/-- RAW_RESET with the transport open, in any other state. -/
theorem exec_rawReset_cold {s : State} (ho : s.session.xportOpen = true) (hf : s.session.fsm ≠ .fault) :
    exec .rawReset s = .next (((s.emit (resetPulse s.snap)).enter .cold).finish .ok) := by
  simp [exec, execRawReset, ho, hf]

/-- Settles O26: the pulse leaves the lines as they are, and what follows it is decided by whether the FSM is in FAULT. -/
theorem rawResetPulsesAndReturnsToCold : Obligations.RawResetPulsesAndReturnsToCold := by
  refine ⟨by decide, fun s => ⟨fun ho => if_neg (by simp [ho]), fun ho => ?_⟩⟩
  by_cases hf : s.session.fsm = .fault
  · exact ⟨_, exec_rawReset_fault ho hf, completes_of_transport .ok s _ _ s.panel, rfl, fun _ => rfl,
      fun h => absurd hf h, fun _ => rfl, rfl, rfl⟩
  · exact ⟨_, exec_rawReset_cold ho hf, completes_of_transport .ok s _ _ s.panel, rfl, fun h => absurd h hf,
      fun _ => congrArg (Session.mk .cold · false 0#16) ho, fun _ => rfl, rfl, rfl⟩

/-! ### RAW_CMD and RAW_DATA (40_transport.md R135, R136) -/

/-- The first `n` bytes of ARG0, lowest first. -/
theorem argBytes_take (p : Snap) {n : Nat} (hn : n ≤ 4) :
    p.argBytes.take n = (List.range n).map fun k => p.arg0.extractLsb' (8 * k) 8 := by
  have hall : p.argBytes = (List.range 4).map fun k => p.arg0.extractLsb' (8 * k) 8 := rfl
  rw [hall, ← List.map_take, List.take_range, Nat.min_eq_left hn]

/-- A legal RAW_DATA in COLD with the transport open sends one data transaction. -/
theorem exec_rawData_ok {s : State} (hf : s.session.fsm = .cold) (ho : s.session.xportOpen = true) (h1 : 1 ≤ s.lowArg1)
    (h4 : s.lowArg1 ≤ 4) : exec .rawData s = .next ((s.emit [.xact true
      ((List.range s.lowArg1).map fun k => s.snap.arg0.extractLsb' (8 * k) 8)]).finish .ok) := by
  have hcount : s.snap.count = s.lowArg1 := rfl
  have hlegal : ¬ (s.lowArg1 < 1 ∨ 4 < s.lowArg1) := by omega
  have hne : (List.range s.lowArg1).map (fun k => s.snap.arg0.extractLsb' (8 * k) 8) ≠ [] := by
    rw [ne_eq, List.map_eq_nil_iff, List.range_eq_nil]; omega
  simp only [exec, execRawData, hf, ho, hcount, hlegal, argBytes_take s.snap h4, writeData_of_ne hne, ne_eq,
    not_true_eq_false, Bool.true_eq_false, if_false]

/-- Settles O27: the checks in their order, then one transaction. -/
theorem rawTrafficOnlyInCold : Obligations.RawTrafficOnlyInCold := by
  refine ⟨by decide, by decide, fun s => ⟨fun hf => ⟨if_pos hf, if_pos hf⟩, fun hf ho => ?_, fun hf ho => ⟨?_, ?_, ?_⟩⟩⟩
  · exact ⟨(if_neg (not_not.mpr hf)).trans (if_pos ho), (if_neg (not_not.mpr hf)).trans (if_pos ho)⟩
  · exact ⟨_, (if_neg (not_not.mpr hf)).trans (if_neg (by simp [ho])), completes_of_transport .ok s _ _ s.panel, rfl,
      rfl, fun _ => rfl, rfl, rfl⟩
  · exact fun hn => (if_neg (not_not.mpr hf)).trans ((if_neg (by simp [ho])).trans (if_pos hn))
  · exact fun h1 h4 => ⟨_, exec_rawData_ok hf ho h1 h4, completes_of_transport .ok s _ _ s.panel, rfl, rfl, fun _ => rfl,
      rfl, rfl⟩

/-! ### RAW_WAIT_IDLE (40_transport.md R137) -/

theorem exec_rawWaitIdle_open {s : State} (ho : s.session.xportOpen = true) :
    exec .rawWaitIdle s = .next (s.waitThen s.snap.timeout (·.finish .ok)) := if_pos ho

/-- Settles O28: by the outcome of the wait. -/
theorem rawWaitIdleWaitsOnce : Obligations.RawWaitIdleWaitsOnce := by
  refine ⟨by decide, fun s T hT => ⟨fun ho => if_neg (by simp [ho]), fun ho hw => ?_, fun ho hw => ?_⟩⟩ <;>
    obtain rfl : T = s.snap.timeout := hT
  · refine ⟨_, (exec_rawWaitIdle_open ho).trans (congrArg _ (waitThen_idle hw _)), completes_of_transport .ok s _ _ _, rfl,
      ?_, fun _ => rfl, rfl, rfl⟩
    rw [State.finish_bus, State.waitIdle_bus, hw]
  · refine ⟨_, (exec_rawWaitIdle_open ho).trans (congrArg _ (waitThen_timeout hw _)),
      completes_of_transport .hardwareTimeout s _ _ _, ?_, ?_, fun _ => rfl, rfl, rfl⟩
    · exact congrArg (Session.mk .fault · false 0#16) ho
    · rw [State.finish_bus, State.enter_bus, State.waitIdle_bus, hw]

end Sys2Proof.Machine

namespace Sys2Proof.Machine

/-! ### The trace grows (40_transport.md R120) -/

/-- Between `s` and `t` no block reset came and no event was taken off the trace, inside a run neither. -/
structure Grows (s t : State) : Prop where
  earlier : t.earlier = s.earlier
  trace : s.bus.trace <+: t.bus.trace
  now : s.traceNow <+: t.traceNow

theorem Grows.trans {s t u : State} (h : Grows s t) (h' : Grows t u) : Grows s u :=
  ⟨h'.earlier.trans h.earlier, h.trace.trans h'.trace, h.now.trans h'.now⟩

/-- Leaving the trace and the place in the run as they are is growth, too. -/
theorem Grows.of_eq {s t : State} (he : t.earlier = s.earlier) (hb : t.bus = s.bus) (hn : t.traceNow = s.traceNow) :
    Grows s t := ⟨he, hb ▸ List.prefix_rfl, hn ▸ List.prefix_rfl⟩

theorem Grows.refl (s : State) : Grows s s := .of_eq rfl rfl rfl

/-- With what was on the trace before the last block reset, the trace grows as a whole. -/
theorem Grows.whole {s t : State} (h : Grows s t) : s.earlier ++ s.bus.trace <+: t.earlier ++ t.bus.trace := by
  rw [h.earlier, List.prefix_append_right_inj]; exact h.trace

theorem Grows.wholeNow {s t : State} (h : Grows s t) : s.earlier ++ s.traceNow <+: t.earlier ++ t.traceNow := by
  rw [h.earlier, List.prefix_append_right_inj]; exact h.now

theorem trace_prefix_traceNow (s : State) : s.bus.trace <+: s.traceNow := List.prefix_append _ _

theorem ran_seq {i : Instr} {s t : State} (h : Ran i s t) : t.seq = .idle := by
  obtain ⟨_, _, hc, -⟩ := ran_completes h
  exact hc.seq

theorem runCommand_seq {s t : State} (h : runCommand s = .next t) : t.seq = .idle := by
  rcases runCommand_cases h with ⟨i, -, hr⟩ | rfl
  · exact ran_seq hr
  · rfl

/-- A running command's trace is its trace at the issue with the events of the run. -/
theorem runCommand_trace {s t : State} (hs : s.seq = .running) (h : runCommand s = .next t) :
    t.bus.trace = s.bus.trace ++ s.runEvents := by
  obtain ⟨es, hes, -⟩ := runCommand_events h
  rw [State.runEvents, if_pos ((busy_iff s).mpr hs), completed_eq h, hes, List.drop_left]

/-- A completion leaves the events shown inside the run, and those still to come after them. -/
theorem grows_runCommand {s t : State} (hs : s.seq = .running) (h : runCommand s = .next t) : Grows s t where
  earlier := runCommand_earlier h
  trace := runCommand_trace hs h ▸ List.prefix_append _ _
  now := by
    rw [traceNow_idle (runCommand_seq h), runCommand_trace hs h, State.traceNow, List.prefix_append_right_inj]
    exact List.take_prefix _ _

/-- A change outside what the running command reads leaves the trace inside the run. -/
theorem grows_sameRun {s t : State} (h : SameRun s t) (he : t.earlier = s.earlier) (hq : t.seq = s.seq)
    (hp : t.pos = s.pos) : Grows s t := .of_eq he h.bus (h.traceNow hq hp)

/-- No command reads the pending inputs, the place in the run, the reset line, EPD_BUSY or its synchronizer. -/
theorem sameRun_aside (s : State) (l : List Input) (p : Pos) (r pin sync1 sync2 : Bool) : SameRun s { s with
    inputs := l, pos := p, inReset := r, panel := { s.panel with pin := pin, sync1 := sync1, sync2 := sync2 } } :=
  ⟨rfl, rfl, rfl, rfl, rfl, rfl, rfl, rfl, rfl, rfl⟩

theorem grows_inputs (s : State) (l : List Input) : Grows s { s with inputs := l } :=
  grows_sameRun (sameRun_aside s l _ _ _ _ _) rfl rfl rfl

/-- The place inside a run moves forward only. -/
theorem advance_events_le (n c : Nat) (s : State) : s.pos.events ≤ (s.advance n c).pos.events := by
  unfold State.advance
  dsimp only
  split_ifs
  · exact le_rfl
  · exact le_rfl
  · exact Nat.le_add_right _ _
  · exact le_rfl

theorem grows_advance (n c : Nat) (s : State) : Grows s (s.advance n c) := by
  have hrun : SameRun s (s.advance n c) := by
    rw [advance_eq]; exact sameRun_aside s _ _ _ _ _ _
  refine ⟨by rw [advance_eq], hrun.bus ▸ List.prefix_rfl, ?_⟩
  rw [State.traceNow, State.traceNow, hrun.bus, hrun.runEvents (by rw [advance_eq]), List.prefix_append_right_inj]
  exact List.take_prefix_take_left (advance_events_le n c s)

/-- A host access leaves the controller where it is, or issues. -/
theorem hostAccess_seq_pos (a : Access) (s : State) :
    ((s.hostAccess a).seq = s.seq ∧ (s.hostAccess a).pos = s.pos) ∨ (s.seq = .idle ∧ (s.hostAccess a).pos = ⟨0, 0⟩) := by
  refine hostAccess_keeps (P := fun u => (u.seq = s.seq ∧ u.pos = s.pos) ∨ (s.seq = .idle ∧ u.pos = ⟨0, 0⟩))
    (fun _ _ _ h => h) (fun w r u _ h => ?_) (fun _ _ _ h => h) a s (.inl ⟨rfl, rfl⟩)
  rcases writeReg_cases w u r with ⟨-, hu, h'⟩ | ⟨h', -⟩ <;> rw [h']
  · exact .inr ⟨h.elim (fun h => h.1 ▸ hu) And.left, rfl⟩
  · exact h

theorem traceNow_of_pos_zero {s : State} (h : s.pos = ⟨0, 0⟩) : s.traceNow = s.bus.trace := by
  simp [State.traceNow, h]

theorem hostAccess_traceNow (a : Access) (s : State) : (s.hostAccess a).traceNow = s.traceNow := by
  have hb := (hostAccess_session_bus a s).2
  rcases hostAccess_seq_pos a s with ⟨hq, hp⟩ | ⟨hs, hp⟩
  · cases hs : s.seq
    · rw [traceNow_idle (hq.trans hs), traceNow_idle hs, hb]
    · exact (sameRun_hostAccess hs a).traceNow hq hp
  · rw [traceNow_of_pos_zero hp, traceNow_idle hs, hb]

theorem grows_hostAccess (a : Access) (s : State) : Grows s (s.hostAccess a) :=
  .of_eq (hostAccess_earlier a s) (hostAccess_session_bus a s).2 (hostAccess_traceNow a s)

/-- Serving an input that is no block reset lets the trace grow. -/
theorem grows_served {i : Input} {s t : State} (h : Served i s t) (hi : i ≠ .resetAssert) : Grows s t := by
  cases h with
  | access => exact grows_hostAccess _ s
  | waitRead => exact grows_hostAccess (.read 0x008 4) s
  | waitRun hs hr => exact (grows_inputs s (.wait :: s.inputs)).trans (grows_runCommand (by exact hs) hr)
  | moved => exact grows_advance _ _ s
  | ran hs hr => exact grows_runCommand hs hr
  | nothing => exact .refl s
  | clk => exact grows_sameRun (sameRun_aside s _ _ _ _ _ _) rfl rfl rfl
  | resetAssert => exact absurd rfl hi
  | resetRelease => exact grows_sameRun (sameRun_aside s _ _ _ _ _ _) rfl rfl rfl

/-- A step lets the trace grow, or it is the block reset of a state that differs in the pending inputs only. -/
theorem step_grows_or_resets {s t : State} (h : step s = .next t) :
    Grows s t ∨ ∃ rest u, s.inputs = .resetAssert :: rest ∧ Grows s u ∧ t = u.blockReset := by
  rcases step_cases h with ⟨-, -, rfl⟩ | ⟨-, hs, hr⟩ | ⟨i, rest, hi, hv⟩
  · exact .inl (.refl _)
  · exact .inl (grows_runCommand hs hr)
  · by_cases hres : i = .resetAssert
    · subst hres
      cases hv
      exact .inr ⟨rest, _, hi, grows_inputs s rest, rfl⟩
    · exact .inl ((grows_inputs s rest).trans (grows_served hv hres))

theorem exists_append_of_prefix {l m : List Event} (h : l <+: m) : ∃ es, m = l ++ es := h.imp fun _ => Eq.symm

/-- Settles O39: a step lets the traces grow, or it is a block reset, which first moves the trace inside the run to
`earlier`. -/
theorem traceOnlyGrows : Obligations.TraceOnlyGrows := by
  intro s t h
  rcases step_grows_or_resets h with hg | ⟨rest, u, hi, hg, rfl⟩
  · exact ⟨exists_append_of_prefix hg.whole, exists_append_of_prefix hg.wholeNow,
      fun _ => ⟨hg.earlier, exists_append_of_prefix hg.trace, exists_append_of_prefix hg.now⟩⟩
  · have hnow : s.earlier ++ s.traceNow <+: u.blockReset.earlier := hg.wholeNow
    have htrace : s.earlier ++ s.bus.trace <+: s.earlier ++ s.traceNow :=
      (List.prefix_append_right_inj _).mpr (trace_prefix_traceNow s)
    exact ⟨exists_append_of_prefix ((htrace.trans hnow).trans (List.prefix_append _ _)),
      exists_append_of_prefix (hnow.trans (List.prefix_append _ _)), fun hne => absurd hi (hne rest)⟩

end Sys2Proof.Machine

namespace Sys2Proof.Machine

/-! ### A wait that times out (41_refresh_fsm.md R167, 60_exceptions.md R214) -/

/-- `t` is what a command that sent `es` in `s` leaves when its wait of `T` ms times out. -/
structure TimedOut (es : List Event) (T : Nat) (s t : State) : Prop where
  completes : Completes .hardwareTimeout s.flags s t
  session : t.session = ⟨.fault, s.session.xportOpen, false, 0#16⟩
  bus : t.bus = ⟨restAfter s.bus.lines es, s.bus.trace ++ es ++ [.wait T .timeout]⟩
  bytes : SameBytes s t
  regs : t.regs = s.regs
  panel : t.panel = s.panel.afterWait

theorem timedOut_enterFault {s : State} {T : Nat} (hw : s.waitResult T = .timeout) (es : List Event) :
    TimedOut es T s ((((s.emit es).waitIdle T).enter .fault).finish .hardwareTimeout) where
  completes := completes_of_transport .hardwareTimeout s _ _ _
  session := rfl
  bus := by simp [hw]
  bytes _ := rfl
  regs := rfl
  panel := rfl

theorem timedOut_waitThen {s : State} {T : Nat} (hw : s.waitResult T = .timeout) (es : List Event)
    (go : State → State) : TimedOut es T s ((s.emit es).waitThen T go) :=
  waitThen_timeout (s := s.emit es) hw go ▸ timedOut_enterFault hw es

/-- The session a timeout leaves while the transport is open. -/
theorem TimedOut.session_of_open {es : List Event} {T : Nat} {s t : State} (h : TimedOut es T s t)
    (ho : s.session.xportOpen = true) : t.session = ⟨.fault, true, false, 0#16⟩ := ho ▸ h.session

/-! ### INIT_FULL and INIT_FAST (41_refresh_fsm.md R158, R159) -/

theorem exec_init {i : Instr} {ready : Fsm} {lut : List Byte}
    (hi : (i = .initFull ∧ ready = .readyFull ∧ lut = Config.lutFull) ∨
      (i = .initFast ∧ ready = .readyFast ∧ lut = Config.lutFast)) (s : State) :
    exec i s = .next (initWith ready lut s) := by
  rcases hi with ⟨rfl, rfl, rfl⟩ | ⟨rfl, rfl, rfl⟩ <;> rfl

section
variable (ready : Fsm) (lut : List Byte) {s : State}

theorem initWith_refused
    (hf : s.session.fsm = .readyFull ∨ s.session.fsm = .readyFast ∨ s.session.fsm = .partialActive) :
    initWith ready lut s = s.finish .invalidTransition :=
  if_neg (by rcases hf with h | h | h <;> simp [h])

variable (hf : s.session.fsm = .cold ∨ s.session.fsm = .asleep ∨ s.session.fsm = .fault)
include hf

theorem initWith_closed (ho : s.session.xportOpen = false) : initWith ready lut s = s.finish .notOpen :=
  (if_pos hf).trans (if_neg (by simp [ho]))

theorem initWith_open (ho : s.session.xportOpen = true) :
    initWith ready lut s = (s.emit (resetPulse s.snap)).waitThen s.snap.tInit.toNat fun t =>
      ((t.emit (initSeq lut)).enter ready).finish .ok :=
  (if_pos hf).trans (if_pos ho)

end

/-- Settles O29: by the FSM state, the transport and the outcome of the wait. -/
theorem initLoadsTheLut : Obligations.InitLoadsTheLut := by
  refine ⟨by decide, by decide, fun s i ready lut hi => ?_⟩
  rw [exec_init hi]
  refine ⟨fun hf => congrArg _ (initWith_refused ready lut hf), fun hf => ⟨fun ho => ?_, fun ho hw => ?_,
    fun ho hw => ?_⟩⟩
  · rw [initWith_closed ready lut hf ho]
  · refine ⟨_, rfl, ?_⟩
    rw [initWith_open ready lut hf ho, waitThen_idle (by exact hw)]
    refine ⟨completes_of_transport .ok s _ _ _, congrArg (Session.mk ready · false 0#16) ho, ?_, fun _ => rfl, rfl, rfl⟩
    simp [hw, initSeq_eq, restAfter_initEvents, resetPulse, Event.rest]
  · rw [initWith_open ready lut hf ho]
    have ht := timedOut_waitThen hw (resetPulse s.snap) fun t => ((t.emit (initSeq lut)).enter ready).finish .ok
    exact ⟨_, rfl, ht.completes, ht.session_of_open ho, ht.bus.trans (by rw [List.append_assoc]; rfl), ht.bytes,
      ht.regs, ht.panel⟩

/-! ### COMMIT_BASE (41_refresh_fsm.md R160) -/

theorem isBase_baseStart_add {i : Nat} (hi : i < 4000) : isBase (baseStart + i) = true := by
  rw [isBase_iff, baseStart]
  omega

/-- COMMIT_BASE with its checks passed. -/
theorem exec_commitBase_open {s : State} (hf : s.session.fsm = .readyFull) (ho : s.session.xportOpen = true) :
    exec .commitBase s = .next
      ((((s.emit (fullBankEvents (Config.pcmd .wro) s ++ fullBankEvents (Config.pcmd .wrn) s)).setBytes baseStart
        ((List.range Config.fbBytes).map s.fb)).setSession ⟨.partialActive, true, true, 0#16⟩).finish .ok) := by
  simp only [exec, execCommitBase, hf, ho, writeBank_full, ne_eq, not_true_eq_false, Bool.true_eq_false, if_false]

/-- Settles O30: by the two checks; the bytes by the copy of all of FB. -/
theorem commitBaseCopiesFbToBase : Obligations.CommitBaseCopiesFbToBase := by
  refine ⟨by decide, fun s => ⟨fun hf => if_pos hf, fun hf ho => (if_neg (not_not.mpr hf)).trans (if_pos ho),
    fun hf ho => ?_⟩⟩
  refine ⟨_, exec_commitBase_open hf ho, by constructor <;> simp, rfl, ?_, fun i hi => ?_,
    fun a ha => ?_, by simp, by simp⟩
  · simp only [State.finish_bus, State.setSession_bus, State.setBytes_bus, State.emit_bus, restAfter_append,
      restAfter_fullBankEvents, List.append_assoc]
  · rw [State.base, State.finish_byteAt, State.setSession_byteAt, byteAt_copyAll, if_pos (isBase_baseStart_add hi),
      Nat.add_sub_cancel_left]
  · rw [State.finish_byteAt, State.setSession_byteAt, byteAt_copyAll, if_neg (by simp [ha]), State.emit_byteAt]

/-! ### DISPLAY_FULL and DISPLAY_FAST (41_refresh_fsm.md R161, R162) -/

theorem exec_display {s : State} {i : Instr} {ready : Fsm} {m : Config.DataRole} {T : Nat}
    (hi : (i = .displayFull ∧ ready = .readyFull ∧ m = .updFull ∧ T = s.snap.tFull.toNat) ∨
      (i = .displayFast ∧ ready = .readyFast ∧ m = .updFast ∧ T = s.snap.tFast.toNat)) :
    exec i s = .next (displayWith ready m T s) := by
  rcases hi with ⟨rfl, rfl, rfl, rfl⟩ | ⟨rfl, rfl, rfl, rfl⟩ <;> rfl

theorem displayWith_open {s : State} {ready : Fsm} (hf : s.session.fsm = ready) (ho : s.session.xportOpen = true)
    (m : Config.DataRole) (T : Nat) : displayWith ready m T s =
      (s.emit (fullBankEvents (Config.pcmd .wrn) s ++ (issued (Config.pcmd .upd) (Config.pcmdData m) ++
        [.xact false [Config.pcmd .act]]))).waitThen T (·.finish .ok) := by
  rw [← writeBank_full, ← trigger_eq]
  exact (if_neg (not_not.mpr hf)).trans (if_neg (by simp [ho]))

/-- EPD_DC after a trigger is at the level of its last transaction, the activation command. -/
theorem restAfter_activation (l : Lines) (es : List Event) (c b : Byte) (d : List Byte) :
    restAfter l (es ++ (issued c d ++ [.xact false [b]])) = { restAfter l es with dc := .low } := by
  simp only [restAfter_append, restAfter_issued, restAfter_cons, restAfter_nil, Event.rest, dcLevel, Bool.false_eq_true,
    if_false]

/-- Settles O31: by the two checks and the outcome of the wait. -/
theorem displayWritesTheNewBankAndTriggers : Obligations.DisplayWritesTheNewBankAndTriggers := by
  refine ⟨by decide, by decide, fun s i ready m T hi => ?_⟩
  rw [exec_display hi]
  refine ⟨fun hf => congrArg _ (if_pos hf), fun hf ho => congrArg _ ((if_neg (not_not.mpr hf)).trans (if_pos ho)),
    fun hf ho r hw => ⟨_, rfl, ?_⟩⟩
  rw [displayWith_open hf ho]
  cases r with
  | idle =>
    rw [waitThen_idle (by exact hw)]
    refine ⟨completes_of_transport .ok s _ _ _, rfl, ?_, fun _ => rfl, rfl, rfl⟩
    simp [hw, restAfter_activation, restAfter_fullBankEvents]
  | timeout =>
    have ht := timedOut_waitThen hw (fullBankEvents (Config.pcmd .wrn) s ++
      (issued (Config.pcmd .upd) (Config.pcmdData m) ++ [.xact false [Config.pcmd .act]])) (·.finish .ok)
    refine ⟨ht.completes, ht.session_of_open ho, ht.bus.trans ?_, ht.bytes, ht.regs, ht.panel⟩
    simp [restAfter_activation, restAfter_fullBankEvents]

/-! ### SLEEP (41_refresh_fsm.md R166) -/

/-- Settles O33: by the two checks. -/
theorem sleepPutsThePanelToSleep : Obligations.SleepPutsThePanelToSleep := by
  refine ⟨by decide, fun s => ⟨fun hf => if_neg (by rcases hf with h | h | h <;> simp [h]),
    fun hf => ⟨fun ho => ?_, fun ho => ?_⟩⟩⟩
  · exact (if_pos hf).trans (if_neg (by simp [ho]))
  · refine ⟨_, (if_pos hf).trans (if_pos ho), completes_of_transport .ok s _ _ _,
      congrArg (Session.mk .asleep · false 0#16) ho, ?_, fun _ => rfl, rfl, rfl⟩
    simp only [State.finish_bus, State.enter_bus, State.emit_bus, deepSleep, issuePanel_eq, restAfter_issued]

/-! ### DISPLAY_PARTIAL (41_refresh_fsm.md R163 to R165) -/

theorem fsmTable_displayPartial_eq_none_iff {o : Bool} {f : Fsm} :
    fsmTable .displayPartial o f = none ↔ f ≠ .partialActive := by
  cases f <;> simp [fsmTable]

/-- What DISPLAY_PARTIAL sends before its wait, as the rules write it. -/
theorem beforeWait_displayPartial {s : State} (hc : FirstCheck .displayPartial s .ok) :
    beforeWait .displayPartial s = partialEvents s.pt0.1 s.pt0.2 s.lowArg1 s.highArg1 s :=
  writeBank_window (validWindow_of_passed hc) s

/-- DISPLAY_PARTIAL with its checks passed, with the traffic as the rules write it. -/
theorem exec_displayPartial_passed {s : State} (hc : FirstCheck .displayPartial s .ok) :
    exec .displayPartial s = .next ((s.emit (partialEvents s.pt0.1 s.pt0.2 s.lowArg1 s.highArg1 s)).waitThen
      s.snap.tPartial.toNat (afterIdle .displayPartial s)) :=
  beforeWait_displayPartial hc ▸ exec_wait rfl hc

/-- The checks of DISPLAY_PARTIAL in PARTIAL_ACTIVE with the transport open that are left to pass (R163, R165). -/
theorem passed_displayPartial {s : State} (hf : s.session.fsm = .partialActive) (ho : s.session.xportOpen = true)
    (hv : ValidWindow s.pt0.1 s.pt0.2 s.lowArg1 s.highArg1)
    (hl : s.snap.plimit = 0#16 ∨ s.session.pcount < s.snap.plimit) : FirstCheck .displayPartial s .ok := by
  refine .passed (mt fsmTable_displayPartial_eq_none_iff.mp (not_not.mpr hf)) (fun _ => ho) (not_not.mpr hv) ?_ nofun
  rintro ⟨-, h0, hle⟩
  exact hl.elim h0 fun hlt => absurd hlt (Nat.not_lt.mpr hle)

/-- What DISPLAY_PARTIAL leaves after a wait that ended Idle. -/
structure UpdatesWindow (X Y : Int) (Wd Ht : Nat) (s t : State) : Prop where
  completes : Completes .ok s.flags s t
  session : t.session = { s.session with pcount := countPartial s.session.pcount }
  bus : t.bus = ⟨{ s.bus.lines with dc := .low },
    s.bus.trace ++ partialEvents X Y Wd Ht s ++ [Event.wait s.snap.tPartial.toNat .idle]⟩
  base : ∀ i < 4000, (inWindow X Y Wd Ht i → t.base i = s.fb i) ∧ (¬ inWindow X Y Wd Ht i → t.base i = s.base i)
  others : ∀ a, isBase a = false → t.byteAt a = s.byteAt a
  regs : t.regs = s.regs
  panel : t.panel = s.panel.afterWait

theorem updatesWindow_afterIdle {s : State} (hv : ValidWindow s.pt0.1 s.pt0.2 s.lowArg1 s.highArg1)
    (hw : s.waitResult s.snap.tPartial.toNat = .idle) :
    UpdatesWindow s.pt0.1 s.pt0.2 s.lowArg1 s.highArg1 s (afterIdle .displayPartial s
      ((s.emit (partialEvents s.pt0.1 s.pt0.2 s.lowArg1 s.highArg1 s)).waitIdle s.snap.tPartial.toNat)) where
  completes := by constructor <;> simp [afterIdle]
  session := by simp [afterIdle]
  bus := by simp [afterIdle, hw, restAfter_partialEvents]
  base _ hi := base_commitWindow hv s ((s.emit _).waitIdle _) hi
  others _ ha := byteAt_commitWindow_of_not_base hv s ((s.emit _).waitIdle _) ha
  regs := by simp [afterIdle]
  panel := by simp [afterIdle]

/-- Settles O32: by the checks in their order and the outcome of the wait. -/
theorem displayPartialUpdatesTheWindow : Obligations.DisplayPartialUpdatesTheWindow := by
  refine ⟨by decide, fun s X Y Wd Ht hxy hwd hht => ?_⟩
  obtain ⟨rfl, rfl⟩ : s.pt0.1 = X ∧ s.pt0.2 = Y := by simp [hxy]
  subst hwd hht
  have htable (hf : s.session.fsm = .partialActive) :
      fsmTable .displayPartial s.session.xportOpen s.session.fsm ≠ none :=
    mt fsmTable_displayPartial_eq_none_iff.mp (not_not.mpr hf)
  refine ⟨fun hf => ?_, fun hf ho => ?_, fun hf ho => ⟨fun hv => ?_, fun hv h0 hle => ?_, fun hv hl r hw => ?_⟩⟩
  · exact exec_of_failed (.invalidTransition (fsmTable_displayPartial_eq_none_iff.mpr hf)) nofun
  · exact exec_of_failed (.notOpen (htable hf) rfl ho) nofun
  · exact exec_of_failed (.invalidArgument (htable hf) (fun _ => ho) hv) nofun
  · exact exec_of_failed (.partialLimit (htable hf) (fun _ => ho) (not_not.mpr hv) ⟨rfl, h0, hle⟩) nofun
  · refine ⟨_, exec_displayPartial_passed (passed_displayPartial hf ho hv hl), ?_⟩
    cases r with
    | idle =>
      rw [waitThen_idle (by exact hw)]
      have hu := updatesWindow_afterIdle hv hw
      refine ⟨hu.completes, hu.bus, fun _ => ⟨hu.session.trans ?_, hu.base, hu.others⟩, nofun, hu.regs, hu.panel⟩
      unfold countPartial
      split_ifs with h <;> simp [h]
    | timeout =>
      have ht := timedOut_waitThen hw (partialEvents s.pt0.1 s.pt0.2 s.lowArg1 s.highArg1 s)
        (afterIdle .displayPartial s)
      exact ⟨ht.completes, ht.bus.trans (by rw [restAfter_partialEvents]), nofun,
        fun _ => ⟨ht.session_of_open ho, ht.bytes⟩, ht.regs, ht.panel⟩

end Sys2Proof.Machine

namespace Sys2Proof.Machine

/-! ### The completion code and the transition table (41_refresh_fsm.md R150) -/

/-- A check before the wait fails with no timeout, and with INVALID_TRANSITION exactly where the table has no entry. -/
theorem FirstCheck.code {i : Instr} {s : State} {c : Code} (h : FirstCheck i s c) :
    c ≠ .hardwareTimeout ∧ (fsmTable i s.session.xportOpen s.session.fsm = none ↔ c = .invalidTransition) := by
  cases h with
  | resourceUnavailable hi => subst hi; exact ⟨nofun, by simp [fsmTable]⟩
  | invalidTransition hf => exact ⟨nofun, by simp [hf]⟩
  | notOpen hf | invalidArgument hf | partialLimit hf | passed hf => exact ⟨nofun, by simp [hf]⟩

/-- A command that completes OK has passed its checks. -/
theorem firstCheck_of_ok {i : Instr} {s t : State} (h : exec i s = .next t) (hc : t.flags.lastCode = .ok) :
    FirstCheck i s .ok := by
  obtain ⟨c, hfc⟩ := firstCheck_total i s
  by_cases hok : c = .ok
  · exact hok ▸ hfc
  · rw [exec_of_failed hfc hok] at h
    obtain rfl := Host.Outcome.next.inj h
    exact absurd hc hok

/-- A drawing command stays in the FSM state. -/
theorem fsmTable_shape {i : Instr} (hi : isShape i = true) (o : Bool) (f : Fsm) : fsmTable i o f = some f := by
  cases i <;> simp only [isShape, Bool.false_eq_true] at hi <;> rfl

/-- CLOSE of an open transport leaves the table's state. -/
theorem fsmTable_closeSleep (s : State) :
    fsmTable .closeBus true s.session.fsm = some (closeSleep s).1.session.fsm := by
  unfold closeSleep
  split <;> rename_i hf <;> simp [fsmTable, hf]

/-- RAW_RESET leaves FAULT as it is and every other state for COLD. -/
theorem fsmTable_rawReset (o : Bool) (f : Fsm) :
    fsmTable .rawReset o f = some (if f = .fault then .fault else .cold) := by
  cases f <;> rfl

/-- After a wait that ended Idle the command completes OK in the table's state. -/
theorem afterIdle_fsm {i : Instr} {s u : State} (hi : hasWait i = true) (hc : FirstCheck i s .ok)
    (hu : u.session = s.session) :
    fsmTable i s.session.xportOpen s.session.fsm = some (afterIdle i s u).session.fsm := by
  obtain _ | _ | _ | _ | _ | ⟨hf, -⟩ := hc
  cases i <;> simp only [hasWait, Bool.false_eq_true] at hi
  case rawWaitIdle => exact congrArg (some ·.fsm) hu.symm
  all_goals
    revert hf
    cases hs : s.session.fsm <;> simp [fsmTable, afterIdle, hu, hs]

theorem afterIdle_lastCode (i : Instr) (s u : State) : (afterIdle i s u).flags.lastCode = .ok := by
  cases i <;> rfl

/-- The three ways a command can end, by its code: a check failed, every check passed and the table's state is left, or
its wait timed out. -/
theorem ran_by_code {i : Instr} {s t : State} (h : Ran i s t) :
    (∃ c, FirstCheck i s c ∧ c ≠ .ok ∧ t = s.finish c) ∨
    (t.flags.lastCode = .ok ∧ fsmTable i s.session.xportOpen s.session.fsm = some t.session.fsm) ∨
    (hasWait i = true ∧ FirstCheck i s .ok ∧ t.flags.lastCode = .hardwareTimeout ∧
      TimedOut (beforeWait i s) (waitBound i s) s t) := by
  cases h
  case failed c hok hc => exact .inl ⟨c, hc, hok, rfl⟩
  case timedOut hi ho hc hw => exact .inr (.inr ⟨hi, hc, rfl, timedOut_enterFault hw _⟩)
  all_goals refine .inr (.inl ?_)
  case quiet hi =>
    rcases hi with rfl | ⟨rfl, ho⟩
    · exact ⟨rfl, rfl⟩
    · refine ⟨rfl, ?_⟩
      rw [ho]
      cases hs : s.session.fsm <;> simp [fsmTable, hs]
  case closed ho => exact ⟨rfl, ho ▸ fsmTable_closeSleep s⟩
  case pulsed =>
    refine ⟨rfl, (fsmTable_rawReset _ _).trans ?_⟩
    split_ifs with hf
    · exact congrArg some hf.symm
    · rfl
  case rawCmd hf ho => exact ⟨rfl, by simp [fsmTable, hf]⟩
  case rawData hf ho _ _ => exact ⟨rfl, by simp [fsmTable, hf]⟩
  case committed hf ho => exact ⟨rfl, by simp [fsmTable, hf]⟩
  case slept hf ho => exact ⟨rfl, by rcases hf with hf | hf | hf <;> simp [fsmTable, hf]⟩
  case waited hi ho hc hw => exact ⟨afterIdle_lastCode _ _ _, afterIdle_fsm hi hc rfl⟩
  case drew hi hb =>
    rw [drawShape_eq]
    exact ⟨rfl, fsmTable_shape hi _ _⟩
  all_goals exact ⟨rfl, rfl⟩

/-- Settles O34: by the three ways a command can end. -/
theorem fsmMovesOnlyByTheTable : Obligations.FsmMovesOnlyByTheTable := by
  intro i s t h
  rcases ran_by_code (ran_of_exec h) with ⟨c, hc, hok, rfl⟩ | ⟨hcode, htab⟩ | ⟨hi, hc, hcode, ht⟩
  · obtain ⟨hne, hnone⟩ := hc.code
    exact ⟨hnone, fun hcode => congrArg s.finish hcode, fun h => absurd h hok, fun h => absurd h hne, fun _ _ => rfl⟩
  · simp [hcode, htab]
  · obtain _ | _ | _ | _ | _ | ⟨hf, -⟩ := hc
    simp [hcode, hf, hi, ht.session]

/-! ### The waits on the trace (41_refresh_fsm.md R167, 60_exceptions.md R214, R215) -/

@[simp] theorem isWait_wait (T : Nat) (r : WaitOutcome) : (Event.wait T r).isWait = true := rfl
@[simp] theorem isWait_release : Event.release.isWait = false := rfl

@[simp] theorem waits_writeCommand (b : Byte) : (writeCommand b).filter Event.isWait = [] := rfl

@[simp] theorem waits_writeData (bs : List Byte) : (writeData bs).filter Event.isWait = [] := by
  unfold writeData; split_ifs <;> rfl

@[simp] theorem waits_issuePanel (c : Byte) (d : List Byte) : (issuePanel c d).filter Event.isWait = [] := by
  simp [issuePanel]

@[simp] theorem waits_resetPulse (p : Snap) : (resetPulse p).filter Event.isWait = [] := rfl

@[simp] theorem waits_writeBank (c : Byte) (w : Window) (s : State) : (writeBank c w s).filter Event.isWait = [] := by
  simp [writeBank, setWindow]

@[simp] theorem waits_trigger (m : Config.DataRole) : (trigger m).filter Event.isWait = [] := by simp [trigger]

@[simp] theorem waits_initSeq (lut : List Byte) : (initSeq lut).filter Event.isWait = [] := by simp [initSeq]

@[simp] theorem waits_beforeWait (i : Instr) (s : State) : (beforeWait i s).filter Event.isWait = [] := by
  cases i <;> simp [beforeWait]

/-- No wait comes after a wait that ended Idle. -/
theorem afterIdle_waits {i : Instr} (hi : hasWait i = true) (s u : State) :
    ∃ es, (afterIdle i s u).bus.trace = u.bus.trace ++ es ∧ es.filter Event.isWait = [] := by
  cases i <;> simp only [hasWait, Bool.false_eq_true] at hi
  case initFull => exact ⟨_, rfl, waits_initSeq _⟩
  case initFast => exact ⟨_, rfl, waits_initSeq _⟩
  all_goals exact ⟨[], by simp [afterIdle], rfl⟩

/-- CLOSE waits for nothing. -/
theorem closeSleep_waits (s : State) :
    ∃ es, (closeSleep s).1.bus.trace = s.bus.trace ++ es ∧ es.filter Event.isWait = [] := by
  unfold closeSleep
  split
  case h_1 | h_2 | h_3 => exact ⟨deepSleep, rfl, waits_issuePanel _ _⟩
  all_goals exact ⟨[], (List.append_nil _).symm, rfl⟩

/-- The waits of a command that completes with a code other than HARDWARE_TIMEOUT ended Idle. -/
theorem ran_waits_idle {i : Instr} {s t : State} (h : Ran i s t) (hcode : t.flags.lastCode ≠ .hardwareTimeout) :
    ∃ es, t.bus.trace = s.bus.trace ++ es ∧
      (es.filter Event.isWait = [] ∨ es.filter Event.isWait = [.wait (waitBound i s) .idle]) := by
  cases h
  case timedOut => exact absurd rfl hcode
  case waited hi ho hc hw =>
    obtain ⟨es, h1, h2⟩ := afterIdle_waits hi s ((s.emit (beforeWait i s)).waitIdle (waitBound i s))
    exact ⟨beforeWait i s ++ [.wait (waitBound i s) .idle] ++ es, by simp [h1, hw],
      .inr (by simp [List.filter_cons, h2])⟩
  all_goals refine Exists.imp (fun _ => And.imp_right .inl) ?_
  case opened => exact ⟨[.drive], rfl, rfl⟩
  case closed =>
    obtain ⟨es, h1, h2⟩ := closeSleep_waits s
    exact ⟨es ++ [.release], by simp [h1], by simp [h2]⟩
  case pulsed => exact ⟨resetPulse s.snap, by split_ifs <;> rfl, rfl⟩
  case rawCmd => exact ⟨_, rfl, waits_writeCommand _⟩
  case rawData => exact ⟨_, rfl, waits_writeData _⟩
  case committed =>
    exact ⟨writeBank (Config.pcmd .wro) .full s ++ writeBank (Config.pcmd .wrn) .full s, by simp, by simp⟩
  case slept => exact ⟨_, rfl, waits_issuePanel _ _⟩
  case drew => rw [drawShape_eq]; exact ⟨[], (List.append_nil _).symm, rfl⟩
  all_goals exact ⟨[], (List.append_nil _).symm, rfl⟩

/-- Settles O36: a timeout leaves what `TimedOut` says, and its wait is the only one; with any other code every wait
ended Idle. -/
theorem timeoutEntersFaultAndSendsNothingMore : Obligations.TimeoutEntersFaultAndSendsNothingMore := by
  intro i s t h
  have hr := ran_of_exec h
  refine ⟨fun hcode => ?_, fun es T htr hmem => ?_⟩
  · rcases ran_by_code hr with ⟨c, hc, -, rfl⟩ | ⟨hok, -⟩ | ⟨-, -, -, ht⟩
    · exact absurd hcode hc.code.1
    · exact absurd (hok.symm.trans hcode) nofun
    · refine ⟨ht.session, ht.bytes, ht.regs, beforeWait i s, waitBound i s, congrArg Bus.trace ht.bus, fun T' hT' => ?_⟩
      have hw : Event.wait T' .timeout ∈ (beforeWait i s).filter Event.isWait := List.mem_filter.mpr ⟨hT', rfl⟩
      simp at hw
  · by_contra hcode
    obtain ⟨fs, hfs, hidle⟩ := ran_waits_idle hr hcode
    obtain rfl : es = fs := List.append_cancel_left (htr.symm.trans hfs)
    have hw : Event.wait T .timeout ∈ es.filter Event.isWait := List.mem_filter.mpr ⟨hmem, rfl⟩
    rcases hidle with h | h <;> simp [h] at hw

end Sys2Proof.Machine

namespace Sys2Proof.Machine

/-! ### Host accesses between two commands (20_memory.md R64, R73) -/

theorem isStored_baseStart_add {i : Nat} (hi : i < 4000) : isStored (baseStart + i) = false := by
  rw [← Bool.not_eq_true, isStored_iff, isFb_iff, isGlyph_iff, baseStart]
  omega

/-- No host access writes BASE (R64). -/
theorem hostAccess_base (a : Access) (s : State) {i : Nat} (hi : i < 4000) : (s.hostAccess a).base i = s.base i := by
  rcases hostAccess_cases a s with h | ⟨off, w, r, -, -, -, h⟩ | ⟨off, n, w, -, -, -, h⟩ <;> rw [h]
  · rfl
  · rcases writeReg_cases w s r with ⟨-, -, h'⟩ | ⟨h', -⟩ <;> rw [h'] <;> rfl
  · rcases writeBytes_cases off.toNat n w s with ⟨-, -, h'⟩ | ⟨-, h'⟩ <;> rw [h']
    · rfl
    · exact (byteAt_storeBytes off.toNat n w s (baseStart + i)).trans (if_neg (by simp [isStored_baseStart_add hi]))

/-- The session, the bus and BASE are the controller's alone: the host's accesses leave them. -/
theorem hostAccesses_keep (as : List Access) (s : State) :
    (as.foldl (fun u a => u.hostAccess a) s).session = s.session ∧
      (as.foldl (fun u a => u.hostAccess a) s).bus = s.bus ∧
      ∀ i < 4000, (as.foldl (fun u a => u.hostAccess a) s).base i = s.base i := by
  induction as generalizing s with
  | nil => exact ⟨rfl, rfl, fun _ _ => rfl⟩
  | cons a as ih =>
    obtain ⟨hsession, hbus, hbase⟩ := ih (s.hostAccess a)
    obtain ⟨hsession', hbus'⟩ := hostAccess_session_bus a s
    exact ⟨hsession.trans hsession', hbus.trans hbus', fun i hi => (hbase i hi).trans (hostAccess_base a s hi)⟩

/-! ### Commands with a wait that complete OK -/

/-- A command with a wait that completes OK has found the transport open, and its wait ended Idle. -/
theorem afterIdle_of_ok {i : Instr} {s t : State} (hi : hasWait i = true) (h : exec i s = .next t)
    (hok : t.flags.lastCode = .ok) : s.session.xportOpen = true ∧ s.waitResult (waitBound i s) = .idle ∧
      t = afterIdle i s ((s.emit (beforeWait i s)).waitIdle (waitBound i s)) := by
  cases ran_of_exec h with
  | waited _ _ ho hw => exact ⟨ho, hw, rfl⟩
  | timedOut => exact absurd hok nofun
  | failed _ hne => exact absurd hok hne
  | drew hs => cases i <;> simp [hasWait, isShape] at hi hs
  | quiet hq => rcases hq with rfl | ⟨rfl, -⟩ <;> exact absurd hi (by decide)
  | _ => exact absurd hi nofun

/-- An INIT_FULL that completes OK leaves READY_FULL with the transport open (41_refresh_fsm.md R158). -/
theorem session_of_initFull_ok {s t : State} (h : exec .initFull s = .next t) (hok : t.flags.lastCode = .ok) :
    t.session = ⟨.readyFull, true, false, 0#16⟩ := by
  obtain ⟨ho, -, rfl⟩ := afterIdle_of_ok rfl h hok
  exact congrArg (Session.mk .readyFull · false 0#16) ho

/-- A DISPLAY_PARTIAL that completes OK has updated its window. -/
theorem updatesWindow_of_ok {s t : State} (h : exec .displayPartial s = .next t) (hok : t.flags.lastCode = .ok) :
    UpdatesWindow s.pt0.1 s.pt0.2 s.lowArg1 s.highArg1 s t := by
  have hc := firstCheck_of_ok h hok
  obtain ⟨-, hw, rfl⟩ := afterIdle_of_ok rfl h hok
  rw [beforeWait_displayPartial hc]
  exact updatesWindow_afterIdle (validWindow_of_passed hc) hw

/-! ### The refresh scenario (41_refresh_fsm.md R169) -/

/-- Settles O52: COMMIT_BASE makes BASE F1, the host cannot write BASE, and DISPLAY_PARTIAL writes F2 into the window
only. -/
theorem partialUpdateScenarioKeepsF1Outside : Obligations.PartialUpdateScenarioKeepsF1Outside := by
  intro s0 s1 f1 s2 f2 s3 as bs X Y Wd Ht hinit hok hf1 hcommit hf2 hpart hok3 hxy hwd hht
  obtain ⟨rfl, rfl⟩ : f2.pt0.1 = X ∧ f2.pt0.2 = Y := by simp [hxy]
  subst hwd hht
  obtain ⟨hsession1, -, -⟩ := hf1 ▸ hostAccesses_keep as s1
  have hready := hsession1.trans (session_of_initFull_ok hinit hok)
  obtain ⟨-, hcommits⟩ := commitBaseCopiesFbToBase
  obtain ⟨-, -, hpassed⟩ := hcommits f1
  obtain ⟨t, ht, hdone, -, hbus2, hbase2, -⟩ := hpassed (by rw [hready]) (by rw [hready])
  obtain rfl : s2 = t := Host.Outcome.next.inj (hcommit.symm.trans ht)
  obtain ⟨-, hbus, hbase⟩ := hf2 ▸ hostAccesses_keep bs s2
  have hu := updatesWindow_of_ok hpart hok3
  refine ⟨congrArg Flags.lastCode hdone.flags, fun i hi => ?_, ?_⟩
  · obtain ⟨hin, hout⟩ := hu.base i hi
    exact ⟨hin, fun hw => (hout hw).trans ((hbase i hi).trans (hbase2 i hi))⟩
  · rw [hu.bus, hbus, hbus2]

end Sys2Proof.Machine

namespace Sys2Proof.Machine

/-! ### Points of the frame and the bytes they own (20_memory.md R76 to R82) -/

/-- The frame in numbers. -/
theorem sees_iff_numbers {s : State} {p : Point} : s.sees p = true ↔
    0 ≤ p.1 ∧ p.1 < (if s.snap.orient then 250 else 122) ∧ 0 ≤ p.2 ∧ p.2 < (if s.snap.orient then 122 else 250) := by
  rw [sees_iff]
  cases s.snap.orient <;> exact Iff.rfl

theorem sees_congr {s t : State} (h : t.snap.orient = s.snap.orient) (p : Point) : t.sees p = s.sees p := by
  rw [State.sees, State.sees, h]

theorem native_congr_orient {s t : State} (h : t.snap.orient = s.snap.orient) (p : Point) :
    t.native p = s.native p := by
  rw [State.native, State.native, h]

/-- The native pixel in numbers (R80). -/
theorem native_eq_of_numbers {s : State} {p : Point} (hp : s.sees p = true) {xn yn : Nat}
    (hx : (xn : Int) = if s.snap.orient then 121 - p.2 else p.1) (hy : (yn : Int) = if s.snap.orient then p.1 else p.2) :
    s.native p = (xn, yn) := by
  rw [sees_iff_numbers] at hp
  simp only [State.native, nativeOf, Config.rotSense, Config.nativeW]
  by_cases h : s.snap.orient = true <;> simp only [h, if_true, if_false, Bool.false_eq_true] at hp hx hy ⊢
  · exact Prod.ext (by dsimp only; omega) (by dsimp only; omega)
  · exact Prod.ext (by dsimp only; omega) (by dsimp only; omega)

/-- `plot` in the frame writes its byte of FB and no other. -/
theorem fb_plot {s : State} {p : Point} (hp : s.sees p = true) (w : Bool) (k : Nat) :
    (s.plot w p).fb k = if k = pixelIndex (s.native p) then setPixelBit w (pixelMask (s.native p)) (s.fb k) else s.fb k := by
  rw [plot_in hp, State.fb, byteAt_setByte]
  by_cases hk : k = pixelIndex (s.native p)
  · rw [hk, if_pos rfl, if_pos rfl, State.fb]
  · rw [if_neg hk, if_neg (by omega), State.fb]

/-- Points outside the frame are not drawn. -/
theorem plotAll_out {s : State} {ps : List Point} (h : ∀ p ∈ ps, s.sees p = false) (w : Bool) : s.plotAll w ps = s := by
  induction ps with
  | nil => rfl
  | cons p ps ih =>
    rw [plotAll_cons, plot_out (h p List.mem_cons_self)]
    exact ih fun q hq => h q (List.mem_cons_of_mem p hq)

theorem drawShape_byteAt (w : Bool) (ps : List Point) (s : State) (a : Nat) :
    (drawShape w ps s).byteAt a = (s.plotAll w ps).byteAt a := rfl

theorem drawShape_fb (w : Bool) (ps : List Point) (s : State) (k : Nat) :
    (drawShape w ps s).fb k = (s.plotAll w ps).fb k := rfl

theorem drawShape_snap (w : Bool) (ps : List Point) (s : State) : (drawShape w ps s).snap = s.snap := by
  rw [drawShape_eq, State.finish_snap]

theorem pixelBit_drawShape (w : Bool) (ps : List Point) {s : State} {q : Point} (hq : s.sees q = true) :
    (drawShape w ps s).pixelBit q = if q ∈ ps then w else s.pixelBit q := pixelBit_plotAll s w ps hq

/-! ### A bitmap written point by point (42_framebuffer.md R193) -/

theorem exec_getPixel (s : State) : exec .getPixel s =
    .next (State.finish .ok { s with regs := { s.regs with result := resultWord (s.getPixel? s.pt0) } }) := rfl

theorem exec_pixel (w : Bool) (s : State) : exec (.pixel w) s = .next (drawShape w [s.pt0] s) := rfl

theorem getPixel?_in {s : State} {p : Point} (h : s.sees p = true) : s.getPixel? p = some (s.pixelBit p) := if_pos h

theorem getPixel?_out {s : State} {p : Point} (h : s.sees p = false) : s.getPixel? p = none := by
  rw [State.getPixel?, h, if_neg Bool.false_ne_true]

theorem resultWord_some (b : Bool) : resultWord (some b) = if b then 1#32 else 0#32 := by cases b <;> rfl

theorem atPoint_sees (s : State) (p q : Point) : (s.atPoint p).sees q = s.sees q := rfl

theorem atPoint_pixelBit (s : State) (p q : Point) : (s.atPoint p).pixelBit q = s.pixelBit q := rfl

/-- GET_PIXEL of a point of the frame writes the pixel's bit to RESULT. -/
theorem exec_getPixel_in {s : State} (h : s.sees s.pt0 = true) :
    ∃ u, exec .getPixel s = .next u ∧ u.regs.result = if s.pixelBit s.pt0 then 1#32 else 0#32 :=
  ⟨_, exec_getPixel s, (congrArg resultWord (getPixel?_in h)).trans (resultWord_some _)⟩

/-- A point of the frame fits the signed fields of ARG0. -/
theorem atPoint_pt0 {s : State} {p : Point} (h : s.sees p = true) : (s.atPoint p).pt0 = p := by
  rw [sees_iff_numbers] at h
  have hsigned : inSigned p.1 = true ∧ inSigned p.2 = true := by
    simp only [inSigned, decide_eq_true_eq]
    split_ifs at h <;> omega
  exact pt0_of_packPair rfl hsigned.1 hsigned.2

/-- After the PIXELs a point of the list holds the bitmap's colour, and any other point of the frame what it held. -/
theorem drawBitmap_pixelBit (B : Point → Bool) {ps : List Point} {s : State} (h : ∀ p ∈ ps, s.sees p = true) :
    ∃ t, drawBitmap B ps s = .next t ∧ t.snap.orient = s.snap.orient ∧
      ∀ q, s.sees q = true → t.pixelBit q = if q ∈ ps then B q else s.pixelBit q := by
  induction ps generalizing s with
  | nil => exact ⟨s, rfl, rfl, fun q _ => (if_neg List.not_mem_nil).symm⟩
  | cons p ps ih =>
    have hp := h p List.mem_cons_self
    have horient : (drawShape (B p) [p] (s.atPoint p)).snap.orient = s.snap.orient := by rw [drawShape_snap]; rfl
    have hsees := sees_congr horient
    obtain ⟨t, ht, ho, hb⟩ := ih (s := drawShape (B p) [p] (s.atPoint p)) fun q hq => by
      rw [hsees, h q (List.mem_cons_of_mem p hq)]
    refine ⟨t, ?_, ho.trans horient, fun q hq => ?_⟩
    · rw [drawBitmap, exec_pixel, atPoint_pt0 hp]; exact ht
    · rw [hb q ((hsees q).trans hq), pixelBit_drawShape _ _ ((atPoint_sees s p q).trans hq), atPoint_pixelBit]
      by_cases hqp : q = p
      · simp [hqp]
      · simp [hqp]

/-- Settles O51: by `drawBitmap_pixelBit`, an induction over the list of points, and what GET_PIXEL reads. -/
theorem packingRoundTrip : Obligations.PackingRoundTrip := by
  intro s B ps h
  obtain ⟨t, ht, ho, hb⟩ := drawBitmap_pixelBit B fun p hp => sees_iff_numbers.mpr (h p hp)
  refine ⟨t, ht, fun p hp => ?_⟩
  have hs : s.sees p = true := sees_iff_numbers.mpr (h p hp)
  have hs' : t.sees p = true := (sees_congr ho p).trans hs
  have hpt : (t.atPoint p).pt0 = p := atPoint_pt0 hs'
  obtain ⟨u, hu, hresult⟩ := exec_getPixel_in (s := t.atPoint p) (by rw [hpt, atPoint_sees, hs'])
  refine ⟨u, hu, ?_⟩
  rw [hresult, hpt, atPoint_pixelBit, hb p hs, if_pos hp]

end Sys2Proof.Machine

namespace Sys2Proof.Machine

/-! ### The drawing commands draw their sets (42_framebuffer.md R182 to R191) -/

/-- A shape command whose operands pass draws its set (R182). -/
theorem exec_draws {i : Instr} {s : State} (hi : isShape i = true) (hb : ¬ BadArgument i s) :
    ∃ t, exec i s = .next t ∧ Completes .ok s.flags s t ∧ DrawFrame s t ∧ Draws i.color (shapeOf i s) s t :=
  ⟨_, exec_shape hi hb, drawShape_completes _ _ _, drawShape_frame _ _ _, drawShape_draws fun _ hp => mem_pointsOf hi hp⟩

theorem usesBus_shape {i : Instr} (hi : isShape i = true) : usesBus i = false := by
  cases i <;> first | rfl | cases hi

/-- A shape command with a bad operand only completes. -/
theorem exec_shape_bad {i : Instr} {s : State} (hi : isShape i = true) (hb : BadArgument i s) :
    exec i s = .next (s.finish .invalidArgument) :=
  exec_of_failed (.invalidArgument (by simp [fsmTable_shape hi]) (by simp [usesBus_shape hi]) hb) nofun

/-- Every byte of FB set to one value, and no other byte. -/
theorem byteAt_fillFb (s : State) (b : Byte) (a : Nat) :
    (s.setBytes fbStart (List.replicate Config.fbBytes b)).byteAt a = if isFb a then b else s.byteAt a := by
  rw [byteAt_setBytes, List.length_replicate, isFb]
  by_cases h : fbStart ≤ a ∧ a < fbStart + Config.fbBytes
  · rw [if_pos h, decide_eq_true h, if_pos rfl, List.getD_replicate _ (by omega)]
  · rw [if_neg h, decide_eq_false h, if_neg Bool.false_ne_true]

theorem isFb_fbStart_add {i : Nat} (h : i < 4000) : isFb (fbStart + i) = true := by
  rw [isFb_iff, fbStart]; omega

/-- The byte CLEAR fills FB with (R183). -/
def clearByte (white : Bool) : Byte := if white then 0xFF#8 else 0x00#8

theorem exec_clear (white : Bool) (s : State) : exec (.clear white) s =
    .next ((s.setBytes fbStart (List.replicate Config.fbBytes (clearByte white))).finish .ok) := rfl

/-- FB after CLEAR. -/
theorem fb_clear (white : Bool) (s : State) {i : Nat} (hi : i < 4000) :
    ((s.setBytes fbStart (List.replicate Config.fbBytes (clearByte white))).finish .ok).fb i = clearByte white := by
  rw [State.fb, State.finish_byteAt, byteAt_fillFb, if_pos (isFb_fbStart_add hi)]

/-- Settles O40: the store of all of FB, and that a second one replaces it. -/
theorem clearFillsEveryByte : Obligations.ClearFillsEveryByte := by
  refine ⟨by decide, by decide, fun white s => ⟨_, exec_clear white s, ?_, ⟨rfl, rfl, rfl, rfl⟩, ?_, ?_, ?_⟩⟩
  · exact finish_completes .ok s (s.setBytes fbStart _) rfl rfl rfl rfl rfl rfl
  · exact fun i hi => fb_clear white s hi
  · exact fun a ha => (byteAt_fillFb s _ a).trans (by rw [ha, if_neg Bool.false_ne_true])
  · exact ⟨_, exec_clear white _, putRange_putRange s.mem fbStart rfl⟩

/-- Settles O41: the one point by `exec_draws`, and in numbers by what `plot` writes in the frame and outside it. -/
theorem pixelWritesOneBit : Obligations.PixelWritesOneBit := by
  refine ⟨by decide, by decide, fun white s => ⟨_, exec_pixel white s, drawShape_completes _ _ _, drawShape_frame _ _ _,
    drawShape_draws fun _ _ => List.mem_singleton, ?_⟩⟩
  rintro X Y hpt W H rfl rfl
  rw [hpt]
  have hframe : s.sees (X, Y) = true ↔ _ := sees_iff_numbers
  refine ⟨fun hout a => ?_, fun hX hXW hY hYH xn yn hx hy => ?_⟩
  · have hs : s.sees (X, Y) = false := by rw [← Bool.not_eq_true, hframe]; exact hout
    rw [drawShape_byteAt, plotAll_out (by simpa using hs)]
  · have hs : s.sees (X, Y) = true := hframe.mpr ⟨hX, hXW, hY, hYH⟩
    have hindex : pixelIndex (s.native (X, Y)) = yn * 16 + xn / 8 := by rw [native_eq_of_numbers hs hx hy]; rfl
    have hmask : pixelMask (s.native (X, Y)) = 0x80#8 >>> (xn % 8) := by rw [native_eq_of_numbers hs hx hy]; rfl
    have hfb := fb_plot hs white
    rw [hindex, hmask] at hfb
    exact ⟨(hfb _).trans (if_pos rfl), fun k hk => (hfb k).trans (if_neg hk)⟩

/-- Settles O43: `exec_draws`, the set of LINE being the points of the walk. -/
theorem lineDrawsItsWalk : Obligations.LineDrawsItsWalk :=
  ⟨by decide, by decide, fun white _ => exec_draws (i := .line white) rfl id⟩

/-- Settles O45: `exec_draws`, the lists being cut to the frame only. -/
theorem rectanglesDrawBorderAndInside : Obligations.RectanglesDrawBorderAndInside :=
  ⟨by decide, by decide, by decide, by decide, fun white _ =>
    ⟨exec_draws (i := .rect white) rfl id, exec_draws (i := .rectf white) rfl id⟩⟩

/-- Settles O48: the check of the glyph's size, and `exec_draws` for a glyph that fits. -/
theorem blitDrawsTheInk : Obligations.BlitDrawsTheInk :=
  ⟨by decide, by decide, fun white _ =>
    ⟨exec_shape_bad (i := .blit white) rfl, fun hsize => exec_draws (i := .blit white) rfl (Nat.not_lt.mpr hsize)⟩⟩

/-- The bit of a byte, shifted down and masked, as RESULT holds it (R82, R39). -/
theorem resultWord_bit (b : Byte) (j : Nat) : resultWord (some (b.getLsbD j)) = ((b >>> j) &&& 1#8).setWidth 32 := by
  have hbit : (b >>> j).getLsbD 0 = b.getLsbD j := by rw [BitVec.getLsbD_ushiftRight, Nat.add_zero]
  rw [BitVec.and_one_eq_setWidth_ofBool_getLsbD, hbit]
  cases b.getLsbD j <;> rfl

/-- Settles O42: by whether the point lies in the frame. -/
theorem getPixelReadsOneBit : Obligations.GetPixelReadsOneBit := by
  refine ⟨by decide, ?_⟩
  rintro s X Y W H hpt rfl rfl
  have hframe : s.sees (X, Y) = true ↔ _ := sees_iff_numbers
  refine ⟨_, exec_getPixel s, ?_⟩
  rw [hpt]
  refine ⟨fun hout => ?_, fun hX hXW hY hYH xn yn hx hy => ?_⟩
  · rw [getPixel?_out (by rw [← Bool.not_eq_true, hframe]; exact hout), resultWord]
  · have hs : s.sees (X, Y) = true := hframe.mpr ⟨hX, hXW, hY, hYH⟩
    rw [getPixel?_in hs, State.pixelBit, native_eq_of_numbers hs hx hy]
    exact resultWord_bit _ _

/-- Settles O49: a glyph that does not fit draws nothing, and of any other shape no point lies in the frame. -/
theorem clippedShapeChangesNoByte : Obligations.ClippedShapeChangesNoByte := by
  intro i s hi hclip
  by_cases hb : BadArgument i s
  · exact ⟨_, exec_shape_bad hi hb, fun _ => rfl⟩
  · refine ⟨_, exec_shape hi hb, fun a => ?_⟩
    have hout : ∀ p ∈ pointsOf i s, s.sees p = false := fun p hp => by
      rw [← Bool.not_eq_true]
      exact fun hs => hclip p ((mem_pointsOf hi hs).mp hp) (sees_iff_numbers.mp hs)
    rw [drawShape_byteAt, plotAll_out hout]

end Sys2Proof.Machine

namespace Sys2Proof.Machine

/-! ### What a drawing command reads (42_framebuffer.md R180, R192) -/

/-- Two states that agree on what a drawing command may read: FB, GLYPH, the operands and the orientation. -/
structure SameDrawInputs (s u : State) : Prop where
  fb : ∀ k < 4000, u.fb k = s.fb k
  glyph : ∀ k < 512, u.glyph k = s.glyph k
  orient : u.snap.orient = s.snap.orient
  arg0 : u.snap.arg0 = s.snap.arg0
  arg1 : u.snap.arg1 = s.snap.arg1
  arg2 : u.snap.arg2 = s.snap.arg2

/-- The glyph's bytes lie in GLYPH when its size passes the check (R191). -/
theorem glyphIndex_lt {wd ht i j : Nat} (hsize : (wd + 7) / 8 * ht ≤ 512) (hi : i < wd) (hj : j < ht) :
    j * ((wd + 7) / 8) + i / 8 < 512 := by
  have hcol : i / 8 < (wd + 7) / 8 := by omega
  calc j * ((wd + 7) / 8) + i / 8 < (j + 1) * ((wd + 7) / 8) := by rw [Nat.succ_mul]; omega
    _ ≤ ht * ((wd + 7) / 8) := Nat.mul_le_mul_right _ hj
    _ ≤ 512 := by rw [Nat.mul_comm]; exact hsize

namespace SameDrawInputs

variable {s u : State}

theorem pt0 (h : SameDrawInputs s u) : u.pt0 = s.pt0 := by rw [State.pt0, State.pt0, h.arg0]

theorem pt1 (h : SameDrawInputs s u) : u.pt1 = s.pt1 := by rw [State.pt1, State.pt1, h.arg1]

theorem lowArg1 (h : SameDrawInputs s u) : u.lowArg1 = s.lowArg1 := by rw [State.lowArg1, State.lowArg1, h.arg1]

theorem highArg1 (h : SameDrawInputs s u) : u.highArg1 = s.highArg1 := by rw [State.highArg1, State.highArg1, h.arg1]

theorem lowArg2 (h : SameDrawInputs s u) : u.lowArg2 = s.lowArg2 := by rw [State.lowArg2, State.lowArg2, h.arg2]

theorem badArgument (h : SameDrawInputs s u) (i : Instr) : BadArgument i u ↔ BadArgument i s := by
  cases i <;> simp only [BadArgument, h.pt0, h.lowArg1, h.highArg1]

/-- The ink of a glyph that fits. -/
theorem inBlit (h : SameDrawInputs s u) {wd ht : Nat} (hsize : (wd + 7) / 8 * ht ≤ 512) (x top : Int) (p : Point) :
    InBlit u x top wd ht p ↔ InBlit s x top wd ht p := by
  refine exists_congr fun i => exists_congr fun j => and_congr_right fun hi => and_congr_right fun hj => ?_
  rw [h.glyph _ (glyphIndex_lt hsize hi hj)]

/-- The set a shape command draws. -/
theorem shapeOf (h : SameDrawInputs s u) {i : Instr} (hb : ¬ BadArgument i s) (p : Point) :
    Machine.shapeOf i u p ↔ Machine.shapeOf i s p := by
  cases i <;> simp only [Machine.shapeOf, h.pt0, h.pt1, h.lowArg1, h.highArg1, h.lowArg2]
  case blit => exact h.inBlit (Nat.not_lt.mp hb) _ _ p

/-- The bytes of FB after the same points of the frame are plotted. -/
theorem fb_plotAll (h : SameDrawInputs s u) {ps qs : List Point} (hps : ∀ p, s.sees p = true → (p ∈ qs ↔ p ∈ ps))
    (w : Bool) {k : Nat} (hk : k < 4000) : (u.plotAll w qs).fb k = (s.plotAll w ps).fb k := by
  apply BitVec.eq_of_getLsbD_eq
  intro j _
  have hplotted : (∃ p ∈ qs, u.sees p = true ∧ k = pixelIndex (u.native p) ∧ j = 7 - (u.native p).1 % 8) ↔
      ∃ p ∈ ps, s.sees p = true ∧ k = pixelIndex (s.native p) ∧ j = 7 - (s.native p).1 % 8 :=
    exists_congr fun p => by
      rw [sees_congr h.orient, native_congr_orient h.orient]
      exact and_congr_left fun hp => hps p hp.1
  simp only [fb_plotAll_getLsbD, hplotted, h.fb k hk]

/-- What GET_PIXEL reads. -/
theorem getPixel? (h : SameDrawInputs s u) (p : Point) : u.getPixel? p = s.getPixel? p := by
  have hsees := sees_congr h.orient p
  by_cases hp : s.sees p = true
  · rw [getPixel?_in hp, getPixel?_in (hsees.trans hp), State.pixelBit, State.pixelBit, native_congr_orient h.orient,
      h.fb _ (pixelIndex_lt (native_lt hp))]
  · rw [Bool.not_eq_true] at hp
    rw [getPixel?_out hp, getPixel?_out (hsees.trans hp)]

/-- A shape command does the same in both states. -/
theorem exec_shape (h : SameDrawInputs s u) {i : Instr} (hi : isShape i = true) :
    ∃ t v, exec i s = .next t ∧ exec i u = .next v ∧ (∀ k < 4000, v.fb k = t.fb k) ∧
      v.flags.lastCode = t.flags.lastCode := by
  by_cases hb : BadArgument i s
  · exact ⟨_, _, exec_shape_bad hi hb, exec_shape_bad hi ((h.badArgument i).mpr hb), h.fb, rfl⟩
  · refine ⟨_, _, Machine.exec_shape hi hb, Machine.exec_shape hi (mt (h.badArgument i).mp hb), fun k hk => ?_,
      by simp only [drawShape, State.finish_flags, Flags.complete_lastCode]⟩
    rw [drawShape_fb, drawShape_fb]
    refine h.fb_plotAll (fun p hp => ?_) i.color hk
    rw [mem_pointsOf hi hp, mem_pointsOf hi ((sees_congr h.orient p).trans hp), h.shapeOf hb]

end SameDrawInputs

/-- Settles O50: by the three kinds of drawing command. -/
theorem drawingDependsOnlyOnItsInputs : Obligations.DrawingDependsOnlyOnItsInputs := by
  intro i s u hi hfb hglyph ho h0 h1 h2
  have h : SameDrawInputs s u := ⟨hfb, hglyph, ho, h0, h1, h2⟩
  rcases hi with hi | rfl | hi
  · obtain ⟨t, v, ht, hv, hbytes, hcode⟩ := h.exec_shape hi
    exact ⟨t, v, ht, hv, hbytes, hcode, fun hget => by subst hget; cases hi⟩
  · exact ⟨_, _, exec_getPixel s, exec_getPixel u, hfb, rfl, fun _ =>
      congrArg resultWord (by rw [h.pt0, h.getPixel?])⟩
  · obtain ⟨white, rfl⟩ : ∃ white, i = .clear white := ⟨_, hi⟩
    exact ⟨_, _, exec_clear white s, exec_clear white u, fun k hk => by rw [fb_clear white u hk, fb_clear white s hk],
      rfl, nofun⟩

end Sys2Proof.Machine

namespace Sys2Proof.Machine

/-! ### The line walk (42_framebuffer.md R186) -/

/-- LINE walks from one of the endpoints to the other. -/
theorem inLine_iff_of_inWalk {a b p : Point} {P : Prop} (hab : InWalk a b p ↔ P) (hba : InWalk b a p ↔ P) :
    InLine a b p ↔ P := by
  unfold InLine
  split_ifs
  · exact hba
  · exact hab

/-- The endpoints are ordered first, so their order does not matter. -/
theorem inLine_comm {a b p : Point} : InLine a b p ↔ InLine b a p := by
  unfold InLine
  by_cases hba : a.1 > b.1 ∨ (a.1 = b.1 ∧ a.2 > b.2)
  · rw [if_pos hba, if_neg (by omega)]
  by_cases hab : b.1 > a.1 ∨ (b.1 = a.1 ∧ b.2 > a.2)
  · rw [if_neg hba, if_pos hab]
  · obtain rfl : a = b := Prod.ext (by omega) (by omega)
    rfl

theorem inWalk_start (a b : Point) : InWalk a b a := inWalk_iff.mpr ⟨0, Nat.zero_le _, rfl⟩

theorem inWalk_end (a b : Point) : InWalk a b b := inWalk_iff.mpr ⟨walkTurns a b, le_rfl, (lineAt_end a b).symm⟩

theorem inLine_start (a b : Point) : InLine a b a := by
  unfold InLine
  split_ifs
  · exact inWalk_end b a
  · exact inWalk_start a b

/-- The integers between two ends, by their distance from the first. -/
theorem between_iff_steps {u v w : Int} : min u v ≤ w ∧ w ≤ max u v ↔
    ∃ k : Nat, (k : Int) ≤ |v - u| ∧ w = u + (if u < v then 1 else -1) * k := by
  simp only [Int.abs_eq_natAbs]
  constructor
  · intro h
    refine ⟨(w - u).natAbs, by omega, ?_⟩
    split_ifs <;> omega
  · rintro ⟨k, hk, rfl⟩
    split_ifs <;> omega

theorem walkTurns_cast (a b : Point) : (walkTurns a b : Int) = max |b.1 - a.1| |b.2 - a.2| :=
  Int.toNat_of_nonneg (le_max_of_le_left (abs_nonneg _))

/-- The bound on the error term leaves no room for a step (or a missed step) on the shorter axis of a straight line. -/
theorem steps_eq_zero {A n : Int} (hn : 0 ≤ n) (hnA : n ≤ A) (herr : 2 * (A * (1 + n)) ≤ 3 * A) : n = 0 := by
  by_contra hne
  have hpos : 1 ≤ n := by omega
  have := mul_le_mul_of_nonneg_left hpos (hn.trans hnA)
  linarith

/-- A horizontal walk never steps in y. -/
theorem lineAt_horizontal {a b : Point} (h : a.2 = b.2) {k : Nat} (hk : k ≤ walkTurns a b) :
    ((lineAt a b k).1, (lineAt a b k).2.1) = (a.1 + (if a.1 < b.1 then 1 else -1) * (k : Int), a.2) := by
  have hturns := walkTurns_cast a b
  have hB : |b.2 - a.2| = 0 := by rw [h, sub_self, abs_zero]
  rw [hB, max_eq_left (abs_nonneg _)] at hturns
  obtain ⟨n, hn, hnk, hs, -, herr⟩ := lineAt_wide (hB.trans_le (abs_nonneg (b.1 - a.1))) k
  rw [hs.err, hB] at herr
  rw [hs.x, hs.y, steps_eq_zero (A := |b.1 - a.1|) hn (by omega) (by linarith), mul_zero, add_zero]

/-- A vertical walk never steps in x. -/
theorem lineAt_vertical {a b : Point} (h : a.1 = b.1) {k : Nat} (hk : k ≤ walkTurns a b) :
    ((lineAt a b k).1, (lineAt a b k).2.1) = (a.1, a.2 + (if a.2 < b.2 then 1 else -1) * (k : Int)) := by
  have hturns := walkTurns_cast a b
  have hA : |b.1 - a.1| = 0 := by rw [h, sub_self, abs_zero]
  rw [hA, max_eq_right (abs_nonneg _)] at hturns
  obtain ⟨m, hm, hmk, hs, herr, -⟩ := lineAt_high (hA.trans_le (abs_nonneg (b.2 - a.2))) k
  rw [hs.err, hA] at herr
  rw [hs.x, hs.y, steps_eq_zero (A := |b.2 - a.2|) hm (by omega) (by linarith), mul_zero, add_zero]

/-- A 45 degree walk steps in x and in y in every turn. -/
theorem lineAt_diagonal {a b : Point} (h : |b.1 - a.1| = |b.2 - a.2|) {k : Nat} (hk : k ≤ walkTurns a b) :
    ((lineAt a b k).1, (lineAt a b k).2.1) =
      (a.1 + (if a.1 < b.1 then 1 else -1) * (k : Int), a.2 + (if a.2 < b.2 then 1 else -1) * (k : Int)) := by
  have hturns := walkTurns_cast a b
  rw [h, max_self] at hturns
  obtain ⟨n, hn, hnk, hs, herr, -⟩ := lineAt_wide h.ge k
  rw [hs.err, h] at herr
  have hmissed : (k : Int) - n = 0 := steps_eq_zero (A := |b.2 - a.2|) (by omega) (by omega) (by linarith)
  rw [hs.x, hs.y, show n = k by omega]

/-- The points of a walk whose turns are known. -/
theorem inWalk_iff_of_lineAt {a b p : Point} {f : Nat → Point}
    (hf : ∀ k ≤ walkTurns a b, ((lineAt a b k).1, (lineAt a b k).2.1) = f k) :
    InWalk a b p ↔ ∃ k : Nat, (k : Int) ≤ max |b.1 - a.1| |b.2 - a.2| ∧ p = f k := by
  rw [inWalk_iff, ← walkTurns_cast]
  refine exists_congr fun k => ?_
  rw [Nat.cast_le]
  exact and_congr_right fun hk => by rw [hf k hk]

theorem inWalk_horizontal {a b : Point} (h : a.2 = b.2) (p : Point) :
    InWalk a b p ↔ p.2 = a.2 ∧ min a.1 b.1 ≤ p.1 ∧ p.1 ≤ max a.1 b.1 := by
  rw [inWalk_iff_of_lineAt fun k hk => lineAt_horizontal h hk, between_iff_steps, h, sub_self, abs_zero,
    max_eq_left (abs_nonneg _), ← exists_and_left]
  exact exists_congr fun k => by rw [Prod.ext_iff]; tauto

theorem inWalk_vertical {a b : Point} (h : a.1 = b.1) (p : Point) :
    InWalk a b p ↔ p.1 = a.1 ∧ min a.2 b.2 ≤ p.2 ∧ p.2 ≤ max a.2 b.2 := by
  rw [inWalk_iff_of_lineAt fun k hk => lineAt_vertical h hk, between_iff_steps, h, sub_self, abs_zero,
    max_eq_right (abs_nonneg _), ← exists_and_left]
  exact exists_congr fun k => by rw [Prod.ext_iff]; tauto

theorem inWalk_diagonal {a b : Point} (h : |b.1 - a.1| = |b.2 - a.2|) (p : Point) :
    InWalk a b p ↔
      |p.1 - a.1| = |p.2 - a.2| ∧ min a.1 b.1 ≤ p.1 ∧ p.1 ≤ max a.1 b.1 ∧ min a.2 b.2 ≤ p.2 ∧ p.2 ≤ max a.2 b.2 := by
  rw [inWalk_iff_of_lineAt fun k hk => lineAt_diagonal h hk, h, max_self]
  simp only [Int.abs_eq_natAbs] at h ⊢
  constructor
  · rintro ⟨k, hk, rfl⟩
    dsimp only
    split_ifs <;> omega
  · intro hp
    refine ⟨(p.1 - a.1).natAbs, by omega, Prod.ext ?_ ?_⟩ <;> dsimp only <;> split_ifs <;> omega

theorem inLine_horizontal {a b : Point} (h : a.2 = b.2) (p : Point) :
    InLine a b p ↔ p.2 = a.2 ∧ min a.1 b.1 ≤ p.1 ∧ p.1 ≤ max a.1 b.1 :=
  inLine_iff_of_inWalk (inWalk_horizontal h p) (by rw [inWalk_horizontal h.symm, h, min_comm, max_comm])

theorem inLine_vertical {a b : Point} (h : a.1 = b.1) (p : Point) :
    InLine a b p ↔ p.1 = a.1 ∧ min a.2 b.2 ≤ p.2 ∧ p.2 ≤ max a.2 b.2 :=
  inLine_iff_of_inWalk (inWalk_vertical h p) (by rw [inWalk_vertical h.symm, h, min_comm, max_comm])

theorem inLine_diagonal {a b : Point} (h : |b.1 - a.1| = |b.2 - a.2|) (p : Point) :
    InLine a b p ↔
      |p.1 - a.1| = |p.2 - a.2| ∧ min a.1 b.1 ≤ p.1 ∧ p.1 ≤ max a.1 b.1 ∧ min a.2 b.2 ≤ p.2 ∧ p.2 ≤ max a.2 b.2 := by
  refine inLine_iff_of_inWalk (inWalk_diagonal h p) ?_
  rw [inWalk_diagonal (by rw [abs_sub_comm, h, abs_sub_comm])]
  simp only [Int.abs_eq_natAbs] at h ⊢
  omega

/-- Settles O44: the walk ends in the turn of the longer axis, the endpoints are ordered first, and on a straight line every
turn's steps are known. -/
theorem lineWalkEndsAndIsSymmetric : Obligations.LineWalkEndsAndIsSymmetric := fun a b =>
  ⟨length_linePoints a b, fun _ => mem_linePoints, fun _ => inLine_comm, inLine_start a b, inLine_comm.mpr (inLine_start b a),
    fun p => (inLine_horizontal rfl p).trans (by rw [min_self, max_self, Prod.ext_iff]; omega),
    inLine_horizontal, inLine_vertical, inLine_diagonal⟩

/-! ### The circle walk (42_framebuffer.md R189, R190) -/

/-- The eight points of a turn, by their distances from the centre on the two axes. -/
theorem inCircle_iff {c p : Point} {r : Nat} : InCircle c r p ↔ ∃ x y, CircleTurn r x y ∧
    (|p.1 - c.1| = x ∧ |p.2 - c.2| = y ∨ |p.1 - c.1| = y ∧ |p.2 - c.2| = x) := by
  refine exists_congr fun x => exists_congr fun y => and_congr_right fun hturn => ?_
  have hbounds := circleTurn_bounds hturn
  simp only [List.mem_cons, List.not_mem_nil, or_false, Prod.ext_iff, Int.abs_eq_natAbs]
  omega

/-- The four spans of a turn, by the distances from the centre on the two axes. -/
theorem inCirclef_iff {c p : Point} {r : Nat} : InCirclef c r p ↔ ∃ x y, CircleTurn r x y ∧
    (|p.1 - c.1| ≤ x ∧ |p.2 - c.2| = y ∨ |p.1 - c.1| ≤ y ∧ |p.2 - c.2| = x) := by
  refine exists_congr fun x => exists_congr fun y => and_congr_right fun hturn => ?_
  have hbounds := circleTurn_bounds hturn
  simp only [List.mem_cons, List.not_mem_nil, or_false, exists_eq_or_imp, exists_eq_left, Int.abs_eq_natAbs]
  omega

/-- A circle of radius 0 has the one turn at the centre. -/
theorem circleTurn_zero {x y : Int} : CircleTurn 0 x y ↔ x = 0 ∧ y = 0 := by
  constructor
  · intro h
    have := circleTurn_bounds h
    omega
  · rintro ⟨rfl, rfl⟩
    exact ⟨0, by simp [circleAt], rfl, rfl⟩

/-- A circle of radius 1 has the one turn on the axes: the next would have `y` above `x`. -/
theorem circleTurn_one {x y : Int} : CircleTurn 1 x y ↔ x = 1 ∧ y = 0 := by
  constructor
  · rintro ⟨k, hk, rfl, rfl⟩
    cases k with
    | zero => exact ⟨rfl, rfl⟩
    | succ k => exact absurd (hk 1 (by omega)) (by decide)
  · rintro ⟨rfl, rfl⟩
    exact ⟨0, by simp [circleAt], rfl, rfl⟩

theorem inCircle_zero {c p : Point} : InCircle c 0 p ↔ p = c := by
  simp only [inCircle_iff, circleTurn_zero, Int.abs_eq_natAbs, Prod.ext_iff]
  constructor
  · rintro ⟨x, y, hxy, hp⟩; omega
  · intro hp; exact ⟨0, 0, by omega, by omega⟩

theorem inCircle_one {c p : Point} : InCircle c 1 p ↔ |p.1 - c.1| + |p.2 - c.2| = 1 := by
  simp only [inCircle_iff, circleTurn_one, Int.abs_eq_natAbs]
  constructor
  · rintro ⟨x, y, hxy, hp⟩; omega
  · intro hp; exact ⟨1, 0, by omega, by omega⟩

theorem inCirclef_zero {c p : Point} : InCirclef c 0 p ↔ p = c := by
  simp only [inCirclef_iff, circleTurn_zero, Int.abs_eq_natAbs, Prod.ext_iff]
  constructor
  · rintro ⟨x, y, hxy, hp⟩; omega
  · intro hp; exact ⟨0, 0, by omega, by omega⟩

/-- The set depends on the distances from the centre alone, in either order of the axes. -/
theorem inCircle_congr {c p q : Point} {r : Nat}
    (h : |q.1 - c.1| = |p.1 - c.1| ∧ |q.2 - c.2| = |p.2 - c.2| ∨ |q.1 - c.1| = |p.2 - c.2| ∧ |q.2 - c.2| = |p.1 - c.1|) :
    InCircle c r p ↔ InCircle c r q := by
  rw [inCircle_iff, inCircle_iff]
  refine exists_congr fun x => exists_congr fun y => and_congr_right fun _ => ?_
  omega

/-- Settles O46: the drawing by `exec_draws`, the symmetries by the distances from the centre. -/
theorem circleDrawsItsWalk : Obligations.CircleDrawsItsWalk := by
  refine ⟨by decide, by decide, fun white _ => exec_draws (i := .circle white) rfl id, fun c p r =>
    ⟨inCircle_congr (.inl ⟨?_, rfl⟩), inCircle_congr (.inl ⟨rfl, ?_⟩), inCircle_congr (.inr ⟨?_, ?_⟩), inCircle_zero,
      inCircle_one⟩⟩
  · rw [abs_sub_comm]; congr 1; dsimp only; ring
  · rw [abs_sub_comm]; congr 1; dsimp only; ring
  · rw [add_sub_cancel_left]
  · rw [add_sub_cancel_left]

/-- A point of the circle is the end of one of the spans. -/
theorem inCirclef_of_inCircle {c p : Point} {r : Nat} (h : InCircle c r p) : InCirclef c r p := by
  obtain ⟨x, y, hturn, hp⟩ := inCircle_iff.mp h
  exact inCirclef_iff.mpr ⟨x, y, hturn, hp.imp (And.imp_left le_of_eq) (And.imp_left le_of_eq)⟩

/-- The spans lie in the square of the radius. -/
theorem inCirclef_square {c p : Point} {r : Nat} (h : InCirclef c r p) : |p.1 - c.1| ≤ r ∧ |p.2 - c.2| ≤ r := by
  obtain ⟨x, y, hturn, hp⟩ := inCirclef_iff.mp h
  have hbounds := circleTurn_bounds hturn
  omega

/-- Settles O47: the drawing by `exec_draws`, the rest by the distances from the centre. -/
theorem filledCircleDrawsItsSpans : Obligations.FilledCircleDrawsItsSpans :=
  ⟨by decide, by decide, fun white _ => exec_draws (i := .circlef white) rfl id, fun _ _ _ =>
    ⟨inCirclef_of_inCircle, inCirclef_square, inCirclef_zero⟩⟩

end Sys2Proof.Machine

namespace Sys2Proof.Machine

/-! ### The block never stops (60_exceptions.md R213) -/

/-- The controller's turn answers a next state, with or without a running command. -/
theorem controllerTurn_next (s : State) : ∃ t, controllerTurn s = .next t := by
  unfold controllerTurn
  split_ifs
  · exact runCommand_next s
  · exact ⟨s, rfl⟩

/-- Settles O6: by whether an input is pending; serving one and the controller's turn both answer a next state. -/
theorem everyStepAnswersNext : Obligations.EveryStepAnswersNext := by
  intro s
  unfold step
  cases s.inputs with
  | nil => exact controllerTurn_next s
  | cons i rest =>
    obtain ⟨t, ht, -⟩ := serve_served i { s with inputs := rest }
    exact ⟨t, ht⟩

/-! ### The order of the checks (60_exceptions.md R212) -/

/-- A command that passes every check fails none: no other code is that of its first failed check. -/
theorem FirstCheck.eq_ok {i : Instr} {s : State} {c : Code} (hok : FirstCheck i s .ok) (hc : FirstCheck i s c) :
    c = .ok := by
  obtain _ | _ | _ | _ | _ | ⟨htable, hbus, hargument, hlimit, hopen⟩ := hok
  cases hc with
  | resourceUnavailable hi ho => simp [hopen hi] at ho
  | invalidTransition h => exact absurd h htable
  | notOpen _ hu ho => simp [hbus hu] at ho
  | invalidArgument _ _ h => exact absurd h hargument
  | partialLimit _ _ _ h => exact absurd h hlimit
  | passed => rfl

/-- Settles O35: a failed check by `exec_of_failed`; a command that passes them ends in one of the other two ways of
`ran_by_code`. -/
theorem firstFailedCheckIsTheOnlyEffect : Obligations.FirstFailedCheckIsTheOnlyEffect := by
  intro i s c hc
  refine ⟨exec_of_failed hc, ?_⟩
  rintro rfl
  obtain ⟨t, ht, hr⟩ := exec_ran i s
  refine ⟨t, ht, ?_⟩
  rcases ran_by_code hr with ⟨d, hd, hne, -⟩ | ⟨hcode, -⟩ | ⟨hi, -, hcode, -⟩
  · exact absurd (hc.eq_ok hd) hne
  · exact .inl hcode
  · exact .inr ⟨hcode, hi⟩

/-! ### What every completion writes (60_exceptions.md R211) -/

/-- ERR and FIRST_ERR after a completion with an error: the first error since ERR was last cleared is kept. -/
theorem Flags.complete_of_ne_ok {c : Code} (hc : c ≠ .ok) (f : Flags) :
    (f.complete c).err = true ∧ (f.complete c).firstErr = if f.err then f.firstErr else c := by
  cases he : f.err <;> simp [hc, he]

/-- The flags that no command writes, and the AUX fields, which only CLOSE writes, are the same right before the
completion as at the issue. -/
theorem flags_before_completion {i : Instr} {f g : Flags}
    (h : f = g ∨ i = .closeBus ∧ ∃ a, f = { g with auxCode := a, auxValid := true }) :
    f.err = g.err ∧ f.firstErr = g.firstErr ∧ f.overrun = g.overrun ∧ f.dropped = g.dropped ∧
      (i ≠ .closeBus → f.auxCode = g.auxCode ∧ f.auxValid = g.auxValid) := by
  rcases h with rfl | ⟨hi, a, rfl⟩
  · exact ⟨rfl, rfl, rfl, rfl, fun _ => ⟨rfl, rfl⟩⟩
  · exact ⟨rfl, rfl, rfl, rfl, fun hne => absurd hi hne⟩

/-- Settles O37: every command ends in one completion (`ran_completes`), whose flags are `Flags.complete` of those before
it. -/
theorem everyCompletionWritesItsFields : Obligations.EveryCompletionWritesItsFields := by
  intro i s
  obtain ⟨t, ht, hr⟩ := exec_ran i s
  obtain ⟨c, f, hc, hf, hregs, hresult⟩ := ran_completes hr
  obtain ⟨herr, hfirst, hoverrun, hdropped, haux⟩ := flags_before_completion hf
  have hbusy : t.statusWord.getLsbD 0 = false := (statusWord_getLsbD t).1.trans ((busy_eq_false t).mpr hc.seq)
  refine ⟨t, ht, hc.seq, hbusy, ?_⟩
  rw [hc.flags, ← herr, ← hfirst, ← hoverrun, ← hdropped]
  refine ⟨rfl, fun hne => Flags.complete_of_ne_ok hne f, ?_, rfl, rfl, haux, hregs, hresult, hc.snap, hc.inputs, hc.resp,
    hc.inReset, ran_earlier hr⟩
  rintro (rfl : c = .ok)
  exact ⟨rfl, rfl⟩

/-! ### The interrupt (60_exceptions.md R216, R217) -/

theorem irq_iff (s : State) : s.irq = true ↔ s.regs.irqEn = true ∧ s.flags.done = true := Bool.and_eq_true_iff

theorem irq_of_done {s : State} (h : s.flags.done = true) : s.irq = s.regs.irqEn := by simp [State.irq, h]

theorem irq_of_not_done {s : State} (h : s.flags.done = false) : s.irq = false := by simp [State.irq, h]

/-- Settles O20: a completion sets DONE, an issue and a write of 1 to it clear it, and a write to CTRL leaves it. -/
theorem interruptFollowsDoneAndEnable : Obligations.InterruptFollowsDoneAndEnable := fun s _ _ =>
  ⟨irq_iff s, irq_of_done rfl, irq_of_not_done rfl, fun hw => irq_of_not_done (if_pos hw), fun hdone => irq_of_done hdone⟩

end Sys2Proof.Machine

namespace Sys2Proof.Machine

/-! ### Counting transactions, pulses and waits (70_reset_and_hazards.md R255) -/

/-- The transactions, the pulses and the waits among some events. -/
def tally (es : List Event) : Nat × Nat × Nat :=
  (es.countP Event.isXact, es.countP Event.isPulse, es.countP Event.isWait)

@[simp] theorem tally_nil : tally [] = (0, 0, 0) := rfl
theorem tally_append (es fs : List Event) : tally (es ++ fs) = tally es + tally fs := by simp [tally]
theorem tally_cons (e : Event) (es : List Event) : tally (e :: es) = tally [e] + tally es := tally_append [e] es
@[simp] theorem tally_xact (dc : Bool) (bs : List Byte) : tally [.xact dc bs] = (1, 0, 0) := rfl
@[simp] theorem tally_wait (T : Nat) (r : WaitOutcome) : tally [.wait T r] = (0, 0, 1) := rfl

@[simp] theorem tally_resetPulse (p : Snap) : tally (resetPulse p) = (0, 1, 0) := rfl

theorem counts_of_tally {es : List Event} {n p w : Nat} (h : tally es = (n, p, w)) :
    es.countP Event.isPulse = p ∧ es.countP Event.isWait = w ∧ es.countP Event.isXact = n := by
  obtain ⟨hn, hp, hw⟩ : es.countP Event.isXact = n ∧ es.countP Event.isPulse = p ∧ es.countP Event.isWait = w := by
    simpa [tally] using h
  exact ⟨hp, hw, hn⟩

/-- A panel command is one transaction, and its data are one more if there are any (40_transport.md R126, R127). -/
@[simp] theorem tally_issued (c : Byte) (d : List Byte) : tally (issued c d) = (1 + [d].countP (· ≠ []), 0, 0) := by
  unfold issued
  split_ifs with h
  · subst h; rfl
  · rw [List.countP_cons_of_pos (by simpa using h)]; rfl

@[simp] theorem tally_fullBankEvents (c : Byte) (s : State) : tally (fullBankEvents c s) = (10, 0, 0) := rfl

/-- One bank and the trigger of a full refresh (41_refresh_fsm.md R161, R162). -/
theorem tally_fullBank_trigger (c : Byte) (s : State) (m : Config.DataRole) :
    tally (writeBank c .full s ++ trigger m) = (12 + [Config.pcmdData m].countP (· ≠ []), 0, 0) := by
  simp only [writeBank_full, trigger_eq, tally_append, tally_fullBankEvents, tally_issued, tally_xact, Prod.mk_add_mk,
    Prod.mk.injEq, and_true]
  omega

theorem tally_partialEvents (x y : Int) (wd ht : Nat) (s : State) :
    tally (partialEvents x y wd ht s) = (12 + [Config.pcmdData .updPartial].countP (· ≠ []), 0, 0) := by
  simp only [partialEvents, tally_append, tally_issued, tally_cons _ (_ :: _), tally_xact, Prod.mk_add_mk, Prod.mk.injEq,
    and_true]
  omega

theorem tally_initEvents (lut : List Byte) : tally (initEvents lut) =
    (9 + [Config.pcmdData .doc, Config.pcmdData .dem, Config.pcmdData .bwf, Config.pcmdData .duc, lut].countP (· ≠ []),
      0, 0) := by
  simp only [initEvents, tally_append, tally_issued, tally_cons _ (_ :: _), tally_xact, Prod.mk_add_mk, Prod.mk.injEq,
    and_true, List.countP_cons, List.countP_nil]
  omega

/-! ### The events of the commands that complete OK -/

/-- What a command with a wait sends after a wait that ended Idle: INIT_FULL and INIT_FAST their sequences
(41_refresh_fsm.md R158, R159), the others nothing. -/
def sentAfterIdle (i : Instr) : List Event :=
  match i with
  | .initFull => initEvents Config.lutFull
  | .initFast => initEvents Config.lutFast
  | _ => []

theorem afterIdle_trace (i : Instr) (s u : State) : (afterIdle i s u).bus.trace = u.bus.trace ++ sentAfterIdle i := by
  cases i <;> simp [afterIdle, sentAfterIdle, initSeq_eq]

section
variable {i : Instr} {s t : State} {es : List Event} (htr : t.bus.trace = s.bus.trace ++ es) (hok : t.flags.lastCode = .ok)
include htr hok

/-- Beside what it sends before its wait and after it, such a command has its one wait. -/
theorem tally_of_wait_ok (hi : hasWait i = true) (h : exec i s = .next t) :
    tally es = tally (beforeWait i s) + (0, 0, 1) + tally (sentAfterIdle i) := by
  obtain ⟨-, hw, rfl⟩ := afterIdle_of_ok hi h hok
  have hes : es = beforeWait i s ++ [.wait (waitBound i s) .idle] ++ sentAfterIdle i := by
    simpa [afterIdle_trace, hw] using htr.symm
  rw [hes, tally_append, tally_append, tally_wait]

theorem events_of_commitBase_ok (h : exec .commitBase s = .next t) :
    es = fullBankEvents (Config.pcmd .wro) s ++ fullBankEvents (Config.pcmd .wrn) s := by
  cases ran_of_exec h with
  | failed _ hne => exact absurd hok hne
  | quiet hq => simp at hq
  | committed => simpa [writeBank_full] using htr.symm
  | _ => contradiction

theorem events_of_sleep_ok (h : exec .sleep s = .next t) : es = issued (Config.pcmd .dsl) (Config.pcmdData .dsl) := by
  cases ran_of_exec h with
  | failed _ hne => exact absurd hok hne
  | quiet hq => simp at hq
  | slept => simpa [deepSleep, issuePanel_eq] using htr.symm
  | _ => contradiction

/-- The drawing commands and NOP send nothing (42_framebuffer.md R180). -/
theorem events_of_offBus_ok (hi : usesBus i = false) (hopen : i ≠ .openBus) (hclose : i ≠ .closeBus)
    (h : exec i s = .next t) : es = [] := by
  have hnw : hasWait i ≠ true := fun hw => by simp [usesBus_of_hasWait hw] at hi
  cases ran_of_exec h with
  | failed _ hne => exact absurd hok hne
  | quiet | cleared | read => simpa using htr.symm
  | drew => rw [drawShape_eq] at htr; simpa using htr.symm
  | timedOut hw | waited hw => exact absurd hw hnw
  | _ => contradiction
end

/-- Settles O38: the events of each command, and their tally. -/
theorem eventsPerCommand : Obligations.EventsPerCommand := by
  intro i s t es h hok htr n p w hn hp hw
  subst hn hp hw
  have hwait := fun hi => tally_of_wait_ok htr hok (i := i) hi h
  refine ⟨?_, ?_, ?_, ?_, ?_, ?_, ?_, fun hb ho hc => events_of_offBus_ok htr hok hb ho hc h⟩ <;> rintro rfl <;>
    apply counts_of_tally
  · simp [hwait rfl, beforeWait, sentAfterIdle, tally_initEvents]
  · simp [hwait rfl, beforeWait, sentAfterIdle, tally_initEvents]
  · simp [events_of_commitBase_ok htr hok h, tally_append]
  · simp [hwait rfl, beforeWait, tally_fullBank_trigger, sentAfterIdle]
  · simp [hwait rfl, beforeWait, tally_fullBank_trigger, sentAfterIdle]
  · simp [hwait rfl, beforeWait_displayPartial (firstCheck_of_ok h hok), tally_partialEvents, sentAfterIdle]
  · simp [events_of_sleep_ok htr hok h]

end Sys2Proof.Machine

namespace Sys2Proof.Machine

/-! ### Block reset (70_reset_and_hazards.md R240, R241) -/

/-- No part of a block reset reads the pending inputs. -/
theorem blockReset_inputs (s : State) (l : List Input) :
    ({ s with inputs := l } : State).blockReset = { s.blockReset with inputs := l } := by
  have hrun : ({ s with inputs := l } : State).runEvents = s.runEvents :=
    (sameRun_aside s l _ _ _ _ _).runEvents rfl
  have hcut : ({ s with inputs := l } : State).cutNow = s.cutNow := by
    simp only [State.cutNow, State.eventNow, State.half, hrun]
  have hdriven : ({ s with inputs := l } : State).drivenNow = s.drivenNow := by simp only [State.drivenNow, hrun]
  have hwaits : ({ s with inputs := l } : State).waitsBegun = s.waitsBegun := by simp only [State.waitsBegun, hrun]
  have hnow : ({ s with inputs := l } : State).traceNow = s.traceNow := by simp only [State.traceNow, hrun]
  rw [State.blockReset, State.blockReset, hcut, hdriven, hwaits, hnow]

theorem step_resetAssert {s : State} {rest : List Input} (h : s.inputs = .resetAssert :: rest) :
    step s = .next { s.blockReset with inputs := rest } := by
  simp only [step, h, serve, blockReset_inputs]

/-- The trace after block reset: what is left of the event under way, and `Release` if the lines were driven. -/
theorem blockReset_trace {s : State} (hl : s.linesLegal) :
    s.blockReset.bus.trace = s.cutNow ++ if s.restNow = Lines.allReleased then [] else [.release] := by
  refine congrArg (s.cutNow ++ ·) ?_
  by_cases h : s.restNow = Lines.allReleased
  · rw [if_pos h, if_neg fun hd => (drivenNow_iff hl).mp hd h]
  · rw [if_neg h, if_pos ((drivenNow_iff hl).mpr h)]

/-- A transaction that has asserted chip-select leaves a `Cut` with the bytes fully out. -/
theorem cutNow_of_selected {s : State} {dc : Bool} {bs : List Byte} (he : s.eventNow = some (.xact dc bs))
    (hc : s.half ≤ s.pos.cycle) : s.cutNow = [.cut dc (bs.take ((s.pos.cycle - s.half) / (16 * s.half)))] := by
  simp [State.cutNow, he, cutOf, hc]

/-- A transaction before that, any other event, and the time between events leave nothing. -/
theorem cutNow_of_not_selected {s : State} (h : ∀ dc bs, s.eventNow = some (.xact dc bs) → s.pos.cycle < s.half) :
    s.cutNow = [] := by
  unfold State.cutNow
  cases he : s.eventNow with
  | none => rfl
  | some e =>
    cases e with
    | xact dc bs => exact if_neg (Nat.not_le.mpr (h dc bs he))
    | _ => rfl

theorem eventNow_idle {s : State} (h : s.seq = .idle) : s.eventNow = none := by
  simp [State.eventNow, runEvents_idle h]

theorem restNow_idle {s : State} (h : s.seq = .idle) : s.restNow = s.bus.lines := by
  simp [State.restNow, runEvents_idle h]

/-- While `rst_n` is 0 an access gets its answer and nothing else. -/
theorem hostAccess_of_inReset {t : State} (h : t.inReset = true) (off : BitVec 14) (n : Nat) (v : Word) :
    t.hostAccess (.read off n) = { t with resp := .data 0#32 } ∧
      t.hostAccess (.write off n v) = { t with resp := .done } := ⟨if_pos h, if_pos h⟩

/-- Settles O22: by what `blockReset` writes; the `Cut` by the event under way, the `Release` by `drivenNow_iff`. -/
theorem blockResetAbandonsAndReleases : Obligations.BlockResetAbandonsAndReleases := by
  intro s rest hi hl
  have hearlier : s.blockReset.earlier = s.earlier ++ s.bus.trace ++ s.runEvents.take s.pos.events :=
    (List.append_assoc _ _ _).symm
  refine ⟨_, step_resetAssert hi, rfl, rfl, rfl, rfl, rfl, rfl, rfl, rfl, hearlier,
    ⟨s.cutNow, blockReset_trace hl, fun _ _ => cutNow_of_selected, cutNow_of_not_selected⟩, fun hs => ?_,
    hostAccess_of_inReset rfl⟩
  exact ⟨restNow_idle hs, eventNow_idle hs, congrArg (s.earlier ++ ·) (traceNow_idle hs)⟩

end Sys2Proof.Machine

namespace Sys2Proof.Machine

/-! ### The duties of a paced host (70_reset_and_hazards.md R246, R247) -/

/-- Between `s` and `t` neither OVERRUN nor DROPPED has been set. -/
def LosesNothing (s t : State) : Prop :=
  (t.flags.overrun = true → s.flags.overrun = true) ∧ (t.flags.dropped = true → s.flags.dropped = true)

theorem losesNothing_of_eq {s t : State} (ho : t.flags.overrun = s.flags.overrun) (hd : t.flags.dropped = s.flags.dropped) :
    LosesNothing s t := ⟨fun h => ho ▸ h, fun h => hd ▸ h⟩

/-- Inputs that keep the duties while a command may run keep them when none does. -/
theorem paced_mono {p q : Bool} (hqp : q = true → p = true) {l : List Input} (h : paced p l = true) : paced q l = true := by
  induction l generalizing p q with
  | nil => rfl
  | cons i l ih =>
    cases i with
    | access a =>
      rw [paced, Bool.and_eq_true] at h ⊢
      obtain ⟨hduty, hrest⟩ := h
      refine ⟨?_, ih (fun hq => ?_) hrest⟩
      · cases q with
        | false => rfl
        | true => rwa [hqp rfl] at hduty
      · exact Bool.or_eq_true_iff.mpr ((Bool.or_eq_true_iff.mp hq).imp_left hqp)
    | wait | complete | resetAssert => exact h
    | advance | clk | resetRelease => exact ih hqp h

/-! ### A host access of a paced host -/

theorem offset_of_regAt {off : Nat} {r : Reg} (h : regAt off = some r) : r.offset = off := by
  rw [regAt] at h
  simpa using List.find?_some h

theorem isCmdWrite_of_regAt {off : BitVec 14} (h : regAt off.toNat = some .cmd) (w : Word) :
    (Access.write off 4 w).isCmdWrite = true := by
  obtain rfl : off = 0x00C#14 := BitVec.eq_of_toNat_eq (offset_of_regAt h).symm
  rfl

theorem isStore_of_isStored {off : BitVec 14} {n k : Nat} (hk : k < n) (h : isStored (off.toNat + k) = true) (w : Word) :
    (Access.write off n w).isStore = true :=
  List.any_eq_true.mpr ⟨k, List.mem_range.mpr hk, h⟩

theorem hostAccess_inputs (a : Access) (s : State) : (s.hostAccess a).inputs = s.inputs := by
  refine hostAccess_keeps (P := fun u => u.inputs = s.inputs) (fun _ _ _ h => h) (fun w r u _ h => ?_) (fun _ _ _ h => h)
    a s rfl
  rcases writeReg_cases w u r with ⟨-, -, h'⟩ | ⟨h', -⟩ <;> rw [h'] <;> exact h

/-- Only a write to CMD issues. -/
theorem hostAccess_seq {a : Access} (ha : a.isCmdWrite = false) (s : State) : (s.hostAccess a).seq = s.seq := by
  rcases hostAccess_cases a s with h | ⟨off, w, r, rfl, hreg, -, h⟩ | ⟨off, n, w, -, -, -, h⟩ <;> rw [h]
  · rcases writeReg_cases w s r with ⟨rfl, -, -⟩ | ⟨h', -⟩
    · rw [isCmdWrite_of_regAt hreg] at ha; cases ha
    · rw [h']
  · obtain ⟨d, m, hb⟩ := writeBytes_frame off.toNat n w s
    rw [hb]

/-- A write to a register sets neither bit, but for one to CMD while a command runs. -/
theorem writeReg_losesNothing {r : Reg} {s : State} (h : r = .cmd → s.seq = .idle) (w : Word) :
    LosesNothing s (s.writeReg w r) := by
  cases r
  case status => constructor <;> simp [State.writeReg, Flags.writeOneToClear]
  case cmd =>
    rcases writeCmd_cases w s with ⟨-, h'⟩ | ⟨hs, -⟩
    · rw [State.writeReg, h']; exact losesNothing_of_eq rfl rfl
    · rw [h rfl] at hs; cases hs
  all_goals exact losesNothing_of_eq rfl rfl

/-- An access that is no write to CMD, FB or GLYPH while a command runs sets neither bit. -/
theorem hostAccess_losesNothing {a : Access} {s : State}
    (h : s.seq = .running → a.isCmdWrite = false ∧ a.isStore = false) : LosesNothing s (s.hostAccess a) := by
  rcases hostAccess_cases a s with ha | ⟨off, w, r, rfl, hreg, -, ha⟩ | ⟨off, n, w, rfl, -, -, ha⟩ <;> rw [ha]
  · exact losesNothing_of_eq rfl rfl
  · refine writeReg_losesNothing (fun hr => ?_) w
    cases hs : s.seq with
    | idle => rfl
    | running => subst hr; rw [isCmdWrite_of_regAt hreg] at h; exact absurd (h hs).1 nofun
  · rcases writeBytes_cases off.toNat n w s with ⟨hs, ⟨k, hk, hst⟩, -⟩ | ⟨-, hw⟩
    · rw [isStore_of_isStored hk hst] at h; exact absurd (h hs).2 nofun
    · rw [hw, storeBytes_eq]; exact losesNothing_of_eq rfl rfl

/-! ### A step of a paced host -/

/-- A completion takes no input and writes neither bit. -/
theorem runCommand_aside {s t : State} (h : runCommand s = .next t) :
    t.busy = false ∧ t.inputs = s.inputs ∧ LosesNothing s t := by
  refine ⟨(busy_eq_false t).mpr (runCommand_seq h), ?_⟩
  rcases runCommand_cases h with ⟨i, -, hr⟩ | rfl
  · obtain ⟨c, f, hc, hf, -⟩ := ran_completes hr
    obtain ⟨-, -, ho, hd, -⟩ := flags_before_completion hf
    exact ⟨hc.inputs, losesNothing_of_eq (by rw [hc.flags]; exact ho) (by rw [hc.flags]; exact hd)⟩
  · exact ⟨rfl, losesNothing_of_eq rfl rfl⟩

/-- An access that the duties allow. -/
theorem hostAccess_paced {a : Access} {s : State} (hp : paced s.busy (.access a :: s.inputs) = true) :
    paced (s.hostAccess a).busy (s.hostAccess a).inputs = true ∧ LosesNothing s (s.hostAccess a) := by
  simp only [paced, Bool.and_eq_true, Bool.not_eq_true', Bool.and_eq_false_iff, Bool.or_eq_false_iff] at hp
  obtain ⟨hduty, hrest⟩ := hp
  have hduty : s.seq = .running → a.isCmdWrite = false ∧ a.isStore = false := fun hs =>
    hduty.resolve_left (by simp [hs])
  rw [hostAccess_inputs]
  refine ⟨paced_mono (fun hb => ?_) hrest, hostAccess_losesNothing hduty⟩
  cases ha : a.isCmdWrite
  · rw [State.busy, hostAccess_seq ha] at hb; simpa using hb
  · simp

/-- Every input keeps the duties, as seen from the inputs after it. -/
theorem served_paced {i : Input} {s t : State} (h : Served i s t) (hp : paced s.busy (i :: s.inputs) = true) :
    paced t.busy t.inputs = true ∧ LosesNothing s t := by
  cases h with
  | access => exact hostAccess_paced hp
  | waitRead hs => exact hostAccess_paced (a := .read 0x008 4) (by rw [(busy_eq_false s).mpr hs]; exact hp)
  | waitRun _ hr | ran _ hr =>
    obtain ⟨hb, hin, hl⟩ := runCommand_aside hr
    rw [hb, hin]
    exact ⟨hp, hl⟩
  | moved => rw [advance_eq]; exact ⟨hp, losesNothing_of_eq rfl rfl⟩
  | nothing hs => exact ⟨(busy_eq_false s).mpr hs ▸ hp, losesNothing_of_eq rfl rfl⟩
  | clk | resetRelease => exact ⟨hp, losesNothing_of_eq rfl rfl⟩
  | resetAssert => exact ⟨hp, nofun, nofun⟩

/-- Settles O9: a command takes no input and sets neither bit, and `served_paced` for the input served. -/
theorem pacedHostLosesNothing : Obligations.PacedHostLosesNothing := by
  intro s t hp h
  rcases step_cases h with ⟨-, -, rfl⟩ | ⟨hi, -, hr⟩ | ⟨i, rest, hi, hs⟩
  · exact ⟨hp, id, id⟩
  · obtain ⟨-, hin, hl⟩ := runCommand_aside hr
    exact ⟨by rw [hin, hi]; rfl, hl⟩
  · rw [hi] at hp
    exact served_paced (s := { s with inputs := rest }) hs hp

end Sys2Proof.Machine
